-- ==== Sys2Proof/Word.lean ====
section
/-! DEFINITION. The word types of the sequencer (00_scope.md R7, R10). -/

namespace Sys2Proof

/-- A register, a bus address or a bus data word: REG_WIDTH = ADDR_WIDTH = 32 bits (R7). -/
abbrev Word := BitVec 32

/-- One byte of the address space (20_memory.md R75). -/
abbrev Byte := BitVec 8

/-- `zext_32` of R10. -/
abbrev zext {n : Nat} (v : BitVec n) : Word := v.setWidth 32

end Sys2Proof
end

