-- ==== Sys2Proof/Syntax.lean ====
section
/-! DEFINITION. Syntax: the configuration records, the trace elements (one constructor of `Instr`
per row of opcode_table.json), the controller's registers and the signals of the two ports. -/

namespace Sys2Proof

/-- `ent` (10_state.md R22): the two entry points. -/
inductive Entry where
  | nor
  | sdram
  deriving DecidableEq, Repr, Inhabited

/-- The `slot` port (R35): 0 is physical slot 1 (target bit CTB1), 1 is physical slot 2 (CTB2). -/
inductive Slot where
  | slot1
  | slot2
  deriving DecidableEq, Repr, Inhabited

/-- The NOR/SRAM control record (R33); each field has the width of its port. -/
structure NorCtrl where
  memType    : BitVec 2 := 0
  dataWidth  : BitVec 2 := 0
  muxEn      : BitVec 1 := 0
  burstEn    : BitVec 1 := 0
  waitPol    : BitVec 1 := 0
  waitCfg    : BitVec 1 := 0
  writeEn    : BitVec 1 := 0
  waitEn     : BitVec 1 := 0
  extMode    : BitVec 1 := 0
  asyncWait  : BitVec 1 := 0
  writeBurst : BitVec 1 := 0
  pageSize   : BitVec 3 := 0
  wrapMode   : BitVec 1 := 0
  deriving DecidableEq, Repr, Inhabited

/-- The NOR/SRAM timing record (R34). `clkDiv` and `dataLatency` are the 5-bit value ports. -/
structure NorTiming where
  addrSetup     : BitVec 4 := 0
  addrHold      : BitVec 4 := 0
  dataSetup     : BitVec 8 := 0
  busTurnaround : BitVec 4 := 0
  clkDiv        : BitVec 5 := 0
  dataLatency   : BitVec 5 := 0
  accessMode    : BitVec 2 := 0
  deriving DecidableEq, Repr, Inhabited

/-- The fields of the timing record that enter the write-timing word
(40_norsram_configurator.md R125: no clock divisor, no data latency). -/
structure NorWriteTiming where
  addrSetup     : BitVec 4 := 0
  addrHold      : BitVec 4 := 0
  dataSetup     : BitVec 8 := 0
  busTurnaround : BitVec 4 := 0
  accessMode    : BitVec 2 := 0
  deriving DecidableEq, Repr, Inhabited

/-- One NOR entry record (R32). -/
structure NorEntry where
  bankIdx       : BitVec 3 := 0
  ctrlPresent   : Bool := false
  timingPresent : Bool := false
  ctrl          : NorCtrl := {}
  timing        : NorTiming := {}
  deriving DecidableEq, Repr, Inhabited

/-- The SDRAM control record (R36). -/
structure SdramCtrl where
  noColumns   : BitVec 2 := 0
  noRows      : BitVec 2 := 0
  memoryWidth : BitVec 2 := 0
  noBanks     : BitVec 1 := 0
  casLatency  : BitVec 2 := 0
  sdclk       : BitVec 2 := 0
  rdBurst     : BitVec 1 := 0
  rdPipeDelay : BitVec 2 := 0
  deriving DecidableEq, Repr, Inhabited

/-- The fields of the control record that enter the reduced control word
(41_sdram_encoder.md R151: no divisor, read-pipe or read-burst field). -/
structure SdramReduced where
  noColumns   : BitVec 2 := 0
  noRows      : BitVec 2 := 0
  memoryWidth : BitVec 2 := 0
  noBanks     : BitVec 1 := 0
  casLatency  : BitVec 2 := 0
  deriving DecidableEq, Repr, Inhabited

/-- The SDRAM timing record (R36), every field in cycles minus one. -/
structure SdramTiming where
  tmrd : BitVec 4 := 0
  txsr : BitVec 4 := 0
  tras : BitVec 4 := 0
  trc  : BitVec 4 := 0
  twr  : BitVec 4 := 0
  trp  : BitVec 4 := 0
  trcd : BitVec 4 := 0
  deriving DecidableEq, Repr, Inhabited

/-- One SDRAM entry record (R35, R37). -/
structure SdEntry where
  slot          : Slot := .slot1
  ctrlPresent   : Bool := false
  timingPresent : Bool := false
  refPresent    : Bool := false
  ctrl          : SdramCtrl := {}
  timing        : SdramTiming := {}
  refCount      : Word := 0
  deriving DecidableEq, Repr, Inhabited

/-- Every configuration input (R30 to R37); `cfg` (R29) is a copy of this record. -/
structure Cfg where
  base     : Word := 0
  family   : BitVec 2 := 0
  norCount : BitVec 3 := 0
  nor0     : NorEntry := {}
  nor1     : NorEntry := {}
  nor2     : NorEntry := {}
  nor3     : NorEntry := {}
  sdCount  : BitVec 2 := 0
  sd0      : SdEntry := {}
  sd1      : SdEntry := {}
  deriving DecidableEq, Repr, Inhabited

/-- What HOST drives in one clock cycle: reset (70_reset_and_hazards.md R250), the two strobes
(R26) and the configuration inputs (R29). -/
structure HostPins where
  rst        : Bool := false
  startNor   : Bool := false
  startSdram : Bool := false
  cfg        : Cfg := {}
  deriving DecidableEq, Repr, Inhabited

/-- What CTRL drives in one clock cycle in which a transaction is requested (20_memory.md R70). -/
structure BusReply where
  ack   : Bool := false
  rdata : Word := 0
  deriving DecidableEq, Repr, Inhabited

/-- A register of the controller block that the sequencer reaches (20_memory.md R80);
`bcr b` is the register BCR(b+1) of bank index `b`. -/
inductive Reg where
  | bcr (b : BitVec 2)
  | btr (b : BitVec 2)
  | bwtr (b : BitVec 2)
  | sdcr1
  | sdcr2
  | sdtr1
  | sdtr2
  | sdcmr
  | sdrtr
  | sdsr
  deriving DecidableEq, Repr, Inhabited

/-- A trace element with its operands: one constructor per row of opcode_table.json. The operands
are those its state rule names, so far as the element's data word carries them (log 1, log 25). -/
inductive Instr where
  /-- R130: read the bank's control register. -/
  | norRdBcr (b : BitVec 2)
  /-- R131: control word, enable bit clear; `pres` is `rmw & NOR_PRESERVE_MASK` (R126). -/
  | norWrBcr (b : BitVec 2) (c : NorCtrl) (pres : Word)
  /-- R132: read-timing word. -/
  | norWrBtr (b : BitVec 2) (t : NorTiming)
  /-- R133: write-timing word. -/
  | norWrBwtr (b : BitVec 2) (t : NorWriteTiming)
  /-- R134: control word, enable bit set. -/
  | norWrBcrEn (b : BitVec 2) (c : NorCtrl) (pres : Word)
  /-- R211: the gate's first read of BCR1. -/
  | gateRdOff
  /-- R212: BCR1 with FMCEN = 0; `kept` is `rmw[30:0]`. -/
  | gateWrOff (kept : BitVec 31)
  /-- R174: full control word to SDCR1. -/
  | sdWrSdcr1 (c : SdramCtrl)
  /-- R175: reduced control word to SDCR2. -/
  | sdWrSdcr2 (c : SdramReduced)
  /-- R176: timing word to SDTR1. -/
  | sdWrSdtr1 (t : SdramTiming)
  /-- R177: timing word to SDTR2. -/
  | sdWrSdtr2 (t : SdramTiming)
  /-- R178, k = 0. -/
  | cmdStartClock (slot : Slot)
  /-- R178, k = 1. -/
  | cmdPrecharge (slot : Slot)
  /-- R178, k = 2. -/
  | cmdAutoRefresh (slot : Slot)
  /-- R178, k = 3. -/
  | cmdWriteMode (slot : Slot) (cas : BitVec 2)
  /-- R178, k = 4. -/
  | cmdNormal (slot : Slot)
  /-- R179: the minimum delay of `us` microseconds. -/
  | delay (us : Nat)
  /-- R180: the barrier before a poll. -/
  | barrier
  /-- R181: one read of the status register. -/
  | sdRdSdsr
  /-- R183: refresh-timer word; `ref` is `ref_count[30:0]`, all the word holds of it (R157). -/
  | sdWrSdrtr (ref : BitVec 31)
  /-- R213: the gate's second read of BCR1. -/
  | gateRdOn
  /-- R214: BCR1 with FMCEN = 1; `kept` is `rmw[30:0]`. -/
  | gateWrOn (kept : BitVec 31)
  deriving DecidableEq, Repr, Inhabited

/-- An element of a trace in the syntax of 30_encoding.md R100, with the byte address the bus
transaction carries. -/
inductive TraceElem where
  | wr (reg : Reg) (addr data : Word)
  | rd (reg : Reg) (addr answer : Word)
  | delay (us : Nat)
  | barrier
  deriving DecidableEq, Repr, Inhabited

end Sys2Proof
end

