-- ==== Sys2Proof/Config.lean ====
section
/-! DEFINITION. What the spec leaves open or lets an implementation fix. An `opaque` constant is a
free value: no proof can know it, so a claim holds whatever it is. -/

namespace Sys2Proof

/-- Free value: CYCLES_PER_US less one (00_scope.md R8: OPEN, no default; log 7). -/
opaque Config.cyclesPerUsPred : Nat

/-- CYCLES_PER_US after reset: a positive natural and nothing else is known of it (R8; log 7). -/
def Config.cyclesPerUs : Nat := Config.cyclesPerUsPred + 1

/-- POLL_TIMEOUT after reset: the default of R8. -/
def Config.pollTimeout : Nat := 0

/-- Free value: what HOST drives in cycle `n` where the state's script does not say (log 2). -/
opaque Config.freeHost : Nat → HostPins

/-- Free value: what CTRL drives in cycle `n` where the state's script does not say: "an arbitrary
function of the run's history" (60_exceptions.md R230; 93_implementation_defined.md U8, U9, U20;
log 3). -/
opaque Config.freeReply : List TraceElem → Nat → BusReply

/-- Free value: what byte `a` of the controller's registers holds in era `e` where the sequencer has not
written it: "arbitrary 32-bit values" (10_state.md R52; 93_implementation_defined.md U10, U11;
log 4). -/
opaque Config.freeByte (e a : Nat) : Byte

end Sys2Proof
end

