-- ==== Sys2Proof/WellFormed.lean ====
section
/-! DEFINITION. The trace elements the sequencer can emit, as a check on their operands. -/

namespace Sys2Proof

/-- NOR_WRITABLE_MASK (00_scope.md R7; 90_conflicts.md C9). -/
def norWritableMask : Word := 0x00FFFF7F

/-- The clock divisors and data latencies validation lets through (40_norsram_configurator.md R122,
R123, R137 items 5 and 6). -/
def NorTiming.inRange (t : NorTiming) : Bool :=
  1 ≤ t.clkDiv.toNat && t.clkDiv.toNat ≤ 16 && 2 ≤ t.dataLatency.toNat && t.dataLatency.toNat ≤ 17

/-- The elements the sequencer can emit: preserved bits lie in NOR_PRESERVE_MASK (R126), timings are
in range (R137), a delay is 200 or 100 microseconds (30_encoding.md R97). -/
def Instr.wellFormed : Instr → Bool
  | .norRdBcr _ => true
  | .norWrBcr _ _ pres => pres &&& norWritableMask == 0
  | .norWrBtr _ t => t.inRange
  | .norWrBwtr _ _ => true
  | .norWrBcrEn _ _ pres => pres &&& norWritableMask == 0
  | .gateRdOff => true
  | .gateWrOff _ => true
  | .sdWrSdcr1 _ => true
  | .sdWrSdcr2 _ => true
  | .sdWrSdtr1 _ => true
  | .sdWrSdtr2 _ => true
  | .cmdStartClock _ => true
  | .cmdPrecharge _ => true
  | .cmdAutoRefresh _ => true
  | .cmdWriteMode _ _ => true
  | .cmdNormal _ => true
  | .delay us => us == 200 || us == 100
  | .barrier => true
  | .sdRdSdsr => true
  | .sdWrSdrtr _ => true
  | .gateRdOn => true
  | .gateWrOn _ => true

end Sys2Proof
end

