-- ==== Sys2Proof/Decode.lean ====
section
/-! DEFINITION. The register map, the register-field encoder (40_norsram_configurator.md,
41_sdram_encoder.md), the trace decoder of 30_encoding.md R104 and the encoder it inverts.

Offsets, shifts, masks and codes are "from general knowledge" in the spec (93 Part 2) and stand here
as named definitions, each in one place. -/

namespace Sys2Proof

/-! ### Masks and the register map -/

/-- NOR_PRESERVE_MASK = ~NOR_WRITABLE_MASK (00_scope.md R7; 90_conflicts.md C9). -/
def norPreserveMask : Word := 0xFF000080

/-- MBKEN, bit 0 of a BCR word (R7). -/
def mbken : Word := 0x00000001

/-- FMCEN, bit 31 of BCR1 (R7). -/
def fmcen : Word := 0x80000000

/-- Byte offset of a register from `base` (20_memory.md R80, R81). -/
def Reg.offset : Reg → Word
  | .bcr b => 8 * zext b
  | .btr b => 8 * zext b + 4
  | .bwtr b => 0x104 + 8 * zext b
  | .sdcr1 => 0x140
  | .sdcr2 => 0x144
  | .sdtr1 => 0x148
  | .sdtr2 => 0x14C
  | .sdcmr => 0x150
  | .sdrtr => 0x154
  | .sdsr => 0x158

/-- Every register of R80. -/
def Reg.all : List Reg :=
  [.bcr 0, .bcr 1, .bcr 2, .bcr 3, .btr 0, .btr 1, .btr 2, .btr 3,
    .bwtr 0, .bwtr 1, .bwtr 2, .bwtr 3] ++
  [.sdcr1, .sdcr2, .sdtr1, .sdtr2, .sdcmr, .sdrtr, .sdsr]

/-- The register at an offset, none at an offset outside R80. -/
def Reg.ofOffset (off : Word) : Option Reg := Reg.all.find? fun r => r.offset == off

/-! ### The field encoder -/

/-- `field(v, shift, width)` of 00_scope.md R12. -/
def field (v : Word) (shift width : Nat) : Word := (v &&& (BitVec.ofNat 32 (2 ^ width - 1))) <<< shift

/-- `v[lo + len - 1 : lo]` of R10. -/
def bitsAt (v : Word) (lo len : Nat) : BitVec len := v.extractLsb' lo len

/-- R120: 1 iff the memory type is NOR (code 2). -/
def faccen (c : NorCtrl) : BitVec 1 := if c.memType = 2 then 1 else 0

/-- R121: the NOR/SRAM control word without the enable bit. -/
def ctrlWord (c : NorCtrl) : Word :=
  field (zext (faccen c)) 6 1 ||| field (zext c.muxEn) 1 1 ||| field (zext c.memType) 2 2 |||
  field (zext c.dataWidth) 4 2 ||| field (zext c.burstEn) 8 1 ||| field (zext c.waitPol) 9 1 |||
  field (zext c.waitCfg) 11 1 ||| field (zext c.writeEn) 12 1 ||| field (zext c.waitEn) 13 1 |||
  field (zext c.extMode) 14 1 ||| field (zext c.asyncWait) 15 1 |||
  field (zext c.writeBurst) 19 1 ||| field (zext c.pageSize) 16 3 ||| field (zext c.wrapMode) 10 1

/-- R122: CLKDIV, computed on the 5-bit input. -/
def clkdivField (t : NorTiming) : BitVec 5 := t.clkDiv - 1

/-- R123: DATLAT, computed on the 5-bit input. -/
def datlatField (t : NorTiming) : BitVec 5 := t.dataLatency - 2

/-- R124: the read-timing word. -/
def btrWord (t : NorTiming) : Word :=
  field (zext t.addrSetup) 0 4 ||| field (zext t.addrHold) 4 4 ||| field (zext t.dataSetup) 8 8 |||
  field (zext t.busTurnaround) 16 4 ||| field (zext (clkdivField t)) 20 4 |||
  field (zext (datlatField t)) 24 4 ||| field (zext t.accessMode) 28 2

/-- The fields of a timing record that the write-timing word takes (R125). -/
def NorTiming.toWrite (t : NorTiming) : NorWriteTiming :=
  { addrSetup := t.addrSetup, addrHold := t.addrHold, dataSetup := t.dataSetup,
    busTurnaround := t.busTurnaround, accessMode := t.accessMode }

/-- R125: the write-timing word. -/
def bwtrWord (t : NorWriteTiming) : Word :=
  field (zext t.addrSetup) 0 4 ||| field (zext t.addrHold) 4 4 ||| field (zext t.dataSetup) 8 8 |||
  field (zext t.busTurnaround) 16 4 ||| field (zext t.accessMode) 28 2

/-- R150: the full SDRAM control word. -/
def sdcrFull (c : SdramCtrl) : Word :=
  field (zext c.sdclk) 10 2 ||| field (zext c.casLatency) 7 2 ||| field (zext c.noBanks) 6 1 |||
  field (zext c.memoryWidth) 4 2 ||| field (zext c.noRows) 2 2 ||| field (zext c.noColumns) 0 2 |||
  field (zext c.rdPipeDelay) 13 2 ||| field (zext c.rdBurst) 12 1

/-- The fields of a control record that the reduced control word takes (R151). -/
def SdramCtrl.toReduced (c : SdramCtrl) : SdramReduced :=
  { noColumns := c.noColumns, noRows := c.noRows, memoryWidth := c.memoryWidth,
    noBanks := c.noBanks, casLatency := c.casLatency }

/-- R151: the reduced SDRAM control word. -/
def sdcrReduced (c : SdramReduced) : Word :=
  field (zext c.casLatency) 7 2 ||| field (zext c.noBanks) 6 1 ||| field (zext c.memoryWidth) 4 2 |||
  field (zext c.noRows) 2 2 ||| field (zext c.noColumns) 0 2

/-- R152: the SDRAM timing word. -/
def sdtrWord (t : SdramTiming) : Word :=
  field (zext t.trcd) 24 4 ||| field (zext t.trp) 20 4 ||| field (zext t.twr) 16 4 |||
  field (zext t.trc) 12 4 ||| field (zext t.tras) 8 4 ||| field (zext t.txsr) 4 4 |||
  field (zext t.tmrd) 0 4

/-- SDRAM_MODE_BL (R7): the burst-length field of the mode-register payload. -/
def sdramModeBl : Word := 0

/-- NRFS_CONST (R7, R155). -/
def nrfsConst : Word := 7

/-- R153: the mode-register payload. -/
def modePayload (cas : BitVec 2) : Word := field sdramModeBl 0 3 ||| field (zext cas) 4 3

/-- R98: the command-target bits of a slot. -/
def ctb : Slot → Word
  | .slot1 => 0x10
  | .slot2 => 0x08

/-- R97: the MODE code of command `k`; none past the fifth command. -/
def modeCode : Nat → Option Word
  | 0 => some 1
  | 1 => some 2
  | 2 => some 3
  | 3 => some 4
  | 4 => some 0
  | _ => none

/-- R97: the minimum delay of command `k` in microseconds. -/
def delayUs : Nat → Nat
  | 0 => 200
  | 1 => 100
  | 2 => 100
  | 3 => 100
  | _ => 0

/-- R154: the SDCMR word of command `k`; the last two fields appear in commands 2 and 3 only. -/
def cmdWord (k : Nat) (slot : Slot) (cas : BitVec 2) : Word :=
  ctb slot ||| (modeCode k).getD 0 ||| (if k = 2 then field nrfsConst 5 4 else 0) |||
  (if k = 3 then field (modePayload cas) 9 13 else 0)

/-- R157: the refresh-timer word, `(ref << 1) mod 2^32`. -/
def sdrtrWord (ref : Word) : Word := ref <<< 1

/-! ### The bus transaction of an element -/

/-- A bus transaction without its base: direction, register, and the data of a write (R70 to R73). -/
structure Txn where
  we   : Bool
  reg  : Reg
  data : Word
  deriving DecidableEq, Repr

/-- What an element is: one bus transaction, a delay or the barrier (R90). -/
inductive Action where
  | bus (t : Txn)
  | delay (us : Nat)
  | barrier
  deriving DecidableEq, Repr

def Action.read (r : Reg) : Action := .bus { we := false, reg := r, data := 0 }

def Action.write (r : Reg) (w : Word) : Action := .bus { we := true, reg := r, data := w }

/-- The action of each element, its data word formed as R91 to R93 say. -/
def Instr.action : Instr → Action
  | .norRdBcr b => Action.read (.bcr b)
  | .norWrBcr b c pres => Action.write (.bcr b) (pres ||| ctrlWord c)
  | .norWrBtr b t => Action.write (.btr b) (btrWord t)
  | .norWrBwtr b t => Action.write (.bwtr b) (bwtrWord t)
  | .norWrBcrEn b c pres => Action.write (.bcr b) (pres ||| ctrlWord c ||| mbken)
  | .gateRdOff => Action.read (.bcr 0)
  | .gateWrOff kept => Action.write (.bcr 0) (zext kept)
  | .sdWrSdcr1 c => Action.write .sdcr1 (sdcrFull c)
  | .sdWrSdcr2 c => Action.write .sdcr2 (sdcrReduced c)
  | .sdWrSdtr1 t => Action.write .sdtr1 (sdtrWord t)
  | .sdWrSdtr2 t => Action.write .sdtr2 (sdtrWord t)
  | .cmdStartClock slot => Action.write .sdcmr (cmdWord 0 slot 0)
  | .cmdPrecharge slot => Action.write .sdcmr (cmdWord 1 slot 0)
  | .cmdAutoRefresh slot => Action.write .sdcmr (cmdWord 2 slot 0)
  | .cmdWriteMode slot cas => Action.write .sdcmr (cmdWord 3 slot cas)
  | .cmdNormal slot => Action.write .sdcmr (cmdWord 4 slot 0)
  | .delay us => .delay us
  | .barrier => .barrier
  | .sdRdSdsr => Action.read .sdsr
  | .sdWrSdrtr ref => Action.write .sdrtr (sdrtrWord (zext ref))
  | .gateRdOn => Action.read (.bcr 0)
  | .gateWrOn kept => Action.write (.bcr 0) (zext kept ||| fmcen)

/-- The entry point whose runs emit an element (R104). -/
def Instr.entry : Instr → Entry
  | .norRdBcr _ => .nor
  | .norWrBcr _ _ _ => .nor
  | .norWrBtr _ _ => .nor
  | .norWrBwtr _ _ => .nor
  | .norWrBcrEn _ _ _ => .nor
  | .gateRdOff => .sdram
  | .gateWrOff _ => .sdram
  | .sdWrSdcr1 _ => .sdram
  | .sdWrSdcr2 _ => .sdram
  | .sdWrSdtr1 _ => .sdram
  | .sdWrSdtr2 _ => .sdram
  | .cmdStartClock _ => .sdram
  | .cmdPrecharge _ => .sdram
  | .cmdAutoRefresh _ => .sdram
  | .cmdWriteMode _ _ => .sdram
  | .cmdNormal _ => .sdram
  | .delay _ => .sdram
  | .barrier => .sdram
  | .sdRdSdsr => .sdram
  | .sdWrSdrtr _ => .sdram
  | .gateRdOn => .sdram
  | .gateWrOn _ => .sdram

/-! ### The opcode table -/

/-- Mask and match of an element's row in opcode_table.json (R105); 0 and 0 where the row fixes no
bit (the reads, DELAY and BARRIER). -/
def Instr.rowMask : Instr → Word × Word
  | .norRdBcr _ => (0, 0)
  | .norWrBcr _ _ _ => (0x00F00001, 0x00000000)
  | .norWrBtr _ _ => (0xC0000000, 0x00000000)
  | .norWrBwtr _ _ => (0xCFF00000, 0x00000000)
  | .norWrBcrEn _ _ _ => (0x00F00001, 0x00000001)
  | .gateRdOff => (0, 0)
  | .gateWrOff _ => (0x80000000, 0x00000000)
  | .sdWrSdcr1 _ => (0xFFFF8200, 0x00000000)
  | .sdWrSdcr2 _ => (0xFFFFFE00, 0x00000000)
  | .sdWrSdtr1 _ => (0xF0000000, 0x00000000)
  | .sdWrSdtr2 _ => (0xF0000000, 0x00000000)
  | .cmdStartClock _ => (0xFFFFFFE7, 0x00000001)
  | .cmdPrecharge _ => (0xFFFFFFE7, 0x00000002)
  | .cmdAutoRefresh _ => (0xFFFFFFE7, 0x000000E3)
  | .cmdWriteMode _ _ => (0xFFFF9FE7, 0x00000004)
  | .cmdNormal _ => (0xFFFFFFE7, 0x00000000)
  | .delay _ => (0, 0)
  | .barrier => (0, 0)
  | .sdRdSdsr => (0, 0)
  | .sdWrSdrtr _ => (0x00000001, 0x00000000)
  | .gateRdOn => (0, 0)
  | .gateWrOn _ => (0x80000000, 0x80000000)

/-! ### The trace decoder

A trace element is written as two 32-bit words (log 9). The first is the data word on the bus (the
answer, for a read; the microseconds, for a delay). The second holds what R104 classifies by:

| bits | meaning |
|---|---|
| 15:0 | byte offset of the register (R80); 0 for DELAY and BARRIER |
| 17:16 | kind, in the order of R90: 0 WR, 1 RD, 2 DELAY, 3 BARRIER |
| 18 | entry of the run (R22): 0 NOR, 1 SDRAM |
| 19 | 1 on the second of the gate's two reads (log 10), else 0 |
| 31:20 | 0 |
-/

/-- A trace element as two words. -/
structure Code where
  data : Word
  ctx  : Word
  deriving DecidableEq, Repr

/-- Why a code is refused: no element the sequencer emits has it (R104). -/
inductive Reject where
  /-- fewer than eight bytes are left -/
  | truncated
  /-- bits 31:20 of the second word, or bit 19 outside a gate read, are not 0 -/
  | reservedContext
  /-- no register of R80 lies at the offset -/
  | unknownRegister
  /-- this entry never writes this register (R51, R104) -/
  | neverWritten
  /-- this entry never reads this register (R51, R104) -/
  | neverRead
  /-- a bit that every word of the row fixes has the other value (R105) -/
  | fixedBits
  /-- FACCEN differs from (MTYP = NOR), which every written BCR word keeps (R120) -/
  | flashAccess
  /-- both command-target bits are set, or neither (R98, R102) -/
  | commandTarget
  /-- MODE is 5, 6 or 7 (R102) -/
  | commandMode
  /-- a delay other than 200 or 100 microseconds (R97), or with an offset or the NOR entry -/
  | badDelay
  /-- a barrier with data, an offset or the NOR entry -/
  | badBarrier
  deriving DecidableEq, Repr

/-- The second word of a code. -/
def contextWord (kind : Word) (ent : Entry) (off : Word) (second : Bool) : Word :=
  off ||| kind <<< 16 ||| (match ent with | .nor => 0 | .sdram => 0x00040000) |||
  (if second then 0x00080000 else 0)

/-- The fields of a BCR word (R41). -/
def ctrlOfWord (w : Word) : NorCtrl :=
  { memType := bitsAt w 2 2, dataWidth := bitsAt w 4 2, muxEn := bitsAt w 1 1,
    burstEn := bitsAt w 8 1, waitPol := bitsAt w 9 1, waitCfg := bitsAt w 11 1,
    writeEn := bitsAt w 12 1, waitEn := bitsAt w 13 1, extMode := bitsAt w 14 1,
    asyncWait := bitsAt w 15 1, writeBurst := bitsAt w 19 1, pageSize := bitsAt w 16 3,
    wrapMode := bitsAt w 10 1 }

/-- The fields of a BTR word (R43), the divisor and the latency as the values they stand for. -/
def timingOfWord (w : Word) : NorTiming :=
  { addrSetup := bitsAt w 0 4, addrHold := bitsAt w 4 4, dataSetup := bitsAt w 8 8,
    busTurnaround := bitsAt w 16 4, clkDiv := (bitsAt w 20 4).setWidth 5 + 1,
    dataLatency := (bitsAt w 24 4).setWidth 5 + 2, accessMode := bitsAt w 28 2 }

/-- The fields of a BWTR word (R44). -/
def writeTimingOfWord (w : Word) : NorWriteTiming :=
  { addrSetup := bitsAt w 0 4, addrHold := bitsAt w 4 4, dataSetup := bitsAt w 8 8,
    busTurnaround := bitsAt w 16 4, accessMode := bitsAt w 28 2 }

/-- The fields of an SDCR1 word (R45). -/
def sdramCtrlOfWord (w : Word) : SdramCtrl :=
  { noColumns := bitsAt w 0 2, noRows := bitsAt w 2 2, memoryWidth := bitsAt w 4 2,
    noBanks := bitsAt w 6 1, casLatency := bitsAt w 7 2, sdclk := bitsAt w 10 2,
    rdBurst := bitsAt w 12 1, rdPipeDelay := bitsAt w 13 2 }

/-- The fields of an SDTR word (R46). -/
def sdramTimingOfWord (w : Word) : SdramTiming :=
  { tmrd := bitsAt w 0 4, txsr := bitsAt w 4 4, tras := bitsAt w 8 4, trc := bitsAt w 12 4,
    twr := bitsAt w 16 4, trp := bitsAt w 20 4, trcd := bitsAt w 24 4 }

/-- A BCR write of a NOR run: bit 0 tells the two rows apart (R104, R105). -/
def decodeBcr (b : BitVec 2) (w : Word) : Except Reject Instr :=
  if w &&& 0x00F00000 != 0 then .error .fixedBits
  else if bitsAt w 6 1 != faccen (ctrlOfWord w) then .error .flashAccess
  else if bitsAt w 0 1 = 0 then .ok (.norWrBcr b (ctrlOfWord w) (w &&& norPreserveMask))
  else .ok (.norWrBcrEn b (ctrlOfWord w) (w &&& norPreserveMask))

/-- A BCR1 write of an SDRAM run: bit 31 tells the gate's two rows apart (R104, R105). -/
def decodeGate (w : Word) : Instr :=
  if bitsAt w 31 1 = 0 then .gateWrOff (bitsAt w 0 31) else .gateWrOn (bitsAt w 0 31)

/-- The slot of a command word: exactly one target bit (R98). -/
def targetOfWord (w : Word) : Except Reject Slot :=
  if bitsAt w 3 2 = 2 then .ok .slot1
  else if bitsAt w 3 2 = 1 then .ok .slot2
  else .error .commandTarget

/-- An SDCMR write: MODE selects the row (R97), and every bit the row fixes must hold (R105). -/
def decodeCmd (w : Word) : Except Reject Instr :=
  match targetOfWord w with
  | .error e => .error e
  | .ok slot =>
    if w &&& 0xFFFFFFE7 = 0x00000001 then .ok (.cmdStartClock slot)
    else if w &&& 0xFFFFFFE7 = 0x00000002 then .ok (.cmdPrecharge slot)
    else if w &&& 0xFFFFFFE7 = 0x000000E3 then .ok (.cmdAutoRefresh slot)
    else if w &&& 0xFFFF9FE7 = 0x00000004 then .ok (.cmdWriteMode slot (bitsAt w 13 2))
    else if w &&& 0xFFFFFFE7 = 0x00000000 then .ok (.cmdNormal slot)
    else if 5 ≤ (bitsAt w 0 3).toNat then .error .commandMode
    else .error .fixedBits

/-- An element whose row fixes the bits of `mask` at 0. -/
def zeroIn (mask w : Word) (i : Instr) : Except Reject Instr :=
  if w &&& mask = 0 then .ok i else .error .fixedBits

/-- A write, by entry and register (R104). -/
def decodeWrite (ent : Entry) (r : Reg) (w : Word) : Except Reject Instr :=
  match ent, r with
  | .nor, .bcr b => decodeBcr b w
  | .nor, .btr b => zeroIn 0xC0000000 w (.norWrBtr b (timingOfWord w))
  | .nor, .bwtr b => zeroIn 0xCFF00000 w (.norWrBwtr b (writeTimingOfWord w))
  | .sdram, .bcr b => if b = 0 then .ok (decodeGate w) else .error .neverWritten
  | .sdram, .sdcr1 => zeroIn 0xFFFF8200 w (.sdWrSdcr1 (sdramCtrlOfWord w))
  | .sdram, .sdcr2 => zeroIn 0xFFFFFE00 w (.sdWrSdcr2 (sdramCtrlOfWord w).toReduced)
  | .sdram, .sdtr1 => zeroIn 0xF0000000 w (.sdWrSdtr1 (sdramTimingOfWord w))
  | .sdram, .sdtr2 => zeroIn 0xF0000000 w (.sdWrSdtr2 (sdramTimingOfWord w))
  | .sdram, .sdcmr => decodeCmd w
  | .sdram, .sdrtr => zeroIn 0x00000001 w (.sdWrSdrtr (bitsAt w 1 31))
  | .nor, .sdcr1 => .error .neverWritten
  | .nor, .sdcr2 => .error .neverWritten
  | .nor, .sdtr1 => .error .neverWritten
  | .nor, .sdtr2 => .error .neverWritten
  | .nor, .sdcmr => .error .neverWritten
  | .nor, .sdrtr => .error .neverWritten
  | .nor, .sdsr => .error .neverWritten
  | .sdram, .btr _ => .error .neverWritten
  | .sdram, .bwtr _ => .error .neverWritten
  | .sdram, .sdsr => .error .neverWritten

/-- A read, by entry and register (R104); the answer is CTRL's, not an operand (R72). `second` tells
the gate's two reads apart (log 10). -/
def decodeRead (ent : Entry) (r : Reg) (second : Bool) : Except Reject Instr :=
  match ent, r with
  | .nor, .bcr b => if second then .error .reservedContext else .ok (.norRdBcr b)
  | .sdram, .sdsr => if second then .error .reservedContext else .ok .sdRdSdsr
  | .sdram, .bcr b =>
    if b = 0 then .ok (if second then .gateRdOn else .gateRdOff) else .error .neverRead
  | .nor, .btr _ => .error .neverRead
  | .nor, .bwtr _ => .error .neverRead
  | .nor, .sdcr1 => .error .neverRead
  | .nor, .sdcr2 => .error .neverRead
  | .nor, .sdtr1 => .error .neverRead
  | .nor, .sdtr2 => .error .neverRead
  | .nor, .sdcmr => .error .neverRead
  | .nor, .sdrtr => .error .neverRead
  | .nor, .sdsr => .error .neverRead
  | .sdram, .btr _ => .error .neverRead
  | .sdram, .bwtr _ => .error .neverRead
  | .sdram, .sdcr1 => .error .neverRead
  | .sdram, .sdcr2 => .error .neverRead
  | .sdram, .sdtr1 => .error .neverRead
  | .sdram, .sdtr2 => .error .neverRead
  | .sdram, .sdcmr => .error .neverRead
  | .sdram, .sdrtr => .error .neverRead

/-- The entry of a code's second word. -/
def Code.entry (c : Code) : Entry := if bitsAt c.ctx 18 1 = 0 then .nor else .sdram

/-- Whether a code's second word marks the gate's second read. -/
def Code.second (c : Code) : Bool := bitsAt c.ctx 19 1 != 0

/-- The register a code's second word names. -/
def Code.reg (c : Code) : Except Reject Reg :=
  match Reg.ofOffset (zext (bitsAt c.ctx 0 16)) with
  | some r => .ok r
  | none => .error .unknownRegister

/-- The trace decoder of R104 on two words. -/
def decodeCode (c : Code) : Except Reject Instr :=
  if bitsAt c.ctx 20 12 != 0 then .error .reservedContext
  else if bitsAt c.ctx 16 2 = 0 then
    if c.second then .error .reservedContext
    else match c.reg with
      | .error e => .error e
      | .ok r => decodeWrite c.entry r c.data
  else if bitsAt c.ctx 16 2 = 1 then
    match c.reg with
    | .error e => .error e
    | .ok r => decodeRead c.entry r c.second
  else if bitsAt c.ctx 16 2 = 2 then
    if c.ctx = contextWord 2 .sdram 0 false && (c.data == 200 || c.data == 100)
    then .ok (.delay c.data.toNat) else .error .badDelay
  else if c.ctx = contextWord 3 .sdram 0 false && c.data == 0 then .ok .barrier
  else .error .badBarrier

/-- A 32-bit word from four bytes, the least significant first (20_memory.md R75). -/
def wordOfBytes (b0 b1 b2 b3 : Byte) : Word :=
  zext b0 ||| zext b1 <<< 8 ||| zext b2 <<< 16 ||| zext b3 <<< 24

/-- Byte `n` of a word: bits `8n+7 : 8n` (R75). -/
def byteOf (w : Word) (n : Nat) : Byte := w.extractLsb' (8 * n) 8

/-- The four bytes of a word, the least significant first (R75). -/
def bytesOfWord (w : Word) : List Byte := [byteOf w 0, byteOf w 1, byteOf w 2, byteOf w 3]

/-- Decode one element from the front of any bytes; the rest of them comes back. -/
def decode : List Byte → Except Reject (Instr × List Byte)
  | b0 :: b1 :: b2 :: b3 :: b4 :: b5 :: b6 :: b7 :: rest =>
    match decodeCode { data := wordOfBytes b0 b1 b2 b3, ctx := wordOfBytes b4 b5 b6 b7 } with
    | .ok i => .ok (i, rest)
    | .error e => .error e
  | _ => .error .truncated

/-! ### The encoder -/

/-- The two words of an element. The data word of a read, which is CTRL's to give, is 0 here. -/
def encodeCode (i : Instr) : Code :=
  match i.action with
  | .bus t =>
    { data := t.data,
      ctx := contextWord (if t.we then 0 else 1) i.entry t.reg.offset (i == .gateRdOn) }
  | .delay us => { data := BitVec.ofNat 32 us, ctx := contextWord 2 i.entry 0 false }
  | .barrier => { data := 0, ctx := contextWord 3 i.entry 0 false }

/-- The eight bytes of an element. -/
def encode (i : Instr) : List Byte :=
  bytesOfWord (encodeCode i).data ++ bytesOfWord (encodeCode i).ctx

/-- The `n` low bytes of a number, the least significant first. -/
def bytesOfNat : Nat → Nat → List Byte
  | 0, _ => []
  | n + 1, w => BitVec.ofNat 8 w :: bytesOfNat n (w / 256)

/-- The element an opcode-table word stands for: the bits above `nbits` are 0, so the second word
says a write of a NOR run to BCR1 (log 11). -/
def decodeTableWord (nbits w : Nat) : Option Instr :=
  match decode (bytesOfNat 8 (w % 2 ^ nbits)) with
  | .ok (i, _) => some i
  | .error _ => none

end Sys2Proof
end

