-- ==== Sys2Proof/Machine/State.lean ====
section
/-! DEFINITION. The state of the machine: the registers of the sequencer (10_state.md R21 to R40), the
register block as its writes left it, the elaboration parameters, the inputs to come, and reset. -/

namespace Sys2Proof.Machine

/-- The states of the FSM (10_state.md R21). -/
inductive Fsm where
  | idle
  | validate
  | nRdBcr
  | nWrBcr
  | nWrBtr
  | nWrBwtr
  | nWrBcrEn
  | nNext
  | gRdOff
  | gWrOff
  | sWrSdcr1
  | sWrSdcr2
  | sWrSdtr1
  | sWrSdtr2
  | sWrCmd
  | sDelay
  | sBarrier
  | sPoll
  | sWrSdrtr
  | sNext
  | gRdOn
  | gWrOn
  | done
  | fatal
  deriving DecidableEq, Repr

/-- `err` (R28); the fourth value of the 2-bit register is never written and has no name (log 23). -/
inductive Err where
  | ok
  | einval
  | etimeout
  deriving DecidableEq, Repr

/-- The elaboration parameters (00_scope.md R8), constant in every step (log 7). -/
structure Params where
  cyclesPerUs : Nat
  pollTimeout : Nat
  deriving DecidableEq, Repr

/-- Inputs to come: the listed ones, then `rest` for ever if it is given, else free values
(log 2, log 3). -/
structure Script (α : Type) where
  items : List α
  rest  : Option α
  deriving DecidableEq, Repr

/-- The state of the machine. -/
structure State where
  /-- the FSM state register (R21) -/
  st     : Fsm
  /-- the entry of the current or last run (R22) -/
  ent    : Entry
  /-- the index of the current entry (R23) -/
  i      : BitVec 2
  /-- the index of the current SDRAM command (R23) -/
  k      : BitVec 3
  /-- the delay counter (R24, 60_exceptions.md R236; log 14) -/
  dcnt   : Nat
  /-- the poll counter (R25, R236; log 15) -/
  pcnt   : Nat
  /-- the read-modify-write latch (R40) -/
  rmw    : Word
  /-- the outcome register (R28) -/
  err    : Err
  /-- the configuration latch (R29) -/
  cfg    : Cfg
  /-- the bytes the sequencer's writes have put into the register block (20_memory.md R79), which holds
  free values elsewhere (10_state.md R52; log 4) -/
  mem    : List Host.Cell
  /-- the number of resets during a run, the counter of the block's free contents (log 4, log 16) -/
  era    : Nat
  /-- CYCLES_PER_US and POLL_TIMEOUT (00_scope.md R8; log 7) -/
  par    : Params
  /-- what HOST will drive, one record a clock cycle (log 2) -/
  hostIn : Script HostPins
  /-- what CTRL will drive, one record a cycle with a transaction requested (log 3) -/
  busIn  : Script BusReply
  /-- the number of the clock cycle, the counter of the free values (log 2) -/
  now    : Nat
  /-- the trace of the current or last run so far (30_encoding.md R100; log 8) -/
  trace  : List TraceElem
  deriving DecidableEq, Repr

/-- Why the machine stops. Each is raised only in a state no run reaches, where the spec defines no
operand for the FSM's next element (log 13): safe, since the machine of the spec is never there. -/
inductive Fault where
  /-- raised by the NOR states when the current entry's bank index is above 3, which validation
  excludes (40_norsram_configurator.md R137 item 3); safe -/
  | bankIndex
  /-- raised by the SDRAM states when `i` is above 1, which 10_state.md R23 excludes; safe -/
  | entryIndex
  /-- raised by S_WR_CMD when `k` is above 4, and by S_DELAY when command `k` has no delay, which
  10_state.md R23 and 42_sdram_sequencer.md R178 exclude; safe -/
  | commandIndex
  deriving DecidableEq, Repr

/-- Why an instruction has no meaning here. No arm of `exec` raises one: all 22 rows are modelled. -/
inductive Refusal where
  /-- an arm of `exec` that has no meaning yet, by its mnemonic; safe -/
  | notModelled (mnemonic : String)
  deriving DecidableEq, Repr

/-- A step of this machine. -/
abbrev Result := Host.Outcome State Fault Refusal

/-- The configuration latch after reset: 10_state.md R53 says "unspecified" (DESIGN CHOICE: every
field 0, log 6; unsafe). -/
def cfgAfterReset : Cfg := {}

/-- The machine right after reset (10_state.md R53, 70_reset_and_hazards.md R250, R251). -/
def State.reset : State :=
  { st := .idle, ent := .nor, i := 0, k := 0, dcnt := 0, pcnt := 0, rmw := 0, err := .ok,
    cfg := cfgAfterReset, mem := [], era := 0,
    par := { cyclesPerUs := Config.cyclesPerUs, pollTimeout := Config.pollTimeout },
    hostIn := { items := [], rest := none }, busIn := { items := [], rest := none },
    now := 0, trace := [] }

end Sys2Proof.Machine
end

