-- ==== Sys2Proof/Machine/Ops.lean ====
section
/-! DEFINITION. The named operations: bytes and words of the register block, the inputs of a cycle,
the two bus primitives (20_memory.md R70 to R73), and entering and leaving an outcome
(60_exceptions.md R229, R231). -/

namespace Sys2Proof.Machine

/-! ### The register block (20_memory.md R75, R79; log 4) -/

/-- The block holds addresses in strictly rising order, all in the 32-bit space (R79). A listed byte is
one the sequencer wrote; whether it equals the free value it replaced cannot be known (log 4). -/
def memWf : List Host.Cell → Bool
  | [] => true
  | (a, _) :: rest => decide (a < 2 ^ 32) && rest.head?.all (fun c => decide (a < c.1)) && memWf rest

/-- The byte the sequencer's writes have put at an address, none where they have put none. -/
def written (m : List Host.Cell) (a : Nat) : Option Byte :=
  match m with
  | [] => none
  | (b, y) :: rest => if a = b then some y else written rest a

/-- Write one byte, keeping the addresses in rising order. -/
def writeByte (m : List Host.Cell) (a : Nat) (x : Byte) : List Host.Cell :=
  match m with
  | [] => [(a, x)]
  | (b, y) :: rest =>
    if a < b then (a, x) :: (b, y) :: rest
    else if a = b then (a, x) :: rest
    else (b, y) :: writeByte rest a x

/-- The address of byte `n` of the word at `a` (R75). -/
def byteAddr (a : Word) (n : Nat) : Nat := (a + BitVec.ofNat 32 n).toNat

/-- Write a whole word, little-endian (R75): the update of a write transaction (R73). -/
def writeWord (m : List Host.Cell) (a w : Word) : List Host.Cell :=
  writeByte (writeByte (writeByte (writeByte m (byteAddr a 0) (byteOf w 0))
    (byteAddr a 1) (byteOf w 1)) (byteAddr a 2) (byteOf w 2)) (byteAddr a 3) (byteOf w 3)

/-- What an address reads as where the sequencer has written nothing: a free value of this era
(10_state.md R52). -/
def unwrittenByte (s : State) (a : Nat) : Byte := Config.freeByte s.era a

/-- The byte at an address of the register block. -/
def readByte (s : State) (a : Nat) : Byte := (written s.mem a).getD (unwrittenByte s a)

/-- The word at `a` (R75). -/
def readWord (s : State) (a : Word) : Word :=
  wordOfBytes (readByte s (byteAddr a 0)) (readByte s (byteAddr a 1)) (readByte s (byteAddr a 2))
    (readByte s (byteAddr a 3))

/-- The bus address of a register: `A(name)` of 00_scope.md R11 (R79, R80). -/
def addrOf (c : Cfg) (r : Reg) : Word := c.base + r.offset

/-! ### The inputs of a cycle (log 2, log 3) -/

/-- The next input of a script: a listed one, else the one it repeats, else the free value. -/
def Script.head {α : Type} (sc : Script α) (free : α) : α :=
  match sc.items with
  | x :: _ => x
  | [] => sc.rest.getD free

/-- The script one input later. -/
def Script.tail {α : Type} (sc : Script α) : Script α := { sc with items := sc.items.tail }

/-- A script with one input before it. -/
def Script.push {α : Type} (x : α) (sc : Script α) : Script α := { sc with items := x :: sc.items }

/-- What HOST drives in this cycle. -/
def pins (s : State) : HostPins := s.hostIn.head (Config.freeHost s.now)

/-- What CTRL drives in this cycle, if a transaction is requested in it. -/
def reply (s : State) : BusReply := s.busIn.head (Config.freeReply s.trace s.now)

/-- One clock cycle passes: HOST's inputs of it are used up. -/
def tick (s : State) : State := { s with hostIn := s.hostIn.tail, now := s.now + 1 }

/-- CTRL's reply of this cycle is used up. -/
def takeReply (s : State) : State := { s with busIn := s.busIn.tail }

/-! ### The trace and the bus primitives -/

/-- A completed element joins the trace (30_encoding.md R100; log 8). -/
def emit (e : TraceElem) (s : State) : State := { s with trace := s.trace ++ [e] }

/-- What a write does in its `ack` cycle: the register holds the word (20_memory.md R73). -/
def performWrite (r : Reg) (w : Word) (s : State) : State :=
  emit (.wr r (addrOf s.cfg r) w) { s with mem := writeWord s.mem (addrOf s.cfg r) w }

/-- `MemWrite(A(r), 4, w)` (R73), and `after` on the state in its `ack` cycle. Until then the request
is held (R70, R71). -/
def busWrite (r : Reg) (w : Word) (after : State → State) (s : State) : Result :=
  .next (if (reply s).ack then after (performWrite r w (takeReply s)) else takeReply s)

/-- `MemRead(A(r), 4)` (R72), and `after` on the answer and the state in its `ack` cycle. The answer
is CTRL's (60_exceptions.md R230); the block is left as it was (R76). -/
def busRead (r : Reg) (after : Word → State → State) (s : State) : Result :=
  .next (if (reply s).ack
    then after (reply s).rdata (emit (.rd r (addrOf s.cfg r) (reply s).rdata) (takeReply s))
    else takeReply s)

/-! ### The registers `st`, `rmw`, `i`, and outcomes (60_exceptions.md R229, R231) -/

/-- `pc <- t` (00_scope.md R11). -/
def goto (t : Fsm) (s : State) : State := { s with st := t }

/-- `rmw <- v` (10_state.md R40). -/
def latch (v : Word) (s : State) : State := { s with rmw := v }

/-- `i <- 0`. -/
def firstEntry (s : State) : State := { s with i := 0 }

/-- Entering an outcome changes `st` and `err` and nothing else (R229). -/
def enterOutcome (e : Err) (t : Fsm) (s : State) : State := { s with err := e, st := t }

/-- The successful end of a run (R220). -/
def succeed (s : State) : State := enterOutcome .ok .done s

/-- `raise EINVAL` (R221). -/
def raiseEinval (s : State) : State := enterOutcome .einval .done s

/-- `raise ETIMEOUT` (R224). -/
def raiseEtimeout (s : State) : State := enterOutcome .etimeout .fatal s

/-- Leaving an outcome: a start strobe is accepted (10_state.md R26; 60_exceptions.md R231). The
trace of the new run begins empty (log 8). -/
def acceptStart (e : Entry) (c : Cfg) (s : State) : State :=
  { s with ent := e, cfg := c, i := 0, k := 0, err := .ok, st := .validate, trace := [] }

end Sys2Proof.Machine
end

