-- ==== Sys2Proof/Machine/Flags.lean ====
section
/-! DEFINITION. The flags of the sequencer: the status outputs of the host port (10_state.md R26 to
R28) and the one status bit it tests, SDSR.BUSY (R49). -/

namespace Sys2Proof.Machine

/-- Output `busy` (R26): `st` is none of IDLE, DONE, FATAL. -/
def busy (s : State) : Bool := s.st != .idle && s.st != .done && s.st != .fatal

/-- Output `done` (R26). -/
def done (s : State) : Bool := s.st == .done

/-- Output `fatal` (R26). -/
def fatal (s : State) : Bool := s.st == .fatal

/-- The value of `err` (R28). -/
def Err.code : Err → BitVec 2
  | .ok => 0
  | .einval => 1
  | .etimeout => 2

/-- Output `err_code` (R26). -/
def errCode (s : State) : BitVec 2 := s.err.code

/-- A run's success (R27). -/
def success (s : State) : Bool := done s && s.err == .ok

/-- SDSR.BUSY of an answer, bit 5 (R49). -/
def busyBit (v : Word) : Bool := v.getLsbD 5

end Sys2Proof.Machine
end

