-- ==== Sys2Proof/Machine/Operands.lean ====
section
/-! DEFINITION. Operand assembly: which element the FSM issues in a state, with the operands that the
state's rule takes from `cfg`, `i`, `k` and `rmw` (30_encoding.md R92), and the bus signals that
follow (20_memory.md R70). -/

namespace Sys2Proof.Machine

/-- `cfg.nor[j]` (10_state.md R32). -/
def norAt (c : Cfg) (j : BitVec 2) : NorEntry :=
  if j = 0 then c.nor0 else if j = 1 then c.nor1 else if j = 2 then c.nor2 else c.nor3

/-- `cfg.sd[j]` (R35); there are two. -/
def sdAt (c : Cfg) (j : BitVec 2) : Option SdEntry :=
  if j = 0 then some c.sd0 else if j = 1 then some c.sd1 else none

/-- `e` of 40_norsram_configurator.md: the current NOR entry. -/
def norEntry (s : State) : NorEntry := norAt s.cfg s.i

/-- `e` of 42_sdram_sequencer.md: the current SDRAM entry. -/
def sdEntry (s : State) : Option SdEntry := sdAt s.cfg s.i

/-- `gate_en` (R31): the family is FAM_GATED. -/
def gateEn (c : Cfg) : Bool := c.family == 2

/-- The bits of `rmw` that a NOR write preserves (R126). -/
def preserved (s : State) : Word := s.rmw &&& norPreserveMask

/-- `rmw[30:0]`, what a gate write keeps (43_enable_gate.md R212, R214). -/
def kept (s : State) : BitVec 31 := s.rmw.setWidth 31

/-- What the FSM does in a cycle without reset (R21). -/
inductive Activity where
  /-- it performs a trace element -/
  | issue (i : Instr)
  /-- the spec gives the state no operand: a state no run reaches (log 13) -/
  | undefined (f : Fault)
  /-- IDLE, DONE: it waits for a start (R26) -/
  | awaitStart
  /-- VALIDATE -/
  | validate
  /-- N_NEXT -/
  | norNext
  /-- S_NEXT -/
  | sdNext
  /-- FATAL: only reset leaves it (60_exceptions.md R225) -/
  | halted
  deriving DecidableEq, Repr

/-- An element of the current NOR entry, whose bank index validation has bounded (R137 item 3). -/
def issueNor (s : State) (f : NorEntry → BitVec 2 → Instr) : Activity :=
  if (norEntry s).bankIdx.toNat < 4
  then .issue (f (norEntry s) ((norEntry s).bankIdx.setWidth 2))
  else .undefined .bankIndex

/-- An element of the current SDRAM entry. -/
def issueSd (s : State) (f : SdEntry → Activity) : Activity :=
  match sdEntry s with
  | some e => f e
  | none => .undefined .entryIndex

/-- The command that S_WR_CMD issues (R178). -/
def commandAt (k : Nat) (e : SdEntry) : Activity :=
  match k with
  | 0 => .issue (.cmdStartClock e.slot)
  | 1 => .issue (.cmdPrecharge e.slot)
  | 2 => .issue (.cmdAutoRefresh e.slot)
  | 3 => .issue (.cmdWriteMode e.slot e.ctrl.casLatency)
  | 4 => .issue (.cmdNormal e.slot)
  | _ => .undefined .commandIndex

/-- The delay that S_DELAY counts (R179): commands 0 to 3 have one (R97). -/
def delayAt (k : Nat) : Activity :=
  if delayUs k = 0 then .undefined .commandIndex else .issue (.delay (delayUs k))

/-- What the FSM does in its current state. -/
def activity (s : State) : Activity :=
  match s.st with
  | .idle => .awaitStart
  | .validate => .validate
  | .nRdBcr => issueNor s fun _ b => .norRdBcr b
  | .nWrBcr => issueNor s fun e b => .norWrBcr b e.ctrl (preserved s)
  | .nWrBtr => issueNor s fun e b => .norWrBtr b e.timing
  | .nWrBwtr => issueNor s fun e b => .norWrBwtr b e.timing.toWrite
  | .nWrBcrEn => issueNor s fun e b => .norWrBcrEn b e.ctrl (preserved s)
  | .nNext => .norNext
  | .gRdOff => .issue .gateRdOff
  | .gWrOff => .issue (.gateWrOff (kept s))
  | .sWrSdcr1 => issueSd s fun e => .issue (.sdWrSdcr1 e.ctrl)
  | .sWrSdcr2 => issueSd s fun e => .issue (.sdWrSdcr2 e.ctrl.toReduced)
  | .sWrSdtr1 => issueSd s fun e => .issue (.sdWrSdtr1 e.timing)
  | .sWrSdtr2 => issueSd s fun e => .issue (.sdWrSdtr2 e.timing)
  | .sWrCmd => issueSd s (commandAt s.k.toNat)
  | .sDelay => delayAt s.k.toNat
  | .sBarrier => .issue .barrier
  | .sPoll => .issue .sdRdSdsr
  | .sWrSdrtr => issueSd s fun e => .issue (.sdWrSdrtr (e.refCount.setWidth 31))
  | .sNext => .sdNext
  | .gRdOn => .issue .gateRdOn
  | .gWrOn => .issue (.gateWrOn (kept s))
  | .done => .awaitStart
  | .fatal => .halted

/-- The transaction the FSM requests in its current state, if it requests one (R21, R71). -/
def request (s : State) : Option Txn :=
  match activity s with
  | .issue i =>
    match i.action with
    | .bus t => some t
    | .delay _ => none
    | .barrier => none
  | .undefined _ => none
  | .awaitStart => none
  | .validate => none
  | .norNext => none
  | .sdNext => none
  | .halted => none

/-- The outputs of the bus master port in one cycle (R70). `wdata` is 0 in a read. -/
structure BusPort where
  we    : Bool
  addr  : Word
  wdata : Word
  deriving DecidableEq, Repr

/-- The bus outputs of this cycle, none when `req` = 0: `req` is driven 0 in a reset cycle
(70_reset_and_hazards.md R250). -/
def busPort (s : State) : Option BusPort :=
  if (pins s).rst then none
  else (request s).map fun t => { we := t.we, addr := addrOf s.cfg t.reg, wdata := t.data }

/-- Output `req` (R70). -/
def req (s : State) : Bool := (busPort s).isSome

end Sys2Proof.Machine
end

