-- ==== Sys2Proof/Machine/Gate.lean ====
section
/-! DEFINITION. The controller enable gate (43_enable_gate.md): the meanings of its four elements. -/

namespace Sys2Proof.Machine

/-- G_RD_OFF (R211). -/
def execGateRdOff (s : State) : Result :=
  busRead (.bcr 0) (fun v t => goto .gWrOff (latch v t)) s

/-- G_WR_OFF (R212): BCR1 as read, FMCEN cleared. -/
def execGateWrOff (kept : BitVec 31) (s : State) : Result :=
  busWrite (.bcr 0) (zext kept) (fun t => goto .sWrSdcr1 (firstEntry t)) s

/-- G_RD_ON (R213). -/
def execGateRdOn (s : State) : Result :=
  busRead (.bcr 0) (fun v t => goto .gWrOn (latch v t)) s

/-- G_WR_ON (R214): BCR1 as read, FMCEN set; the run ends. -/
def execGateWrOn (kept : BitVec 31) (s : State) : Result :=
  busWrite (.bcr 0) (zext kept ||| fmcen) succeed s

end Sys2Proof.Machine
end

