-- ==== Sys2Proof/Machine/Nor.lean ====
section
/-! DEFINITION. The NOR/SRAM configurator (40_norsram_configurator.md): validation of its part of the
configuration, the meanings of its five elements, and N_NEXT. -/

namespace Sys2Proof.Machine

/-! ### Validation -/

/-- A valid `base` (10_state.md R30). -/
def baseValid (base : Word) : Bool :=
  base != 0x00000000 && base != 0xFFFFFFFF && base &&& 3 == 0 && base.toNat ≤ 0xFFFFFEA4

/-- The entry records `nor[j]` with `j < nor_count` (R32). -/
def norUsed (c : Cfg) : List NorEntry := [c.nor0, c.nor1, c.nor2, c.nor3].take c.norCount.toNat

/-- Items 3 to 6 of R137 for one entry. -/
def norEntryInvalid (e : NorEntry) : Bool :=
  e.bankIdx.toNat > 3 || !e.ctrlPresent || !e.timingPresent || !e.timing.inRange

/-- No value occurs twice. -/
def allDistinct {n : Nat} : List (BitVec n) → Bool
  | [] => true
  | x :: xs => !xs.contains x && allDistinct xs

/-- `nor_invalid(cfg)` (R137). -/
def norInvalid (c : Cfg) : Bool :=
  c.norCount.toNat > 4 || (c.norCount.toNat ≥ 1 && !baseValid c.base) ||
  (norUsed c).any norEntryInvalid || !allDistinct ((norUsed c).map (·.bankIdx))

/-! ### Meanings -/

/-- N_RD_BCR (R130): the answer is latched in `rmw`. -/
def execNorRdBcr (b : BitVec 2) (s : State) : Result :=
  busRead (.bcr b) (fun v t => goto .nWrBcr (latch v t)) s

/-- N_WR_BCR (R131): the preserved bits and the control word, MBKEN = 0. -/
def execNorWrBcr (b : BitVec 2) (c : NorCtrl) (pres : Word) (s : State) : Result :=
  busWrite (.bcr b) (pres ||| ctrlWord c) (goto .nWrBtr) s

/-- N_WR_BTR (R132). -/
def execNorWrBtr (b : BitVec 2) (t : NorTiming) (s : State) : Result :=
  busWrite (.btr b) (btrWord t) (goto .nWrBwtr) s

/-- N_WR_BWTR (R133). -/
def execNorWrBwtr (b : BitVec 2) (t : NorWriteTiming) (s : State) : Result :=
  busWrite (.bwtr b) (bwtrWord t) (goto .nWrBcrEn) s

/-- N_WR_BCR_EN (R134): the same word with MBKEN = 1. -/
def execNorWrBcrEn (b : BitVec 2) (c : NorCtrl) (pres : Word) (s : State) : Result :=
  busWrite (.bcr b) (pres ||| ctrlWord c ||| mbken) (goto .nNext) s

/-- N_NEXT (R135). -/
def norNext (s : State) : State :=
  if s.i.toNat + 1 < s.cfg.norCount.toNat then goto .nRdBcr { s with i := s.i + 1 } else succeed s

/-- VALIDATE of a NOR run (R136, R138). -/
def validateNor (s : State) : State :=
  if norInvalid s.cfg then raiseEinval s
  else if s.cfg.norCount = 0 then succeed s
  else goto .nRdBcr (firstEntry s)

end Sys2Proof.Machine
end

