-- ==== Sys2Proof/Machine/Sdram.lean ====
section
/-! DEFINITION. The SDRAM bring-up FSM (42_sdram_sequencer.md): validation of its part of the
configuration, the meanings of its elements, advance() and S_NEXT. -/

namespace Sys2Proof.Machine

/-! ### Validation -/

/-- The entry records `sd[j]` with `j < sd_count` (10_state.md R35). -/
def sdUsed (c : Cfg) : List SdEntry := [c.sd0, c.sd1].take c.sdCount.toNat

/-- Item 4 of R172 for one entry. -/
def sdEntryInvalid (e : SdEntry) : Bool := !e.ctrlPresent || !e.timingPresent || !e.refPresent

/-- `sd_invalid(cfg)` (R172). -/
def sdInvalid (c : Cfg) : Bool :=
  c.sdCount.toNat > 2 || (c.sdCount.toNat ≥ 1 && !baseValid c.base) ||
  (c.sdCount.toNat ≥ 1 && c.family == 3) || (sdUsed c).any sdEntryInvalid ||
  (c.sdCount.toNat == 2 && c.sd0.slot == c.sd1.slot)

/-! ### Control and timing words -/

/-- Where step 1 and step 2 go after the primary register, by the slot of the current entry
(R174, R176), which the element's word does not carry (log 25). -/
def bySlot (s : State) (ifSlot1 ifSlot2 : State → Result) : Result :=
  match sdEntry s with
  | none => .fault .entryIndex
  | some e =>
    match e.slot with
    | .slot1 => ifSlot1 s
    | .slot2 => ifSlot2 s

/-- `k <- 0; pc <- S_WR_CMD` (R176, R177). -/
def startCommands (s : State) : State := goto .sWrCmd { s with k := 0 }

/-- S_WR_SDCR1 (R174). -/
def execSdWrSdcr1 (c : SdramCtrl) (s : State) : Result :=
  bySlot s (busWrite .sdcr1 (sdcrFull c) (goto .sWrSdtr1)) (busWrite .sdcr1 (sdcrFull c) (goto .sWrSdcr2))

/-- S_WR_SDCR2 (R175). -/
def execSdWrSdcr2 (c : SdramReduced) (s : State) : Result :=
  busWrite .sdcr2 (sdcrReduced c) (goto .sWrSdtr1) s

/-- S_WR_SDTR1 (R176). -/
def execSdWrSdtr1 (t : SdramTiming) (s : State) : Result :=
  bySlot s (busWrite .sdtr1 (sdtrWord t) startCommands) (busWrite .sdtr1 (sdtrWord t) (goto .sWrSdtr2))

/-- S_WR_SDTR2 (R177). -/
def execSdWrSdtr2 (t : SdramTiming) (s : State) : Result :=
  busWrite .sdtr2 (sdtrWord t) startCommands s

/-! ### Commands, delay, barrier and poll -/

/-- What S_WR_CMD does in the `ack` cycle of command `k` (R178): the delay counter is loaded, and a
command with no delay goes straight to the barrier. -/
def afterCommand (k : Nat) (s : State) : State :=
  goto (if delayUs k * s.par.cyclesPerUs > 0 then .sDelay else .sBarrier)
    { s with dcnt := delayUs k * s.par.cyclesPerUs }

/-- S_WR_CMD (R178) for command `k`. -/
def issueCommand (k : Nat) (slot : Slot) (cas : BitVec 2) (s : State) : Result :=
  busWrite .sdcmr (cmdWord k slot cas) (afterCommand k) s

/-- START_CLOCK (R178, k = 0). -/
def execCmdStartClock (slot : Slot) (s : State) : Result := issueCommand 0 slot 0 s

/-- PRECHARGE (R178, k = 1). -/
def execCmdPrecharge (slot : Slot) (s : State) : Result := issueCommand 1 slot 0 s

/-- AUTO_REFRESH (R178, k = 2). -/
def execCmdAutoRefresh (slot : Slot) (s : State) : Result := issueCommand 2 slot 0 s

/-- WRITE_MODE (R178, k = 3). -/
def execCmdWriteMode (slot : Slot) (cas : BitVec 2) (s : State) : Result := issueCommand 3 slot cas s

/-- NORMAL (R178, k = 4). -/
def execCmdNormal (slot : Slot) (s : State) : Result := issueCommand 4 slot 0 s

/-- 2 to the width of `dcnt`, ceil(log2(200 × CYCLES_PER_US + 1)) bits (60_exceptions.md R236). -/
def dcntModulus (p : Params) : Nat := 2 ^ (Nat.log2 (200 * p.cyclesPerUs) + 1)

/-- `dcnt - 1` in the unsigned register (R179; log 14). -/
def dcntLess (s : State) : Nat :=
  (s.dcnt + dcntModulus s.par - 1) % dcntModulus s.par

/-- S_DELAY for one clock cycle (R179). The element joins the trace as the delay ends (log 8). -/
def execDelay (us : Nat) (s : State) : Result :=
  .next (if dcntLess s = 0 then emit (.delay us) (goto .sBarrier { s with dcnt := 0 })
    else { s with dcnt := dcntLess s })

/-- S_BARRIER (R180; 20_memory.md R77): one cycle, no transaction. -/
def execBarrier (s : State) : Result :=
  .next (emit .barrier (goto .sPoll { s with pcnt := 0 }))

/-- advance() (R182). -/
def advance (s : State) : State :=
  if s.k.toNat < 4 then goto .sWrCmd { s with k := s.k + 1 } else goto .sWrSdrtr s

/-- What S_POLL does with an answer (R181; 60_exceptions.md R224). `pcnt` exists, and so counts, only
when POLL_TIMEOUT > 0 (10_state.md R25; log 15). -/
def afterPoll (v : Word) (s : State) : State :=
  if busyBit v then
    if s.par.pollTimeout > 0 then
      if s.pcnt + 1 = s.par.pollTimeout then raiseEtimeout s else goto .sPoll { s with pcnt := s.pcnt + 1 }
    else goto .sPoll s
  else advance s

/-- S_POLL (R181). -/
def execSdRdSdsr (s : State) : Result := busRead .sdsr afterPoll s

/-- S_WR_SDRTR (R183). -/
def execSdWrSdrtr (ref : BitVec 31) (s : State) : Result :=
  busWrite .sdrtr (sdrtrWord (zext ref)) (goto .sNext) s

/-- S_NEXT (R184). -/
def sdNext (s : State) : State :=
  if s.i.toNat + 1 < s.cfg.sdCount.toNat then goto .sWrSdcr1 { s with i := s.i + 1 }
  else if gateEn s.cfg then goto .gRdOn s
  else succeed s

/-- VALIDATE of an SDRAM run (R171 to R173; 43_enable_gate.md R210, R217). -/
def validateSdram (s : State) : State :=
  if sdInvalid s.cfg then raiseEinval s
  else if s.cfg.sdCount = 0 then succeed s
  else if gateEn s.cfg then goto .gRdOff (firstEntry s)
  else goto .sWrSdcr1 (firstEntry s)

end Sys2Proof.Machine
end

