-- ==== Sys2Proof/Machine/Control.lean ====
section
/-! DEFINITION. The states without a trace element that both entries share (IDLE, DONE, VALIDATE), a
reset cycle, and placing an element where the FSM issues its next one. -/

namespace Sys2Proof.Machine

/-- IDLE and DONE (10_state.md R26): a start strobe is accepted, NOR before SDRAM. -/
def hostStart (p : HostPins) (s : State) : State :=
  if p.startNor then acceptStart .nor p.cfg s
  else if p.startSdram then acceptStart .sdram p.cfg s
  else s

/-- VALIDATE (40_norsram_configurator.md R136; 42_sdram_sequencer.md R171). -/
def validate (s : State) : State :=
  match s.ent with
  | .nor => validateNor s
  | .sdram => validateSdram s

/-- A cycle with `rst` = 1 (70_reset_and_hazards.md R250): every sequencer register takes its reset
value and CTRL keeps its registers (R252). In a run, what the registers then hold, the outstanding
transaction included, is undefined (R253): the block holds fresh free values (log 16). -/
def resetCycle (s : State) : State :=
  { State.reset with
    mem := if busy s then [] else s.mem
    era := if busy s then s.era + 1 else s.era
    par := s.par
    hostIn := s.hostIn.tail
    busIn := s.busIn
    now := s.now + 1 }

/-! ### Placing an element (log 12) -/

/-- HOST's inputs of a cycle in which it does nothing. -/
def quietPins (s : State) : HostPins :=
  { rst := false, startNor := false, startSdram := false, cfg := s.cfg }

/-- The next cycle has no reset and no strobe, and a transaction in it is acknowledged with `answer`. -/
def promptCycle (answer : Word) (s : State) : State :=
  { s with
    hostIn := s.hostIn.push (quietPins s)
    busIn := s.busIn.push { ack := true, rdata := answer } }

/-- A NOR state `t` of the entry that `f` makes of `nor[0]`. -/
def placeNor (t : Fsm) (b : BitVec 2) (f : NorEntry → NorEntry) (s : State) : State :=
  { s with st := t, ent := .nor, i := 0,
           cfg := { s.cfg with nor0 := { f s.cfg.nor0 with bankIdx := b.setWidth 3 } } }

/-- An SDRAM state `t` of the entry that `f` makes of `sd[0]`. -/
def placeSd (t : Fsm) (k : BitVec 3) (f : SdEntry → SdEntry) (s : State) : State :=
  { s with st := t, ent := .sdram, i := 0, k := k, cfg := { s.cfg with sd0 := f s.cfg.sd0 } }

/-- The FSM in the state that issues `i`, the operands of `i` where its rule takes them from. -/
def placeInstr (i : Instr) (s : State) : State :=
  match i with
  | .norRdBcr b => placeNor .nRdBcr b id s
  | .norWrBcr b c pres => placeNor .nWrBcr b (fun e => { e with ctrl := c }) { s with rmw := pres }
  | .norWrBtr b t => placeNor .nWrBtr b (fun e => { e with timing := t }) s
  | .norWrBwtr b t =>
    placeNor .nWrBwtr b (fun e => { e with timing :=
      { e.timing with addrSetup := t.addrSetup, addrHold := t.addrHold, dataSetup := t.dataSetup,
                      busTurnaround := t.busTurnaround, accessMode := t.accessMode } }) s
  | .norWrBcrEn b c pres => placeNor .nWrBcrEn b (fun e => { e with ctrl := c }) { s with rmw := pres }
  | .gateRdOff => placeSd .gRdOff s.k id s
  | .gateWrOff kept => placeSd .gWrOff s.k id { s with rmw := zext kept }
  | .sdWrSdcr1 c => placeSd .sWrSdcr1 s.k (fun e => { e with ctrl := c }) s
  | .sdWrSdcr2 c =>
    placeSd .sWrSdcr2 s.k (fun e => { e with slot := .slot2, ctrl :=
      { e.ctrl with noColumns := c.noColumns, noRows := c.noRows, memoryWidth := c.memoryWidth,
                    noBanks := c.noBanks, casLatency := c.casLatency } }) s
  | .sdWrSdtr1 t => placeSd .sWrSdtr1 s.k (fun e => { e with timing := t }) s
  | .sdWrSdtr2 t => placeSd .sWrSdtr2 s.k (fun e => { e with slot := .slot2, timing := t }) s
  | .cmdStartClock slot => placeSd .sWrCmd 0 (fun e => { e with slot := slot }) s
  | .cmdPrecharge slot => placeSd .sWrCmd 1 (fun e => { e with slot := slot }) s
  | .cmdAutoRefresh slot => placeSd .sWrCmd 2 (fun e => { e with slot := slot }) s
  | .cmdWriteMode slot cas =>
    placeSd .sWrCmd 3 (fun e => { e with slot := slot, ctrl := { e.ctrl with casLatency := cas } }) s
  | .cmdNormal slot => placeSd .sWrCmd 4 (fun e => { e with slot := slot }) s
  | .delay us => placeSd .sDelay (if us = 200 then 0 else 1) id { s with dcnt := us * s.par.cyclesPerUs }
  | .barrier => placeSd .sBarrier s.k id s
  | .sdRdSdsr => placeSd .sPoll s.k id s
  | .sdWrSdrtr ref => placeSd .sWrSdrtr s.k (fun e => { e with refCount := zext ref }) s
  | .gateRdOn => placeSd .gRdOn s.k id s
  | .gateWrOn kept => placeSd .gWrOn s.k id { s with rmw := zext kept }

/-- The data word of a table word: the answer of a read. -/
def tableAnswer (nbits w : Nat) : Word := BitVec.ofNat 32 (w % 2 ^ nbits)

/-- The element that the table word stands for (log 11), if it stands for one, where the next cycle
issues it, with that cycle's inputs. -/
def placeTableWord (nbits w : Nat) (s : State) : State :=
  match decodeTableWord nbits w with
  | some i => promptCycle (tableAnswer nbits w) (placeInstr i s)
  | none => s

end Sys2Proof.Machine
end

