-- ==== Sys2Proof/Machine/Dispatch.lean ====
section
/-! DEFINITION. One arm per trace element: the row of opcode_table.json and its meaning. -/

namespace Sys2Proof.Machine

def exec (i : Instr) (s : State) : Host.Outcome State Fault Refusal :=
  match i with
  -- 40_norsram_configurator.md
  | .norRdBcr b => Sys2Proof.Machine.execNorRdBcr b s
  | .norWrBcr b c pres => Sys2Proof.Machine.execNorWrBcr b c pres s
  | .norWrBtr b t => Sys2Proof.Machine.execNorWrBtr b t s
  | .norWrBwtr b t => Sys2Proof.Machine.execNorWrBwtr b t s
  | .norWrBcrEn b c pres => Sys2Proof.Machine.execNorWrBcrEn b c pres s
  -- 43_enable_gate.md and 42_sdram_sequencer.md
  | .gateRdOff => Sys2Proof.Machine.execGateRdOff s
  | .gateWrOff kept => Sys2Proof.Machine.execGateWrOff kept s
  | .sdWrSdcr1 c => Sys2Proof.Machine.execSdWrSdcr1 c s
  | .sdWrSdcr2 c => Sys2Proof.Machine.execSdWrSdcr2 c s
  | .sdWrSdtr1 t => Sys2Proof.Machine.execSdWrSdtr1 t s
  | .sdWrSdtr2 t => Sys2Proof.Machine.execSdWrSdtr2 t s
  | .cmdStartClock slot => Sys2Proof.Machine.execCmdStartClock slot s
  | .cmdPrecharge slot => Sys2Proof.Machine.execCmdPrecharge slot s
  | .cmdAutoRefresh slot => Sys2Proof.Machine.execCmdAutoRefresh slot s
  | .cmdWriteMode slot cas => Sys2Proof.Machine.execCmdWriteMode slot cas s
  | .cmdNormal slot => Sys2Proof.Machine.execCmdNormal slot s
  | .delay us => Sys2Proof.Machine.execDelay us s
  | .barrier => Sys2Proof.Machine.execBarrier s
  | .sdRdSdsr => Sys2Proof.Machine.execSdRdSdsr s
  | .sdWrSdrtr ref => Sys2Proof.Machine.execSdWrSdrtr ref s
  | .gateRdOn => Sys2Proof.Machine.execGateRdOn s
  | .gateWrOn kept => Sys2Proof.Machine.execGateWrOn kept s

end Sys2Proof.Machine
end

