-- ==== Sys2Proof/Machine/Step.lean ====
section
/-! DEFINITION. One step of the machine: one cycle of `clk` (10_state.md R20; 70_reset_and_hazards.md
R250, R275). -/

namespace Sys2Proof.Machine

/-- One clock cycle. Reset takes precedence over everything (R228, R250); otherwise the FSM does what
its state says: it runs a trace element, or does the work of an internal state. -/
def step (s : State) : Host.Outcome State Fault Refusal :=
  if (pins s).rst then .next (resetCycle s)
  else
    match activity s with
    | .issue i => exec i (tick s)
    | .undefined f => .fault f
    | .awaitStart => .next (hostStart (pins s) (tick s))
    | .validate => .next (validate (tick s))
    | .norNext => .next (norNext (tick s))
    | .sdNext => .next (sdNext (tick s))
    | .halted => .next (tick s)

/-- `s` with the element of a table word where `step` issues its next one (log 11, log 12). -/
def State.withFetchWord (s : State) (nbits w : Nat) : State := placeTableWord nbits w s

end Sys2Proof.Machine
end

