-- ==== Sys2Proof/Safety.lean ====
section
/-! DEFINITION. What a safe run is, in the terms the statements use: the invariant of the registers,
the flow a trace must follow (40_norsram_configurator.md R127, R136; 42_sdram_sequencer.md R171;
43_enable_gate.md R210), and assumptions on the two outer agents. -/

namespace Sys2Proof.Machine

/-! ### The registers -/

/-- The states of a NOR run after VALIDATE (10_state.md R21). -/
def inNorRun (t : Fsm) : Bool :=
  t == .nRdBcr || t == .nWrBcr || t == .nWrBtr || t == .nWrBwtr || t == .nWrBcrEn || t == .nNext

/-- The states of the gate (43_enable_gate.md). -/
def inGate (t : Fsm) : Bool := t == .gRdOff || t == .gWrOff || t == .gRdOn || t == .gWrOn

/-- The states that work on one SDRAM entry (42_sdram_sequencer.md). -/
def inSdEntry (t : Fsm) : Bool :=
  t == .sWrSdcr1 || t == .sWrSdcr2 || t == .sWrSdtr1 || t == .sWrSdtr2 || t == .sWrCmd ||
  t == .sDelay || t == .sBarrier || t == .sPoll || t == .sWrSdrtr || t == .sNext

/-- What the registers satisfy in every state a run reaches. -/
structure SeqInv (s : State) : Prop where
  /-- CYCLES_PER_US is positive (00_scope.md R8) -/
  cycles : 0 < s.par.cyclesPerUs
  /-- the register block is in canonical form (log 4) -/
  block  : memWf s.mem = true
  /-- a NOR run has a valid configuration and a current entry (R136, R137) -/
  nor    : inNorRun s.st = true →
    s.ent = .nor ∧ norInvalid s.cfg = false ∧ s.i.toNat < s.cfg.norCount.toNat
  /-- an SDRAM run has a valid configuration and a current entry (R171, R172) -/
  sdram  : inSdEntry s.st = true ∨ inGate s.st = true →
    s.ent = .sdram ∧ sdInvalid s.cfg = false ∧ s.i.toNat < s.cfg.sdCount.toNat
  /-- the gate runs on FAM_GATED only (R210, R215) -/
  gate   : inGate s.st = true → gateEn s.cfg = true
  /-- the secondary registers are written for a slot-2 entry only (R175, R177) -/
  slot2  : s.st = .sWrSdcr2 ∨ s.st = .sWrSdtr2 → (sdEntry s).map (·.slot) = some .slot2
  /-- `k` is at most 4 (R23, R182) -/
  kBound : s.k.toNat ≤ 4
  /-- S_DELAY counts down from its command's delay (R178, R179) -/
  delay  : s.st = .sDelay → 0 < s.dcnt ∧ s.dcnt ≤ delayUs s.k.toNat * s.par.cyclesPerUs
  /-- `dcnt` fits its register (R24, R236) -/
  dcntFits : s.dcnt ≤ 200 * s.par.cyclesPerUs
  /-- `pcnt` stays below POLL_TIMEOUT, and at 0 where it does not exist (R25, R181) -/
  pcntFits : s.pcnt < max 1 s.par.pollTimeout
  /-- ETIMEOUT is in `err` exactly in FATAL (R220, R225) -/
  timeout : s.err = .etimeout ↔ s.st = .fatal
  /-- EINVAL is in `err` in DONE only (R220, R221) -/
  invalid : s.err = .einval → s.st = .done
  /-- FATAL is an outcome of an SDRAM run with a bounded poll (R224) -/
  fatalRun : s.st = .fatal → s.ent = .sdram ∧ 0 < s.par.pollTimeout

/-! ### The flow of a NOR run (40_norsram_configurator.md R127, R136) -/

/-- A write of `w` to register `r` as a trace element of a run with configuration `c`. -/
def wrElem (c : Cfg) (r : Reg) (w : Word) : TraceElem := .wr r (addrOf c r) w

/-- A read of register `r` answered with `v`. -/
def rdElem (c : Cfg) (r : Reg) (v : Word) : TraceElem := .rd r (addrOf c r) v

/-- The bank of a NOR entry that passed validation. -/
def NorEntry.bank (e : NorEntry) : BitVec 2 := e.bankIdx.setWidth 2

/-- The five elements of one NOR entry, whose read is answered with `v` (R127). -/
def norEntryFlow (c : Cfg) (e : NorEntry) (v : Word) : List TraceElem :=
  [ rdElem c (.bcr (NorEntry.bank e)) v,
    wrElem c (.bcr (NorEntry.bank e)) ((v &&& norPreserveMask) ||| ctrlWord e.ctrl),
    wrElem c (.btr (NorEntry.bank e)) (btrWord e.timing),
    wrElem c (.bwtr (NorEntry.bank e)) (bwtrWord e.timing.toWrite),
    wrElem c (.bcr (NorEntry.bank e)) ((v &&& norPreserveMask) ||| ctrlWord e.ctrl ||| mbken) ]

/-- The elements of NOR entries in list order, one answer an entry (R136). -/
def norFlow (c : Cfg) (es : List NorEntry) (vs : List Word) : List TraceElem :=
  (es.zip vs).flatMap fun p => norEntryFlow c p.1 p.2

/-! ### The flow of an SDRAM run (42_sdram_sequencer.md R171) -/

/-- One poll: the answers with BUSY = 1, and the answer with BUSY = 0 that ends it (R101, R181). -/
structure Poll where
  busyAnswers : List Word
  last        : Word

/-- The answers of a poll have the BUSY bits a poll asks for. -/
def Poll.Ok (p : Poll) : Prop := p.busyAnswers.all busyBit = true ∧ busyBit p.last = false

/-- Steps 1 and 2 for one entry (R174 to R177). -/
def configFlow (c : Cfg) (e : SdEntry) : List TraceElem :=
  match e.slot with
  | .slot1 => [wrElem c .sdcr1 (sdcrFull e.ctrl), wrElem c .sdtr1 (sdtrWord e.timing)]
  | .slot2 =>
    [ wrElem c .sdcr1 (sdcrFull e.ctrl), wrElem c .sdcr2 (sdcrReduced e.ctrl.toReduced),
      wrElem c .sdtr1 (sdtrWord e.timing), wrElem c .sdtr2 (sdtrWord e.timing) ]

/-- The write of command `k` and its delay (R178, R179). -/
def commandFlow (c : Cfg) (e : SdEntry) (k : Nat) : List TraceElem :=
  wrElem c .sdcmr (cmdWord k e.slot e.ctrl.casLatency) ::
  (if delayUs k = 0 then [] else [.delay (delayUs k)])

/-- The SDSR reads of answers `vs`. -/
def pollReads (c : Cfg) (vs : List Word) : List TraceElem := vs.map fun v => rdElem c .sdsr v

/-- Command `k` whole: write, delay, barrier, poll (R101, R171). -/
def stepFlow (c : Cfg) (e : SdEntry) (k : Nat) (p : Poll) : List TraceElem :=
  commandFlow c e k ++ .barrier :: pollReads c (p.busyAnswers ++ [p.last])

/-- The commands from `k` on, one poll each. -/
def stepsFrom (c : Cfg) (e : SdEntry) : Nat → List Poll → List TraceElem
  | _, [] => []
  | k, p :: ps => stepFlow c e k p ++ stepsFrom c e (k + 1) ps

/-- The eight steps of one SDRAM entry (R171). -/
def sdEntryFlow (c : Cfg) (e : SdEntry) (ps : List Poll) : List TraceElem :=
  configFlow c e ++ stepsFrom c e 0 ps ++ [wrElem c .sdrtr (sdrtrWord e.refCount)]

/-- Five polls with the right BUSY bits. -/
def FivePolls (ps : List Poll) : Prop := ps.length = 5 ∧ ∀ p ∈ ps, p.Ok

/-- `tr` is the flow of the SDRAM entries `es` in list order. -/
inductive SdFlow (c : Cfg) : List SdEntry → List TraceElem → Prop where
  | nil : SdFlow c [] []
  | snoc (es : List SdEntry) (tr : List TraceElem) (e : SdEntry) (ps : List Poll) :
      SdFlow c es tr → FivePolls ps → SdFlow c (es ++ [e]) (tr ++ sdEntryFlow c e ps)

/-- The gate's first two elements (43_enable_gate.md R211, R212), none where the gate does not run. -/
def Opening (c : Cfg) (tr : List TraceElem) : Prop :=
  if gateEn c then ∃ v, tr = [rdElem c (.bcr 0) v, wrElem c (.bcr 0) (v &&& 0x7FFFFFFF)] else tr = []

/-- The gate's last two elements (R213, R214). -/
def Closing (c : Cfg) (tr : List TraceElem) : Prop :=
  if gateEn c then ∃ v, tr = [rdElem c (.bcr 0) v, wrElem c (.bcr 0) (v ||| 0x80000000)] else tr = []

/-- What the current SDRAM entry has added to the trace in state `s` (R171). -/
def SdPartial (s : State) (e : SdEntry) (tr : List TraceElem) : Prop :=
  match s.st with
  | .sWrSdcr1 => tr = []
  | .sWrSdcr2 => tr = (configFlow s.cfg e).take 1
  | .sWrSdtr1 => tr = (configFlow s.cfg e).take (match e.slot with | .slot1 => 1 | .slot2 => 2)
  | .sWrSdtr2 => tr = (configFlow s.cfg e).take 3
  | .sWrCmd => ∃ ps : List Poll, ps.length = s.k.toNat ∧ (∀ p ∈ ps, p.Ok) ∧
      tr = configFlow s.cfg e ++ stepsFrom s.cfg e 0 ps
  | .sDelay => ∃ ps : List Poll, ps.length = s.k.toNat ∧ (∀ p ∈ ps, p.Ok) ∧
      tr = configFlow s.cfg e ++ stepsFrom s.cfg e 0 ps ++ (commandFlow s.cfg e s.k.toNat).take 1
  | .sBarrier => ∃ ps : List Poll, ps.length = s.k.toNat ∧ (∀ p ∈ ps, p.Ok) ∧
      tr = configFlow s.cfg e ++ stepsFrom s.cfg e 0 ps ++ commandFlow s.cfg e s.k.toNat
  | .sPoll => ∃ (ps : List Poll) (vs : List Word), ps.length = s.k.toNat ∧ (∀ p ∈ ps, p.Ok) ∧
      vs.all busyBit = true ∧ (0 < s.par.pollTimeout → vs.length = s.pcnt) ∧
      tr = configFlow s.cfg e ++ stepsFrom s.cfg e 0 ps ++ commandFlow s.cfg e s.k.toNat ++
        .barrier :: pollReads s.cfg vs
  | .fatal => ∃ (ps : List Poll) (vs : List Word), ps.length = s.k.toNat ∧ (∀ p ∈ ps, p.Ok) ∧
      vs.all busyBit = true ∧ vs.length = s.par.pollTimeout ∧
      tr = configFlow s.cfg e ++ stepsFrom s.cfg e 0 ps ++ commandFlow s.cfg e s.k.toNat ++
        .barrier :: pollReads s.cfg vs
  | .sWrSdrtr => ∃ ps : List Poll, FivePolls ps ∧ tr = configFlow s.cfg e ++ stepsFrom s.cfg e 0 ps
  | .sNext => ∃ ps : List Poll, FivePolls ps ∧ tr = sdEntryFlow s.cfg e ps
  | _ => False

/-- How many elements of the current NOR entry's five are in the trace in a NOR state (R127). -/
def norProgress (t : Fsm) : Nat :=
  match t with
  | .nWrBcr => 1
  | .nWrBtr => 2
  | .nWrBwtr => 3
  | .nWrBcrEn => 4
  | .nNext => 5
  | _ => 0

/-- The trace of a NOR run is the flow of R136 as far as the run has come. -/
def NorFollows (s : State) : Prop :=
  ∃ vs : List Word, vs.length = s.i.toNat ∧
    s.trace = norFlow s.cfg ((norUsed s.cfg).take s.i.toNat) vs ++
      (norEntryFlow s.cfg (norEntry s) s.rmw).take (norProgress s.st)

/-- The trace of an SDRAM run inside an entry is the flow of R171 as far as the run has come. -/
def SdFollows (s : State) : Prop :=
  ∃ (o b tr : List TraceElem) (e : SdEntry), Opening s.cfg o ∧
    SdFlow s.cfg ((sdUsed s.cfg).take s.i.toNat) b ∧ sdEntry s = some e ∧ SdPartial s e tr ∧
    s.trace = o ++ b ++ tr

/-- The trace of the gate's last two elements, as far as the run has come (R213, R214). -/
def ClosingFollows (s : State) : Prop :=
  ∃ o b : List TraceElem, Opening s.cfg o ∧ SdFlow s.cfg (sdUsed s.cfg) b ∧
    s.trace = o ++ b ++ (if s.st = .gWrOn then [rdElem s.cfg (.bcr 0) s.rmw] else [])

/-- The whole trace of a successful NOR run (R136, R138). -/
def NorComplete (s : State) : Prop :=
  ∃ vs : List Word, vs.length = s.cfg.norCount.toNat ∧ s.trace = norFlow s.cfg (norUsed s.cfg) vs

/-- The whole trace of a successful SDRAM run with at least one entry (R171). -/
def SdComplete (s : State) : Prop :=
  ∃ o b z : List TraceElem, Opening s.cfg o ∧ SdFlow s.cfg (sdUsed s.cfg) b ∧ Closing s.cfg z ∧
    s.trace = o ++ b ++ z

/-- The whole trace of a run that has ended in DONE (R220): a failed run has none (R223), nor has a
run without entries (R138, R173). -/
def DoneTrace (s : State) : Prop :=
  match s.err with
  | .einval => s.trace = []
  | .etimeout => False
  | .ok =>
    match s.ent with
    | .nor => norInvalid s.cfg = false ∧ NorComplete s
    | .sdram => sdInvalid s.cfg = false ∧ (s.cfg.sdCount = 0 → s.trace = []) ∧
        (s.cfg.sdCount ≠ 0 → SdComplete s)

/-- The trace is the flow of the run's entry, as far as the run has come. -/
def TraceFollowsFlow (s : State) : Prop :=
  match s.st with
  | .idle => s.trace = []
  | .validate => s.trace = []
  | .done => DoneTrace s
  | .gRdOff => s.trace = []
  | .gWrOff => s.trace = [rdElem s.cfg (.bcr 0) s.rmw]
  | .gRdOn => ClosingFollows s
  | .gWrOn => ClosingFollows s
  | .nRdBcr => NorFollows s
  | .nWrBcr => NorFollows s
  | .nWrBtr => NorFollows s
  | .nWrBwtr => NorFollows s
  | .nWrBcrEn => NorFollows s
  | .nNext => NorFollows s
  | .sWrSdcr1 => SdFollows s
  | .sWrSdcr2 => SdFollows s
  | .sWrSdtr1 => SdFollows s
  | .sWrSdtr2 => SdFollows s
  | .sWrCmd => SdFollows s
  | .sDelay => SdFollows s
  | .sBarrier => SdFollows s
  | .sPoll => SdFollows s
  | .sWrSdrtr => SdFollows s
  | .sNext => SdFollows s
  | .fatal => SdFollows s

/-! ### What one element does, as the statements say it -/

/-- The registers of the sequencer (10_state.md R21 to R29, R40), without the model's own fields. -/
structure SeqRegs where
  st   : Fsm
  ent  : Entry
  i    : BitVec 2
  k    : BitVec 3
  dcnt : Nat
  pcnt : Nat
  rmw  : Word
  err  : Err
  cfg  : Cfg
  deriving DecidableEq, Repr

/-- The registers in a state. -/
def regsOf (s : State) : SeqRegs :=
  { st := s.st, ent := s.ent, i := s.i, k := s.k, dcnt := s.dcnt, pcnt := s.pcnt, rmw := s.rmw,
    err := s.err, cfg := s.cfg }

/-- Every byte of the register block, as log 4 holds it, reads in `t` as in `s`. -/
def BlockKept (s t : State) : Prop := ∀ x, readByte t x = readByte s x

/-- Every byte of the register block (log 4) but the four of the word at `a` reads in `t` as in `s`. -/
def BlockKeptOutside (a : Word) (s t : State) : Prop :=
  ∀ x, (∀ n < 4, x ≠ byteAddr a n) → readByte t x = readByte s x

/-- From `s` to `t`, register `r` at address `a` was written whole with `w` (20_memory.md R73): it
holds `w`, no other byte changed, and the write joined the trace (30_encoding.md R100). -/
structure WriteDone (s t : State) (r : Reg) (a w : Word) : Prop where
  word    : readWord t a = w
  others  : BlockKeptOutside a s t
  element : t.trace = s.trace ++ [.wr r a w]

/-- From `s` to `t`, register `r` at address `a` was read (20_memory.md R72): nothing changed in the
block (R76), and the read joined the trace with CTRL's answer. -/
structure ReadDone (s t : State) (r : Reg) (a : Word) : Prop where
  others  : BlockKept s t
  element : t.trace = s.trace ++ [.rd r a (reply s).rdata]

/-- A cycle in which no transaction was requested and no element completed. -/
structure QuietCycle (s t : State) : Prop where
  port    : busPort s = none
  others  : BlockKept s t
  element : t.trace = s.trace

/-! ### Words in a trace -/

/-- The words written to register `r`, in order. -/
def wordsTo (r : Reg) (tr : List TraceElem) : List Word :=
  tr.filterMap fun x =>
    match x with
    | .wr r' _ w => if r' = r then some w else none
    | .rd _ _ _ => none
    | .delay _ => none
    | .barrier => none

/-- The answers to reads of register `r`, in order. -/
def answersFrom (r : Reg) (tr : List TraceElem) : List Word :=
  tr.filterMap fun x =>
    match x with
    | .rd r' _ v => if r' = r then some v else none
    | .wr _ _ _ => none
    | .delay _ => none
    | .barrier => none

/-- The delays, in order. -/
def delaysOf (tr : List TraceElem) : List Nat :=
  tr.filterMap fun x =>
    match x with
    | .delay us => some us
    | .wr _ _ _ => none
    | .rd _ _ _ => none
    | .barrier => none

/-- A register of the NOR entry (20_memory.md R80). -/
def regOfNor : Reg → Bool
  | .bcr _ => true
  | .btr _ => true
  | .bwtr _ => true
  | .sdcr1 => false
  | .sdcr2 => false
  | .sdtr1 => false
  | .sdtr2 => false
  | .sdcmr => false
  | .sdrtr => false
  | .sdsr => false

/-- An element on a register of the NOR entry. -/
def onNorReg : TraceElem → Bool
  | .wr r _ _ => regOfNor r
  | .rd r _ _ => regOfNor r
  | .delay _ => false
  | .barrier => false

/-- A register whose write the trace of this run holds reads back the last word written there. -/
def BlockHoldsTrace (s : State) : Prop :=
  ∀ r w, (wordsTo r s.trace).getLast? = some w → readWord s (addrOf s.cfg r) = w

/-! ### Many cycles -/

/-- `n` clock cycles. -/
def steps : Nat → State → Result
  | 0, s => .next s
  | n + 1, s =>
    match step s with
    | .next t => steps n t
    | .fault f => .fault f
    | .refused r => .refused r

/-- 70_reset_and_hazards.md R276: the length of a valid SDRAM run with `p` SDSR reads whose transactions
are acknowledged in their first cycle. -/
def sdramCycles (s : State) (p : Nat) : Nat :=
  1 + (if s.cfg.family = 2 then 4 else 0) +
    ((sdUsed s.cfg).map fun e =>
      14 + (if e.slot = .slot2 then 2 else 0) + 500 * s.par.cyclesPerUs).sum + p

/-! ### The outer agents -/

/-- HOST asserts no reset from here on (70_reset_and_hazards.md R262 item 2), as its script says. -/
def NoReset (s : State) : Prop :=
  (∀ p ∈ s.hostIn.items, p.rst = false) ∧ ∃ p, s.hostIn.rest = some p ∧ p.rst = false

/-- CTRL acknowledges every transaction from here on in its first cycle (R276, L = 1), as its script
says, and each of its replies satisfies `P`. -/
def PromptWith (P : Word → Prop) (s : State) : Prop :=
  (∀ r ∈ s.busIn.items, r.ack = true ∧ P r.rdata) ∧
  ∃ r, s.busIn.rest = some r ∧ r.ack = true ∧ P r.rdata

/-- CTRL acknowledges when it likes, and each reply that acknowledges satisfies `P`, as its script
says. -/
def AnswersWith (P : Word → Prop) (s : State) : Prop :=
  (∀ r ∈ s.busIn.items, r.ack = true → P r.rdata) ∧
  ∃ r, s.busIn.rest = some r ∧ (r.ack = true → P r.rdata)

/-- CTRL acknowledges every transaction from here on in the end, after any latency (R275), as its script
says: from some reply on, each acknowledges. -/
def AcksInTheEnd (s : State) : Prop := ∃ r, s.busIn.rest = some r ∧ r.ack = true

/-- CTRL's replies come to answer BUSY = 0 for good (60_exceptions.md R230, fairness), as its script
says. -/
def ReadyInTheEnd (s : State) : Prop := ∃ r, s.busIn.rest = some r ∧ busyBit r.rdata = false

/-- CTRL behaves as a plain register in this cycle (60_exceptions.md R230): what it answers to a read
of BCRx is the word last written there, or the free value that stood there before. -/
def PlainAnswer (s : State) : Prop :=
  ∀ b, request s = some { we := false, reg := .bcr b, data := 0 } →
    (reply s).rdata = readWord s (addrOf s.cfg (.bcr b))

end Sys2Proof.Machine
end

