-- ==== Sys2Proof/Certificates/Slice0/Obligations.lean ====
section
/-! DEFINITION. The statements about the machine, from the numbered rules of spec/.

CTRL's reply in the cycle of a step from `s` is `reply (tick s)`: `step` runs `exec` on `tick s`, the
state with the cycle counted. In a statement about `exec i s` it is `reply s`. -/

open Sys2Proof Sys2Proof.Machine

/-! ### Reset and the host port -/

/-- 10_state.md R53: what reset leaves, in a reset cycle of any state (70_reset_and_hazards.md R250)
and in `State.reset`. The cycle requests no transaction, and a reset outside a run leaves the
register block alone. The value of `cfg` is not stated (R53 leaves it open, log 6). -/
def Obligations.ResetLeaves : Prop :=
  (∀ s, (pins s).rst = true → ∃ t, step s = .next t ∧
    regsOf t = { st := .idle, ent := .nor, i := 0, k := 0, dcnt := 0, pcnt := 0, rmw := 0,
                 err := .ok, cfg := t.cfg } ∧
    busy t = false ∧ done t = false ∧ fatal t = false ∧ errCode t = 0 ∧
    busPort s = none ∧ req t = false ∧ (busy s = false → BlockKept s t)) ∧
  regsOf State.reset = { st := .idle, ent := .nor, i := 0, k := 0, dcnt := 0, pcnt := 0, rmw := 0,
                         err := .ok, cfg := State.reset.cfg } ∧
  busy State.reset = false ∧ done State.reset = false ∧ fatal State.reset = false ∧
  errCode State.reset = 0 ∧ req State.reset = false

/-- 10_state.md R26: in IDLE and DONE a start strobe is accepted, NOR before SDRAM, and without one
the sequencer waits. -/
def Obligations.StartAccepted : Prop :=
  ∀ s, (pins s).rst = false → s.st = .idle ∨ s.st = .done → ∃ t, step s = .next t ∧
    BlockKept s t ∧ busPort s = none ∧
    ((pins s).startNor = true →
      regsOf t = { regsOf s with st := .validate, ent := .nor, i := 0, k := 0, err := .ok,
                                 cfg := (pins s).cfg } ∧ t.trace = []) ∧
    ((pins s).startNor = false → (pins s).startSdram = true →
      regsOf t = { regsOf s with st := .validate, ent := .sdram, i := 0, k := 0, err := .ok,
                                 cfg := (pins s).cfg } ∧ t.trace = []) ∧
    ((pins s).startNor = false → (pins s).startSdram = false →
      regsOf t = regsOf s ∧ t.trace = s.trace)

/-- 10_state.md R26, R29; 70_reset_and_hazards.md R266: outside IDLE and DONE, no strobe and no
configuration input has any effect. Two states that differ only in what HOST drives, reset apart,
step to states that differ only in that. -/
def Obligations.HostInputsIgnoredInRun : Prop :=
  ∀ s t h, s.st ≠ .idle → s.st ≠ .done → (pins s).rst = false →
    (pins { s with hostIn := h }).rst = false → step s = .next t →
    step { s with hostIn := h } = .next { t with hostIn := h.tail }

/-! ### The elements of a NOR run (40_norsram_configurator.md) -/

/-- R130, N_RD_BCR. Of the answer, only the preserved bits reach the two writes that use it. -/
def Obligations.NorReadControl : Prop :=
  (∀ s, s.st = .nRdBcr → (norEntry s).bankIdx.toNat < 4 →
    activity s = .issue (.norRdBcr (NorEntry.bank (norEntry s)))) ∧
  (∀ b s, (reply s).ack = true → ∃ t, exec (.norRdBcr b) s = .next t ∧
    ReadDone s t (.bcr b) (s.cfg.base + 8 * zext b) ∧
    regsOf t = { regsOf s with st := .nWrBcr, rmw := (reply s).rdata }) ∧
  (∀ s v, s.st = .nWrBcr ∨ s.st = .nWrBcrEn → v &&& 0xFF000080 = s.rmw &&& 0xFF000080 →
    activity { s with rmw := v } = activity s)

/-- R131, N_WR_BCR. The word keeps bits 31:24 and 7 of `rmw`; its bits 0 and 23:20 are 0. -/
def Obligations.NorWriteControl : Prop :=
  (∀ s, s.st = .nWrBcr → (norEntry s).bankIdx.toNat < 4 → activity s = .issue
    (.norWrBcr (NorEntry.bank (norEntry s)) (norEntry s).ctrl (s.rmw &&& 0xFF000080))) ∧
  (∀ b c pres s, (reply s).ack = true → ∃ t, exec (.norWrBcr b c pres) s = .next t ∧
    WriteDone s t (.bcr b) (s.cfg.base + 8 * zext b) (pres ||| ctrlWord c) ∧
    regsOf t = { regsOf s with st := .nWrBtr }) ∧
  (∀ c v, ((v &&& 0xFF000080) ||| ctrlWord c) &&& 0x00F00001 = 0)

/-- R132 and R133, N_WR_BTR and N_WR_BWTR: both are written, whatever `ext_mode` is. -/
def Obligations.NorWriteTimings : Prop :=
  (∀ s, s.st = .nWrBtr → (norEntry s).bankIdx.toNat < 4 → activity s = .issue
    (.norWrBtr (NorEntry.bank (norEntry s)) (norEntry s).timing)) ∧
  (∀ b m s, (reply s).ack = true → ∃ t, exec (.norWrBtr b m) s = .next t ∧
    WriteDone s t (.btr b) (s.cfg.base + 8 * zext b + 4) (btrWord m) ∧
    regsOf t = { regsOf s with st := .nWrBwtr }) ∧
  (∀ s, s.st = .nWrBwtr → (norEntry s).bankIdx.toNat < 4 → activity s = .issue
    (.norWrBwtr (NorEntry.bank (norEntry s)) (norEntry s).timing.toWrite)) ∧
  (∀ b m s, (reply s).ack = true → ∃ t, exec (.norWrBwtr b m) s = .next t ∧
    WriteDone s t (.bwtr b) (s.cfg.base + 0x104 + 8 * zext b) (bwtrWord m) ∧
    regsOf t = { regsOf s with st := .nWrBcrEn })

/-- R134, N_WR_BCR_EN: the word of N_WR_BCR with bit 0 set and no other bit changed. -/
def Obligations.NorWriteEnable : Prop :=
  (∀ s, s.st = .nWrBcrEn → (norEntry s).bankIdx.toNat < 4 → activity s = .issue
    (.norWrBcrEn (NorEntry.bank (norEntry s)) (norEntry s).ctrl (s.rmw &&& 0xFF000080))) ∧
  (∀ b c pres s, (reply s).ack = true → ∃ t, exec (.norWrBcrEn b c pres) s = .next t ∧
    WriteDone s t (.bcr b) (s.cfg.base + 8 * zext b) (pres ||| ctrlWord c ||| 0x00000001) ∧
    regsOf t = { regsOf s with st := .nNext }) ∧
  (∀ c v, ((v &&& 0xFF000080) ||| ctrlWord c ||| 0x00000001) ^^^ ((v &&& 0xFF000080) ||| ctrlWord c) =
    0x00000001)

/-- R135, N_NEXT, and 42_sdram_sequencer.md R184, S_NEXT: the next entry in list order, the gate's end,
or the successful end of the run. -/
def Obligations.NextEntryStates : Prop :=
  (∀ s, s.st = .nNext → (pins s).rst = false → ∃ t, step s = .next t ∧ QuietCycle s t ∧
    (s.i.toNat + 1 < s.cfg.norCount.toNat →
      regsOf t = { regsOf s with i := s.i + 1, st := .nRdBcr }) ∧
    (s.cfg.norCount.toNat ≤ s.i.toNat + 1 → regsOf t = { regsOf s with err := .ok, st := .done })) ∧
  (∀ s, s.st = .sNext → (pins s).rst = false → ∃ t, step s = .next t ∧ QuietCycle s t ∧
    (s.i.toNat + 1 < s.cfg.sdCount.toNat →
      regsOf t = { regsOf s with i := s.i + 1, st := .sWrSdcr1 }) ∧
    (s.cfg.sdCount.toNat ≤ s.i.toNat + 1 → s.cfg.family = 2 →
      regsOf t = { regsOf s with st := .gRdOn }) ∧
    (s.cfg.sdCount.toNat ≤ s.i.toNat + 1 → s.cfg.family ≠ 2 →
      regsOf t = { regsOf s with err := .ok, st := .done }))

/-- R136, R138, VALIDATE of a NOR run; 60_exceptions.md R221, R223 for the NOR entry: an invalid
configuration ends the run at once and a run of no entries succeeds at once, without a transaction. -/
def Obligations.NorValidation : Prop :=
  ∀ s, s.st = .validate → s.ent = .nor → (pins s).rst = false → ∃ t, step s = .next t ∧
    QuietCycle s t ∧
    (norInvalid s.cfg = true → regsOf t = { regsOf s with err := .einval, st := .done }) ∧
    (s.cfg.norCount = 0 → regsOf t = { regsOf s with err := .ok, st := .done }) ∧
    (norInvalid s.cfg = false → s.cfg.norCount ≠ 0 →
      regsOf t = { regsOf s with i := 0, st := .nRdBcr })

/-- R137: `nor_invalid` is its seven items, with the valid base of 10_state.md R30. -/
def Obligations.NorInvalidItems : Prop :=
  ∀ c : Cfg, norInvalid c = true ↔
    4 < c.norCount.toNat ∨
    (1 ≤ c.norCount.toNat ∧ ¬ (c.base ≠ 0 ∧ c.base ≠ 0xFFFFFFFF ∧ c.base &&& 3 = 0 ∧
      c.base.toNat ≤ 0xFFFFFEA4)) ∨
    (∃ j : BitVec 2, j.toNat < c.norCount.toNat ∧ 3 < (norAt c j).bankIdx.toNat) ∨
    (∃ j : BitVec 2, j.toNat < c.norCount.toNat ∧
      ((norAt c j).ctrlPresent = false ∨ (norAt c j).timingPresent = false)) ∨
    (∃ j : BitVec 2, j.toNat < c.norCount.toNat ∧
      ((norAt c j).timing.clkDiv.toNat < 1 ∨ 16 < (norAt c j).timing.clkDiv.toNat)) ∨
    (∃ j : BitVec 2, j.toNat < c.norCount.toNat ∧
      ((norAt c j).timing.dataLatency.toNat < 2 ∨ 17 < (norAt c j).timing.dataLatency.toNat)) ∨
    (∃ j j' : BitVec 2, j ≠ j' ∧ j.toNat < c.norCount.toNat ∧ j'.toNat < c.norCount.toNat ∧
      (norAt c j).bankIdx = (norAt c j').bankIdx)

/-! ### The gate (43_enable_gate.md) -/

/-- R211 and R212, G_RD_OFF and G_WR_OFF: BCR1 is read, and written back with bit 31 cleared. -/
def Obligations.GateOff : Prop :=
  (∀ s, s.st = .gRdOff → activity s = .issue .gateRdOff) ∧
  (∀ s, (reply s).ack = true → ∃ t, exec .gateRdOff s = .next t ∧
    ReadDone s t (.bcr 0) s.cfg.base ∧
    regsOf t = { regsOf s with st := .gWrOff, rmw := (reply s).rdata }) ∧
  (∀ s t, step s = .next t → t.st = .gRdOff → s.st ≠ .gRdOff → s.st = .validate ∧ s.ent = .sdram ∧
    sdInvalid s.cfg = false ∧ 1 ≤ s.cfg.sdCount.toNat ∧ s.cfg.family = 2) ∧
  (∀ s, s.st = .gWrOff → ∃ kept, activity s = .issue (.gateWrOff kept) ∧
    zext kept = s.rmw &&& 0x7FFFFFFF) ∧
  (∀ kept s, (reply s).ack = true → ∃ t, exec (.gateWrOff kept) s = .next t ∧
    WriteDone s t (.bcr 0) s.cfg.base (zext kept) ∧
    regsOf t = { regsOf s with i := 0, st := .sWrSdcr1 })

/-- R213 and R214, G_RD_ON and G_WR_ON: BCR1 is read again, and written back with bit 31 set; the
run ends in success. -/
def Obligations.GateOn : Prop :=
  (∀ s, s.st = .gRdOn → activity s = .issue .gateRdOn) ∧
  (∀ s, (reply s).ack = true → ∃ t, exec .gateRdOn s = .next t ∧
    ReadDone s t (.bcr 0) s.cfg.base ∧
    regsOf t = { regsOf s with st := .gWrOn, rmw := (reply s).rdata }) ∧
  (∀ s t, step s = .next t → t.st = .gRdOn → s.st ≠ .gRdOn → s.st = .sNext ∧
    s.cfg.sdCount.toNat ≤ s.i.toNat + 1 ∧ s.cfg.family = 2) ∧
  (∀ s, s.st = .gWrOn → ∃ kept, activity s = .issue (.gateWrOn kept) ∧
    zext kept ||| 0x80000000 = s.rmw ||| 0x80000000) ∧
  (∀ kept s, (reply s).ack = true → ∃ t, exec (.gateWrOn kept) s = .next t ∧
    WriteDone s t (.bcr 0) s.cfg.base (zext kept ||| 0x80000000) ∧
    regsOf t = { regsOf s with err := .ok, st := .done })

/-- R213 and 60_exceptions.md R230: where CTRL answers as a plain register, the gate's end puts into
BCR1 the word that stood there, written or not (10_state.md R52), with bit 31 set, and the run is
done. -/
def Obligations.GateOnPlainRegister : Prop :=
  ∀ s u t, s.st = .gRdOn → (pins s).rst = false → (pins u).rst = false → PlainAnswer (tick s) →
    (reply (tick s)).ack = true → step s = .next u → (reply (tick u)).ack = true →
    step u = .next t →
    done t = true ∧ success t = true ∧
      readWord t (addrOf t.cfg (.bcr 0)) = readWord s (addrOf s.cfg (.bcr 0)) ||| 0x80000000

/-! ### The elements of an SDRAM run (42_sdram_sequencer.md) -/

/-- R174 and R175, S_WR_SDCR1 and S_WR_SDCR2: SDCR1 for every entry, then SDCR2 for a slot-2 entry
only. -/
def Obligations.SdramWriteControl : Prop :=
  (∀ s e, s.st = .sWrSdcr1 → sdEntry s = some e → activity s = .issue (.sdWrSdcr1 e.ctrl)) ∧
  (∀ c s e, sdEntry s = some e → (reply s).ack = true → ∃ t, exec (.sdWrSdcr1 c) s = .next t ∧
    WriteDone s t .sdcr1 (s.cfg.base + 0x140) (sdcrFull c) ∧
    regsOf t = { regsOf s with st := if e.slot = .slot2 then .sWrSdcr2 else .sWrSdtr1 }) ∧
  (∀ s e, s.st = .sWrSdcr2 → sdEntry s = some e →
    activity s = .issue (.sdWrSdcr2 e.ctrl.toReduced)) ∧
  (∀ c s, (reply s).ack = true → ∃ t, exec (.sdWrSdcr2 c) s = .next t ∧
    WriteDone s t .sdcr2 (s.cfg.base + 0x144) (sdcrReduced c) ∧
    regsOf t = { regsOf s with st := .sWrSdtr1 }) ∧
  (∀ s t, step s = .next t → t.st = .sWrSdcr2 → s.st ≠ .sWrSdcr2 →
    ∃ e, sdEntry s = some e ∧ e.slot = .slot2)

/-- R176 and R177, S_WR_SDTR1 and S_WR_SDTR2: SDTR1 for every entry, then the same word to SDTR2 for
a slot-2 entry only; then the commands from `k` = 0. -/
def Obligations.SdramWriteTiming : Prop :=
  (∀ s e, s.st = .sWrSdtr1 → sdEntry s = some e → activity s = .issue (.sdWrSdtr1 e.timing)) ∧
  (∀ m s e, sdEntry s = some e → (reply s).ack = true → ∃ t, exec (.sdWrSdtr1 m) s = .next t ∧
    WriteDone s t .sdtr1 (s.cfg.base + 0x148) (sdtrWord m) ∧
    (e.slot = .slot2 → regsOf t = { regsOf s with st := .sWrSdtr2 }) ∧
    (e.slot = .slot1 → regsOf t = { regsOf s with k := 0, st := .sWrCmd })) ∧
  (∀ s e, s.st = .sWrSdtr2 → sdEntry s = some e → activity s = .issue (.sdWrSdtr2 e.timing)) ∧
  (∀ m s, (reply s).ack = true → ∃ t, exec (.sdWrSdtr2 m) s = .next t ∧
    WriteDone s t .sdtr2 (s.cfg.base + 0x14C) (sdtrWord m) ∧
    regsOf t = { regsOf s with k := 0, st := .sWrCmd })

/-- R178, S_WR_CMD: command `k` and the word of 41_sdram_encoder.md R154; `dcnt` is loaded, and only
NORMAL goes straight to the barrier. -/
def Obligations.SdramCommands : Prop :=
  (∀ s e, s.st = .sWrCmd → sdEntry s = some e →
    (s.k = 0 → activity s = .issue (.cmdStartClock e.slot)) ∧
    (s.k = 1 → activity s = .issue (.cmdPrecharge e.slot)) ∧
    (s.k = 2 → activity s = .issue (.cmdAutoRefresh e.slot)) ∧
    (s.k = 3 → activity s = .issue (.cmdWriteMode e.slot e.ctrl.casLatency)) ∧
    (s.k = 4 → activity s = .issue (.cmdNormal e.slot))) ∧
  (∀ s slot cas, (reply s).ack = true → 0 < s.par.cyclesPerUs →
    (∃ t, exec (.cmdStartClock slot) s = .next t ∧
      WriteDone s t .sdcmr (s.cfg.base + 0x150) (ctb slot ||| 0x00000001) ∧
      regsOf t = { regsOf s with dcnt := 200 * s.par.cyclesPerUs, st := .sDelay }) ∧
    (∃ t, exec (.cmdPrecharge slot) s = .next t ∧
      WriteDone s t .sdcmr (s.cfg.base + 0x150) (ctb slot ||| 0x00000002) ∧
      regsOf t = { regsOf s with dcnt := 100 * s.par.cyclesPerUs, st := .sDelay }) ∧
    (∃ t, exec (.cmdAutoRefresh slot) s = .next t ∧
      WriteDone s t .sdcmr (s.cfg.base + 0x150) (ctb slot ||| 0x000000E3) ∧
      regsOf t = { regsOf s with dcnt := 100 * s.par.cyclesPerUs, st := .sDelay }) ∧
    (∃ t, exec (.cmdWriteMode slot cas) s = .next t ∧
      WriteDone s t .sdcmr (s.cfg.base + 0x150) (ctb slot ||| 0x00000004 ||| zext cas <<< 13) ∧
      regsOf t = { regsOf s with dcnt := 100 * s.par.cyclesPerUs, st := .sDelay }) ∧
    (∃ t, exec (.cmdNormal slot) s = .next t ∧
      WriteDone s t .sdcmr (s.cfg.base + 0x150) (ctb slot) ∧
      regsOf t = { regsOf s with dcnt := 0, st := .sBarrier }))

/-- R179, S_DELAY, one cycle of it: `dcnt` counts down, and at 0 the delay ends; there its element joins
the trace (log 8). -/
def Obligations.DelayCounts : Prop :=
  (∀ s, s.st = .sDelay → s.k.toNat < 4 →
    activity s = .issue (.delay (if s.k = 0 then 200 else 100))) ∧
  (∀ us s, 0 < s.dcnt → s.dcnt ≤ 200 * s.par.cyclesPerUs → ∃ t, exec (.delay us) s = .next t ∧
    BlockKept s t ∧ t.busIn = s.busIn ∧
    (1 < s.dcnt → regsOf t = { regsOf s with dcnt := s.dcnt - 1 } ∧ t.trace = s.trace) ∧
    (s.dcnt = 1 → regsOf t = { regsOf s with dcnt := 0, st := .sBarrier } ∧
      t.trace = s.trace ++ [.delay us]))

/-- R180, S_BARRIER: one cycle, no transaction, `pcnt` cleared. It follows every command, at once after
NORMAL and after the delay of the others, and nothing else. -/
def Obligations.BarrierCycle : Prop :=
  (∀ s, s.st = .sBarrier → activity s = .issue .barrier ∧ busPort s = none) ∧
  (∀ s, ∃ t, exec .barrier s = .next t ∧ BlockKept s t ∧ t.busIn = s.busIn ∧
    t.trace = s.trace ++ [.barrier] ∧ regsOf t = { regsOf s with pcnt := 0, st := .sPoll }) ∧
  (∀ s t, step s = .next t → t.st = .sBarrier → s.st ≠ .sBarrier → s.st = .sWrCmd ∨ s.st = .sDelay) ∧
  (∀ s t, (pins s).rst = false → 0 < s.par.cyclesPerUs → step s = .next t →
    (s.st = .sWrCmd → (reply (tick s)).ack = true →
      t.st = if s.k = 4 then .sBarrier else .sDelay) ∧
    (s.st = .sDelay → t.st = .sDelay ∨ t.st = .sBarrier))

/-- R181, S_POLL, R182, advance(), and 60_exceptions.md R224: what an answer does, of which only bit 5
counts. Where POLL_TIMEOUT = 0, `pcnt` does not exist and the model keeps it (10_state.md R25, log 15). -/
def Obligations.PollAnswer : Prop :=
  (∀ s, s.st = .sPoll → activity s = .issue .sdRdSdsr) ∧
  (∀ s, (reply s).ack = true → ∃ t, exec .sdRdSdsr s = .next t ∧
    ReadDone s t .sdsr (s.cfg.base + 0x158) ∧
    ((reply s).rdata.getLsbD 5 = false → s.k.toNat < 4 →
      regsOf t = { regsOf s with k := s.k + 1, st := .sWrCmd }) ∧
    ((reply s).rdata.getLsbD 5 = false → 4 ≤ s.k.toNat →
      regsOf t = { regsOf s with st := .sWrSdrtr }) ∧
    ((reply s).rdata.getLsbD 5 = true → s.par.pollTimeout = 0 →
      regsOf t = { regsOf s with st := .sPoll }) ∧
    ((reply s).rdata.getLsbD 5 = true → 0 < s.par.pollTimeout → s.pcnt + 1 = s.par.pollTimeout →
      regsOf t = { regsOf s with err := .etimeout, st := .fatal }) ∧
    ((reply s).rdata.getLsbD 5 = true → 0 < s.par.pollTimeout → s.pcnt + 1 ≠ s.par.pollTimeout →
      regsOf t = { regsOf s with pcnt := s.pcnt + 1, st := .sPoll }))

/-- R183, S_WR_SDRTR: the doubled reload value. -/
def Obligations.RefreshTimer : Prop :=
  (∀ s e, s.st = .sWrSdrtr → sdEntry s = some e → ∃ ref, activity s = .issue (.sdWrSdrtr ref) ∧
    zext ref <<< 1 = e.refCount <<< 1) ∧
  (∀ ref s, (reply s).ack = true → ∃ t, exec (.sdWrSdrtr ref) s = .next t ∧
    WriteDone s t .sdrtr (s.cfg.base + 0x154) (zext ref <<< 1) ∧
    regsOf t = { regsOf s with st := .sNext })

/-- R171, R173, VALIDATE of an SDRAM run; 43_enable_gate.md R210, R217; 60_exceptions.md R221, R223
for the SDRAM entry. -/
def Obligations.SdramValidation : Prop :=
  ∀ s, s.st = .validate → s.ent = .sdram → (pins s).rst = false → ∃ t, step s = .next t ∧
    QuietCycle s t ∧
    (sdInvalid s.cfg = true → regsOf t = { regsOf s with err := .einval, st := .done }) ∧
    (s.cfg.sdCount = 0 → regsOf t = { regsOf s with err := .ok, st := .done }) ∧
    (sdInvalid s.cfg = false → s.cfg.sdCount ≠ 0 → s.cfg.family = 2 →
      regsOf t = { regsOf s with i := 0, st := .gRdOff }) ∧
    (sdInvalid s.cfg = false → s.cfg.sdCount ≠ 0 → s.cfg.family ≠ 2 →
      regsOf t = { regsOf s with i := 0, st := .sWrSdcr1 })

/-- R172: `sd_invalid` is its five items, with the valid base of 10_state.md R30. -/
def Obligations.SdramInvalidItems : Prop :=
  ∀ c : Cfg, sdInvalid c = true ↔
    2 < c.sdCount.toNat ∨
    (1 ≤ c.sdCount.toNat ∧ ¬ (c.base ≠ 0 ∧ c.base ≠ 0xFFFFFFFF ∧ c.base &&& 3 = 0 ∧
      c.base.toNat ≤ 0xFFFFFEA4)) ∨
    (1 ≤ c.sdCount.toNat ∧ c.family = 3) ∨
    (∃ (j : BitVec 2) (e : SdEntry), sdAt c j = some e ∧ j.toNat < c.sdCount.toNat ∧
      (e.ctrlPresent = false ∨ e.timingPresent = false ∨ e.refPresent = false)) ∨
    (c.sdCount.toNat = 2 ∧ c.sd0.slot = c.sd1.slot)

/-! ### Waiting, and what an element leaves alone -/

/-- 20_memory.md R71: a transaction that is not acknowledged is held, and nothing else happens, in every
state. Only SD_WR_SDCR1 and SD_WR_SDTR1 need a current SDRAM entry (log 13). -/
def Obligations.TransactionWaits : Prop :=
  ∀ i x s, i.action = .bus x →
    ((∃ c, i = .sdWrSdcr1 c) ∨ (∃ m, i = .sdWrSdtr1 m) → sdEntry s ≠ none) → (reply s).ack = false →
    ∃ t, exec i s = .next t ∧ regsOf t = regsOf s ∧ BlockKept s t ∧ t.trace = s.trace ∧
      t.busIn = s.busIn.tail

/-- The frame of memory (20_memory.md R73, R76; the register block as log 4 holds it), for every
element and every outcome that goes on: an element that writes register `r` leaves every byte outside
that register's word as it was, and an element that writes none (a read, DELAY, BARRIER) leaves every
byte. -/
def Obligations.MemoryFrame : Prop :=
  (∀ i r w s t, i.action = Action.write r w → exec i s = .next t →
    BlockKeptOutside (addrOf s.cfg r) s t) ∧
  (∀ i s t, (∀ r w, i.action ≠ Action.write r w) → exec i s = .next t → BlockKept s t)

/-- The frame of the registers (10_state.md R23 to R29, R40), for every element that goes on,
acknowledged or not: only the registers named after each group may change. -/
def Obligations.RegisterFrame : Prop :=
  ∀ s t,
    (∀ b c pres m n, exec (.norWrBcr b c pres) s = .next t ∨ exec (.norWrBtr b m) s = .next t ∨
      exec (.norWrBwtr b n) s = .next t ∨ exec (.norWrBcrEn b c pres) s = .next t →
      regsOf t = { regsOf s with st := t.st }) ∧
    (∀ b, exec (.norRdBcr b) s = .next t ∨ exec .gateRdOff s = .next t ∨
      exec .gateRdOn s = .next t → regsOf t = { regsOf s with st := t.st, rmw := t.rmw }) ∧
    (∀ kept, exec (.gateWrOff kept) s = .next t → regsOf t = { regsOf s with st := t.st, i := t.i }) ∧
    (∀ kept, exec (.gateWrOn kept) s = .next t →
      regsOf t = { regsOf s with st := t.st, err := t.err }) ∧
    (∀ c d ref, exec (.sdWrSdcr1 c) s = .next t ∨ exec (.sdWrSdcr2 d) s = .next t ∨
      exec (.sdWrSdrtr ref) s = .next t → regsOf t = { regsOf s with st := t.st }) ∧
    (∀ m, exec (.sdWrSdtr1 m) s = .next t ∨ exec (.sdWrSdtr2 m) s = .next t →
      regsOf t = { regsOf s with st := t.st, k := t.k }) ∧
    (∀ slot cas us, exec (.cmdStartClock slot) s = .next t ∨ exec (.cmdPrecharge slot) s = .next t ∨
      exec (.cmdAutoRefresh slot) s = .next t ∨ exec (.cmdWriteMode slot cas) s = .next t ∨
      exec (.cmdNormal slot) s = .next t ∨ exec (.delay us) s = .next t →
      regsOf t = { regsOf s with st := t.st, dcnt := t.dcnt }) ∧
    (exec .barrier s = .next t → regsOf t = { regsOf s with st := t.st, pcnt := t.pcnt }) ∧
    (exec .sdRdSdsr s = .next t →
      regsOf t = { regsOf s with st := t.st, k := t.k, pcnt := t.pcnt, err := t.err })

/-! ### The field encoder -/

/-- 40_norsram_configurator.md R120 and R121, by the layout of 10_state.md R41. -/
def Obligations.NorControlWordFields : Prop :=
  ∀ c : NorCtrl,
    (bitsAt (ctrlWord c) 6 1 = if c.memType = 2 then 1 else 0) ∧
    bitsAt (ctrlWord c) 1 1 = c.muxEn ∧ bitsAt (ctrlWord c) 2 2 = c.memType ∧
    bitsAt (ctrlWord c) 4 2 = c.dataWidth ∧ bitsAt (ctrlWord c) 8 1 = c.burstEn ∧
    bitsAt (ctrlWord c) 9 1 = c.waitPol ∧ bitsAt (ctrlWord c) 10 1 = c.wrapMode ∧
    bitsAt (ctrlWord c) 11 1 = c.waitCfg ∧ bitsAt (ctrlWord c) 12 1 = c.writeEn ∧
    bitsAt (ctrlWord c) 13 1 = c.waitEn ∧ bitsAt (ctrlWord c) 14 1 = c.extMode ∧
    bitsAt (ctrlWord c) 15 1 = c.asyncWait ∧ bitsAt (ctrlWord c) 16 3 = c.pageSize ∧
    bitsAt (ctrlWord c) 19 1 = c.writeBurst ∧
    ctrlWord c &&& 0xFFF00081 = 0

/-- 40_norsram_configurator.md R122 to R125, by the layouts of 10_state.md R43 and R44: on the inputs
validation lets through, CLKDIV is the divisor less one and DATLAT the latency less two. -/
def Obligations.NorTimingWordFields : Prop :=
  ∀ t : NorTiming,
    (1 ≤ t.clkDiv.toNat → t.clkDiv.toNat ≤ 16 →
      (bitsAt (btrWord t) 20 4).toNat = t.clkDiv.toNat - 1) ∧
    (2 ≤ t.dataLatency.toNat → t.dataLatency.toNat ≤ 17 →
      (bitsAt (btrWord t) 24 4).toNat = t.dataLatency.toNat - 2) ∧
    bitsAt (btrWord t) 0 4 = t.addrSetup ∧ bitsAt (btrWord t) 4 4 = t.addrHold ∧
    bitsAt (btrWord t) 8 8 = t.dataSetup ∧ bitsAt (btrWord t) 16 4 = t.busTurnaround ∧
    bitsAt (btrWord t) 28 2 = t.accessMode ∧ btrWord t &&& 0xC0000000 = 0 ∧
    bwtrWord t.toWrite = btrWord t &&& 0x300FFFFF

/-- 41_sdram_encoder.md R150 to R152, by the layouts of 10_state.md R45 and R46, and R157: the refresh
word is twice the reload value, modulo 2 to the 32, so bit 0 is 0 and bit 31 of the value is lost. -/
def Obligations.SdramWordFields : Prop :=
  (∀ c : SdramCtrl,
    bitsAt (sdcrFull c) 0 2 = c.noColumns ∧ bitsAt (sdcrFull c) 2 2 = c.noRows ∧
    bitsAt (sdcrFull c) 4 2 = c.memoryWidth ∧ bitsAt (sdcrFull c) 6 1 = c.noBanks ∧
    bitsAt (sdcrFull c) 7 2 = c.casLatency ∧ bitsAt (sdcrFull c) 10 2 = c.sdclk ∧
    bitsAt (sdcrFull c) 12 1 = c.rdBurst ∧ bitsAt (sdcrFull c) 13 2 = c.rdPipeDelay ∧
    sdcrFull c &&& 0xFFFF8200 = 0 ∧ sdcrReduced c.toReduced = sdcrFull c &&& 0x000001FF) ∧
  (∀ t : SdramTiming,
    bitsAt (sdtrWord t) 0 4 = t.tmrd ∧ bitsAt (sdtrWord t) 4 4 = t.txsr ∧
    bitsAt (sdtrWord t) 8 4 = t.tras ∧ bitsAt (sdtrWord t) 12 4 = t.trc ∧
    bitsAt (sdtrWord t) 16 4 = t.twr ∧ bitsAt (sdtrWord t) 20 4 = t.trp ∧
    bitsAt (sdtrWord t) 24 4 = t.trcd ∧ sdtrWord t &&& 0xF0000000 = 0) ∧
  (∀ ref : Word, (sdrtrWord ref).toNat = 2 * ref.toNat % 2 ^ 32 ∧
    (sdrtrWord ref).getLsbD 0 = false ∧ sdrtrWord (ref ^^^ 0x80000000) = sdrtrWord ref)

/-- 41_sdram_encoder.md R153 to R156 and R158 items 1 to 3 and 6, by the layouts of 10_state.md R47
and 30_encoding.md R97 to R99. -/
def Obligations.CommandWordFields : Prop :=
  ∀ (k : Nat) (slot : Slot) (cas : BitVec 2), k ≤ 4 →
    bitsAt (cmdWord k slot cas) 3 2 = (match slot with | .slot1 => 2 | .slot2 => 1) ∧
    (bitsAt (cmdWord k slot cas) 0 3).toNat =
      (if k = 0 then 1 else if k = 1 then 2 else if k = 2 then 3 else if k = 3 then 4 else 0) ∧
    (bitsAt (cmdWord k slot cas) 5 4).toNat = (if k = 2 then 7 else 0) ∧
    bitsAt (cmdWord k slot cas) 9 13 = (if k = 3 then cas.setWidth 13 <<< 4 else 0) ∧
    bitsAt (cmdWord k slot cas) 22 10 = 0

/-! ### Encoding -/

/-- 30_encoding.md R105: every word a row's element writes has the row's fixed bits, and an SDCMR
word exactly one target bit. -/
def Obligations.WrittenWordsMatchRows : Prop :=
  ∀ (i : Instr) (r : Reg) (w : Word), i.wellFormed = true → i.action = Action.write r w →
    w &&& i.rowMask.1 = i.rowMask.2 ∧ (r = .sdcmr → bitsAt w 3 2 = 1 ∨ bitsAt w 3 2 = 2)

/-- 30_encoding.md R102, R104: what the sequencer cannot emit is refused, not taken for a neighbour. The
second word of a code is the model's own (log 9). -/
def Obligations.NotEmittedRefused : Prop :=
  (∀ c r, Code.reg c = .ok r → bitsAt c.ctx 16 2 = 0 → r = .sdcmr →
    5 ≤ (bitsAt c.data 0 3).toNat ∨ bitsAt c.data 3 2 = 0 ∨ bitsAt c.data 3 2 = 3 →
    ∃ e, decodeCode c = .error e) ∧
  (∀ c, (bitsAt c.ctx 16 2).toNat ≤ 1 → (∀ r : Reg, (bitsAt c.ctx 0 16).setWidth 32 ≠ r.offset) →
    ∃ e, decodeCode c = .error e) ∧
  (∀ c r, Code.reg c = .ok r → bitsAt c.ctx 16 2 = 1 → (∀ b, r ≠ .bcr b) → r ≠ .sdsr →
    ∃ e, decodeCode c = .error e)

/-- Decoding the bytes of a well-formed element gives that element, with every operand, and the bytes
after it: the trace decoder of 30_encoding.md R104 over the model's own two-word codes (log 9). -/
def Obligations.DecodeOfEncode : Prop :=
  ∀ (i : Instr) (rest : List Byte), i.wellFormed = true → decode (encode i ++ rest) = .ok (i, rest)

/-- The other direction: a code that decodes stands for a well-formed element, whose own code it is,
but for the data word of a read, which is CTRL's answer (log 9, log 21). -/
def Obligations.EncodeOfDecode : Prop :=
  ∀ (c : Code) (i : Instr), decodeCode c = .ok i → i.wellFormed = true ∧
    (encodeCode i).ctx = c.ctx ∧ (bitsAt c.ctx 16 2 ≠ 1 → (encodeCode i).data = c.data)

/-- Words of the spec's own examples (95_test_vectors.md; R131, R132, R178, R183, R214), each with the
second word of the model's codes (log 9). -/
def Obligations.ExampleWordsDecode : Prop :=
  decodeCode { data := 0x000010D8, ctx := 0x00000000 } =
    .ok (.norWrBcr 0 { memType := 2, dataWidth := 1, writeEn := 1 } 0x00000080) ∧
  decodeCode { data := 0x00110512, ctx := 0x00000004 } =
    .ok (.norWrBtr 0 { addrSetup := 2, addrHold := 1, dataSetup := 5, busTurnaround := 1,
                       clkDiv := 2, dataLatency := 2 }) ∧
  decodeCode { data := 0x00006014, ctx := 0x00040150 } = .ok (.cmdWriteMode .slot1 3) ∧
  decodeCode { data := 0x00000AD4, ctx := 0x00040154 } = .ok (.sdWrSdrtr 1386) ∧
  decodeCode { data := 0x800030DB, ctx := 0x00040000 } = .ok (.gateWrOn 0x000030DB)

/-! ### One step -/

/-- A step runs the decoded element. In a cycle without reset, step is `exec` of the element the FSM's
state issues, on the state with the cycle counted; and an element decoded from bytes, or from a table
word, is what the next step runs once it is placed (log 11, log 12). -/
def Obligations.StepRunsElement : Prop :=
  (∀ s i, (pins s).rst = false → activity s = .issue i → step s = exec i (tick s)) ∧
  (∀ bytes i rest s v, decode bytes = .ok (i, rest) →
    step (promptCycle v (placeInstr i s)) = exec i (tick (promptCycle v (placeInstr i s)))) ∧
  (∀ (nbits w : Nat) (i : Instr) (s : State), decodeTableWord nbits w = some i →
    step (s.withFetchWord nbits w) = exec i (tick (s.withFetchWord nbits w)))

/-- 30_encoding.md R104: every element a state issues is well formed, so its code decodes to it and to
nothing else. -/
def Obligations.IssuedElementsDecode : Prop :=
  ∀ s i, SeqInv s → activity s = .issue i →
    i.wellFormed = true ∧ decode (encode i) = .ok (i, [])

/-- 20_memory.md R70, R71: while a transaction is requested and not acknowledged, `we`, `addr` and
`wdata` are held, unless HOST resets. -/
def Obligations.RequestHeld : Prop :=
  ∀ s t p, busPort s = some p → (reply (tick s)).ack = false → step s = .next t →
    t.st = s.st ∧ ((pins t).rst = false → busPort t = some p)

/-- 20_memory.md R73; 30_encoding.md R100: the register block, as the model holds it, changes only by an
acknowledged write, at the four bytes of the word at the port's address and to the port's data, or
becomes a fresh free value in a reset during a run (70_reset_and_hazards.md R253; log 16). That it
changes by nothing else is the model's choice (log 4): CTRL may change its own registers, SDSR above all and any
after FATAL, and the model does not show that. -/
def Obligations.BlockChangesByWrites : Prop :=
  ∀ s t x, step s = .next t → readByte t x ≠ readByte s x →
    ((pins s).rst = true ∧ busy s = true) ∨
    (∃ p, busPort s = some p ∧ p.we = true ∧ (reply (tick s)).ack = true ∧
      ∃ n < 4, x = byteAddr p.addr n ∧ readByte t x = byteOf p.wdata n)

/-- 30_encoding.md R100: the trace, a field of the model's own (log 8), is what the bus port shows. An
acknowledged transaction adds its element, one that waits adds none, and a cycle without a transaction
adds no bus element. -/
def Obligations.TraceIsPortHistory : Prop :=
  ∀ s t, (pins s).rst = false → step s = .next t →
    (∀ p, busPort s = some p →
      ((reply (tick s)).ack = true → ∃ r, p.addr = addrOf s.cfg r ∧
        t.trace = s.trace ++
          [if p.we then .wr r p.addr p.wdata else .rd r p.addr (reply (tick s)).rdata]) ∧
      ((reply (tick s)).ack = false → t.trace = s.trace)) ∧
    (busPort s = none → t.trace = [] ∨ t.trace = s.trace ∨ t.trace = s.trace ++ [.barrier] ∨
      ∃ us, t.trace = s.trace ++ [.delay us])

/-- 20_memory.md R78, R79: every address on the port is aligned, at a register of R80, and does not
wrap. -/
def Obligations.AddressesAligned : Prop :=
  ∀ s p, SeqInv s → busPort s = some p → p.addr &&& 3 = 0 ∧
    ∃ r : Reg, p.addr.toNat = s.cfg.base.toNat + r.offset.toNat ∧ p.addr.toNat ≤ 0xFFFFFFFC

/-- 10_state.md R51; 30_encoding.md R104; 40_norsram_configurator.md R140: a NOR run reaches BCR, BTR
and BWTR registers and reads only BCR; an SDRAM run reaches BCR1 in the gate only, else SDRAM
registers, and reads only BCR1 and SDSR. -/
def Obligations.RegistersPerEntry : Prop :=
  ∀ s x, request s = some x →
    (inNorRun s.st = true → (∃ b, x.reg = .bcr b) ∨
      (x.we = true ∧ ∃ b, x.reg = .btr b ∨ x.reg = .bwtr b)) ∧
    (inGate s.st = true → x.reg = .bcr 0) ∧
    (inSdEntry s.st = true → regOfNor x.reg = false ∧ (x.we = false ↔ x.reg = .sdsr)) ∧
    (inNorRun s.st = true ∨ inGate s.st = true ∨ inSdEntry s.st = true)

/-- 60_exceptions.md R220, R221, R224, 10_state.md R27, R28: DONE is entered from VALIDATE, N_NEXT,
S_NEXT and G_WR_ON only, FATAL only by the last busy answer a bounded poll allows, and `err` becomes
EINVAL only in VALIDATE of an invalid configuration and ETIMEOUT only with FATAL. -/
def Obligations.OutcomesEntered : Prop :=
  ∀ s t, step s = .next t →
    (t.st = .done → s.st = .done ∨ s.st = .validate ∨ s.st = .nNext ∨ s.st = .sNext ∨
      (s.st = .gWrOn ∧ (reply (tick s)).ack = true)) ∧
    (t.st = .fatal → s.st = .fatal ∨ (s.st = .sPoll ∧ (reply (tick s)).ack = true ∧
      (reply (tick s)).rdata.getLsbD 5 = true ∧ 0 < s.par.pollTimeout ∧
      s.pcnt + 1 = s.par.pollTimeout)) ∧
    (t.err = .einval → s.err = .einval ∨ (s.st = .validate ∧ t.st = .done ∧
      ((s.ent = .nor ∧ norInvalid s.cfg = true) ∨ (s.ent = .sdram ∧ sdInvalid s.cfg = true)))) ∧
    (t.err = .etimeout → s.err = .etimeout ∨ t.st = .fatal)

/-- 10_state.md R22 to R25, R28, R29, R39, R40: each register changes only where a rule names it; a
reset apart. -/
def Obligations.RegisterWriters : Prop :=
  ∀ s t, (pins s).rst = false → step s = .next t →
    t.par = s.par ∧
    (t.cfg ≠ s.cfg ∨ t.ent ≠ s.ent → (s.st = .idle ∨ s.st = .done) ∧ t.st = .validate ∧
      t.cfg = (pins s).cfg) ∧
    (t.rmw ≠ s.rmw → (s.st = .nRdBcr ∨ s.st = .gRdOff ∨ s.st = .gRdOn) ∧
      (reply (tick s)).ack = true ∧ t.rmw = (reply (tick s)).rdata) ∧
    (t.dcnt ≠ s.dcnt → s.st = .sWrCmd ∨ s.st = .sDelay) ∧
    (t.pcnt ≠ s.pcnt → s.st = .sBarrier ∨ s.st = .sPoll) ∧
    (t.k ≠ s.k → t.st = .validate ∨ t.st = .sWrCmd) ∧
    (t.i ≠ s.i → t.st = .validate ∨ s.st = .validate ∨ s.st = .nNext ∨ s.st = .sNext ∨
      s.st = .gWrOff) ∧
    (t.err ≠ s.err → t.st = .validate ∨ t.st = .done ∨ t.st = .fatal)

/-- 60_exceptions.md R225, R231: FATAL requests nothing, shows its outputs, ignores every strobe, and
only reset leaves it. That the register block stays as it is, is the model's choice (log 4). -/
def Obligations.FatalSticky : Prop :=
  ∀ s, s.st = .fatal →
    busPort s = none ∧ fatal s = true ∧ done s = false ∧ busy s = false ∧
    (SeqInv s → s.err = .etimeout) ∧
    ((pins s).rst = false → ∃ t, step s = .next t ∧ regsOf t = regsOf s ∧ BlockKept s t ∧
      t.trace = s.trace) ∧
    (∀ t, step s = .next t → t.st ≠ .fatal → (pins s).rst = true ∧ t.st = .idle)

/-- 43_enable_gate.md R215: off FAM_GATED no run is ever in a gate state and no transaction of an SDRAM
run touches a NOR register, and every step of a run is the same on the two plain families. -/
def Obligations.PlainFamiliesAlike : Prop :=
  (∀ s, SeqInv s → s.cfg.family ≠ 2 → inGate s.st = false) ∧
  (∀ s x, SeqInv s → s.ent = .sdram → s.cfg.family ≠ 2 → busy s = true → request s = some x →
    regOfNor x.reg = false) ∧
  (∀ s t, s.cfg.family = 0 → (pins s).rst = false → s.st ≠ .idle → s.st ≠ .done →
    step s = .next t →
    step { s with cfg := { s.cfg with family := 1 } } =
      .next { t with cfg := { t.cfg with family := 1 } })

/-! ### Invariants -/

/-- The three invariants hold right after reset. -/
def Obligations.InvariantsAtReset : Prop :=
  SeqInv State.reset ∧ TraceFollowsFlow State.reset ∧ BlockHoldsTrace State.reset

/-- Every step keeps the invariant of the registers: the canonical register block, a valid
configuration and a current entry in every run state, `k` at most 4, both counters in their registers,
`err` agreeing with `st`. -/
def Obligations.RegisterInvariantKept : Prop :=
  ∀ s t, SeqInv s → step s = .next t → SeqInv t

/-- 60_exceptions.md R227: no exception but the outcomes exists. A state that satisfies the invariant
always has a next state. -/
def Obligations.NothingStops : Prop :=
  ∀ s, SeqInv s → ∃ t, step s = .next t

/-- 40_norsram_configurator.md R127, R136; 42_sdram_sequencer.md R171; 43_enable_gate.md R210: every
step keeps the trace on the flow of its entry. -/
def Obligations.TraceFlowKept : Prop :=
  ∀ s t, SeqInv s → TraceFollowsFlow s → step s = .next t → TraceFollowsFlow t

/-- 20_memory.md R73, R83: every step keeps the register block (log 4) holding, for each register, the
last word that this run's trace (log 8) wrote there. -/
def Obligations.BlockHoldsTraceKept : Prop :=
  ∀ s t, BlockHoldsTrace s → step s = .next t → BlockHoldsTrace t

/-! ### Whole runs -/

/-- 40_norsram_configurator.md R127, R141 item 4: a successful NOR run has five elements an entry, in
list order: the BCR read, then the BCR, BTR, BWTR and BCR writes. -/
def Obligations.NorRunElements : Prop :=
  ∀ s, SeqInv s → TraceFollowsFlow s → success s = true → s.ent = .nor →
    s.trace.length = 5 * s.cfg.norCount.toNat ∧
    ∀ j : BitVec 2, j.toNat < s.cfg.norCount.toNat → ∃ v,
      (s.trace.drop (5 * j.toNat)).take 5 = norEntryFlow s.cfg (norAt s.cfg j) v

/-- 42_sdram_sequencer.md R187: the words a successful SDRAM run has written to each register, its
delays, its barriers and its reads. -/
def Obligations.SdramRunWrites : Prop :=
  ∀ s, SeqInv s → TraceFollowsFlow s → success s = true → s.ent = .sdram →
    wordsTo .sdcr1 s.trace = (sdUsed s.cfg).map (fun e => sdcrFull e.ctrl) ∧
    wordsTo .sdcr2 s.trace =
      ((sdUsed s.cfg).filter (fun e => e.slot == .slot2)).map (fun e => sdcrReduced e.ctrl.toReduced) ∧
    wordsTo .sdtr1 s.trace = (sdUsed s.cfg).map (fun e => sdtrWord e.timing) ∧
    wordsTo .sdtr2 s.trace =
      ((sdUsed s.cfg).filter (fun e => e.slot == .slot2)).map (fun e => sdtrWord e.timing) ∧
    wordsTo .sdcmr s.trace = (sdUsed s.cfg).flatMap
      (fun e => (List.range 5).map fun k => cmdWord k e.slot e.ctrl.casLatency) ∧
    wordsTo .sdrtr s.trace = (sdUsed s.cfg).map (fun e => sdrtrWord e.refCount) ∧
    delaysOf s.trace = (sdUsed s.cfg).flatMap (fun _ => [200, 100, 100, 100]) ∧
    s.trace.count .barrier = 5 * (sdUsed s.cfg).length ∧
    5 * (sdUsed s.cfg).length ≤ (answersFrom .sdsr s.trace).length

/-- 43_enable_gate.md R218, R216: on FAM_GATED a successful SDRAM run with entries begins and ends with
the gate and touches no NOR register between; one that ends in FATAL begins with the gate's opening
and has no closing. -/
def Obligations.GateWrapsRun : Prop :=
  ∀ s, SeqInv s → TraceFollowsFlow s → s.ent = .sdram → s.cfg.family = 2 →
    (success s = true → s.cfg.sdCount ≠ 0 → ∃ v w mid,
      s.trace = [.rd (.bcr 0) s.cfg.base v, .wr (.bcr 0) s.cfg.base (v &&& 0x7FFFFFFF)] ++ mid ++
        [.rd (.bcr 0) s.cfg.base w, .wr (.bcr 0) s.cfg.base (w ||| 0x80000000)] ∧
      mid.any onNorReg = false) ∧
    (fatal s = true → ∃ v rest,
      s.trace = [.rd (.bcr 0) s.cfg.base v, .wr (.bcr 0) s.cfg.base (v &&& 0x7FFFFFFF)] ++ rest ∧
      rest.any onNorReg = false)

/-- 70_reset_and_hazards.md R265: a command after the first, and the refresh-timer write, are requested
only when the last element is an SDSR read with BUSY = 0. -/
def Obligations.NoCommandWhileBusy : Prop :=
  ∀ s, SeqInv s → TraceFollowsFlow s → (s.st = .sWrCmd ∧ 0 < s.k.toNat) ∨ s.st = .sWrSdrtr →
    ∃ v, s.trace.getLast? = some (.rd .sdsr (s.cfg.base + 0x158) v) ∧ v.getLsbD 5 = false

/-- 42_sdram_sequencer.md R179, 70_reset_and_hazards.md R275, R277: S_DELAY lasts exactly the cycles
loaded into `dcnt`, without a transaction, and the barrier follows. -/
def Obligations.DelayLastsExactly : Prop :=
  ∀ s, SeqInv s → NoReset s → s.st = .sDelay →
    (∀ n < s.dcnt, ∃ t, steps n s = .next t ∧ t.st = .sDelay ∧ t.dcnt = s.dcnt - n ∧
      busPort t = none ∧ t.trace = s.trace) ∧
    (∃ t, steps s.dcnt s = .next t ∧ t.st = .sBarrier ∧ t.dcnt = 0 ∧
      t.trace = s.trace ++ [.delay (delayUs s.k.toNat)])

/-- 60_exceptions.md R226: with POLL_TIMEOUT = 0, a poll whose reads all return BUSY = 1, whenever CTRL
acknowledges them, never ends. After any number of cycles the machine is in S_POLL, busy and requesting
an SDSR read, and the trace has grown by SDSR reads alone, at most one a cycle, and one every cycle where
CTRL acknowledges at once. -/
def Obligations.PollHangs : Prop :=
  ∀ s n, NoReset s → AnswersWith (fun v => v.getLsbD 5 = true) s → s.st = .sPoll →
    s.par.pollTimeout = 0 → ∃ t vs, steps n s = .next t ∧ t.st = .sPoll ∧ busy t = true ∧
      done t = false ∧ fatal t = false ∧ t.err = s.err ∧
      t.trace = s.trace ++ pollReads s.cfg vs ∧ vs.all busyBit = true ∧ vs.length ≤ n ∧
      (PromptWith (fun _ => True) s → vs.length = n) ∧
      ∃ p, busPort t = some p ∧ p.we = false ∧ p.addr = s.cfg.base + 0x158

/-- 60_exceptions.md R224: with POLL_TIMEOUT > 0, the POLL_TIMEOUT-th busy answer of a poll, and no
earlier one, ends the run in FATAL with ETIMEOUT. -/
def Obligations.PollTimesOut : Prop :=
  ∀ s, NoReset s → PromptWith (fun v => v.getLsbD 5 = true) s → s.st = .sPoll → s.pcnt = 0 →
    0 < s.par.pollTimeout →
    (∀ n < s.par.pollTimeout, ∃ t, steps n s = .next t ∧ t.st = .sPoll ∧ t.pcnt = n) ∧
    (∃ t, steps s.par.pollTimeout s = .next t ∧ t.st = .fatal ∧ t.err = .etimeout ∧
      t.i = s.i ∧ t.k = s.k ∧ BlockKept s t ∧
      (answersFrom .sdsr t.trace).length = (answersFrom .sdsr s.trace).length + s.par.pollTimeout)

/-- 70_reset_and_hazards.md R276: with every transaction acknowledged in its first cycle, a valid NOR
run of `n` entries takes 1 + 6n cycles from VALIDATE to DONE. -/
def Obligations.NorRunLength : Prop :=
  ∀ s, s.st = .validate → s.ent = .nor → norInvalid s.cfg = false → 1 ≤ s.cfg.norCount.toNat →
    NoReset s → PromptWith (fun _ => True) s →
    (∀ n < 1 + 6 * s.cfg.norCount.toNat, ∃ t, steps n s = .next t ∧ busy t = true) ∧
    (∃ t, steps (1 + 6 * s.cfg.norCount.toNat) s = .next t ∧ success t = true)

/-- 70_reset_and_hazards.md R276: a valid SDRAM run whose transactions are acknowledged in their first
cycle. A run that first stops being busy in success has taken the cycles of R276 for the SDSR reads its
trace holds; with unbounded polls it does so whenever CTRL answers BUSY = 0 in the end
(60_exceptions.md R230); and where every poll reads BUSY = 0 at once it does so with five reads an
entry. -/
def Obligations.SdramRunLength : Prop :=
  ∀ s, SeqInv s → TraceFollowsFlow s → s.st = .validate → s.ent = .sdram → sdInvalid s.cfg = false →
    1 ≤ s.cfg.sdCount.toNat → NoReset s → PromptWith (fun _ => True) s →
    (∀ n t, steps n s = .next t → success t = true →
      (∀ m < n, ∃ u, steps m s = .next u ∧ busy u = true) →
      n = sdramCycles s (answersFrom .sdsr t.trace).length) ∧
    (s.par.pollTimeout = 0 → ReadyInTheEnd s → ∃ n t, steps n s = .next t ∧ success t = true ∧
      (∀ m < n, ∃ u, steps m s = .next u ∧ busy u = true)) ∧
    (PromptWith (fun v => v.getLsbD 5 = false) s →
      (∀ m < sdramCycles s (5 * (sdUsed s.cfg).length), ∃ u, steps m s = .next u ∧ busy u = true) ∧
      ∃ t, steps (sdramCycles s (5 * (sdUsed s.cfg).length)) s = .next t ∧ success t = true)

/-- 60_exceptions.md R230: with POLL_TIMEOUT > 0 every run terminates, whatever CTRL answers and whatever
the latency of its acknowledges (70_reset_and_hazards.md R275), so long as they come. -/
def Obligations.BoundedPollTerminates : Prop :=
  ∀ s, SeqInv s → 0 < s.par.pollTimeout → NoReset s → AcksInTheEnd s →
    ∃ n t, steps n s = .next t ∧ busy t = false
end

