-- ==== Sys2Proof/Laws/Decode.lean ====
section
/-! SUPPORT. Small lemmas of the encoder and the decoder: the bits of `field`, the register map, the
second word of a code, bytes of words. -/

namespace Sys2Proof

/-- Bit `n` of a placed field. -/
@[simp] theorem getLsbD_field (v : Word) (shift width n : Nat) (hw : width ≤ 32) :
    (field v shift width).getLsbD n =
      (decide (n < 32) && decide (shift ≤ n) && decide (n < shift + width) && v.getLsbD (n - shift)) := by
  simp only [field, BitVec.getLsbD_shiftLeft, BitVec.getLsbD_and]
  rw [BitVec.getLsbD_ofNat, Nat.testBit_two_pow_sub_one]
  by_cases h1 : n < 32
  · by_cases h2 : shift ≤ n
    · by_cases h3 : n < shift + width
      · simp [h1, h2, h3, show ¬ n < shift by omega, show n - shift < 32 by omega,
          show n - shift < width by omega]
      · simp [h1, h2, h3, show ¬ n - shift < width by omega]
    · simp [h1, h2, show n < shift by omega]
  · simp [h1]

theorem Reg.ofOffset_offset (r : Reg) : Reg.ofOffset r.offset = some r := by
  have h : ∀ r ∈ Reg.all, Reg.ofOffset r.offset = some r := by decide
  have ha : ∀ b : BitVec 2, Reg.bcr b ∈ Reg.all ∧ Reg.btr b ∈ Reg.all ∧ Reg.bwtr b ∈ Reg.all := by
    decide
  cases r with
  | bcr b => exact h _ (ha b).1
  | btr b => exact h _ (ha b).2.1
  | bwtr b => exact h _ (ha b).2.2
  | sdcr1 => exact h _ (by decide)
  | sdcr2 => exact h _ (by decide)
  | sdtr1 => exact h _ (by decide)
  | sdtr2 => exact h _ (by decide)
  | sdcmr => exact h _ (by decide)
  | sdrtr => exact h _ (by decide)
  | sdsr => exact h _ (by decide)

theorem Reg.offset_of_ofOffset {off : Word} {r : Reg} (h : Reg.ofOffset off = some r) :
    r.offset = off := by
  simpa using List.find?_some h

theorem Reg.mem_all (r : Reg) : r ∈ Reg.all := List.mem_of_find?_eq_some (Reg.ofOffset_offset r)

end Sys2Proof
end

