-- ==== Sys2Proof/Laws/State.lean ====
section
/-! SUPPORT. One lemma per field of State and per update of it, so that no proof unfolds an update. -/

namespace Sys2Proof.Machine

@[simp] theorem tick_st (s : State) : (tick s).st = s.st := rfl
@[simp] theorem tick_ent (s : State) : (tick s).ent = s.ent := rfl
@[simp] theorem tick_i (s : State) : (tick s).i = s.i := rfl
@[simp] theorem tick_k (s : State) : (tick s).k = s.k := rfl
@[simp] theorem tick_dcnt (s : State) : (tick s).dcnt = s.dcnt := rfl
@[simp] theorem tick_pcnt (s : State) : (tick s).pcnt = s.pcnt := rfl
@[simp] theorem tick_rmw (s : State) : (tick s).rmw = s.rmw := rfl
@[simp] theorem tick_err (s : State) : (tick s).err = s.err := rfl
@[simp] theorem tick_cfg (s : State) : (tick s).cfg = s.cfg := rfl
@[simp] theorem tick_mem (s : State) : (tick s).mem = s.mem := rfl
@[simp] theorem tick_era (s : State) : (tick s).era = s.era := rfl
@[simp] theorem tick_par (s : State) : (tick s).par = s.par := rfl
@[simp] theorem tick_hostIn (s : State) : (tick s).hostIn = s.hostIn.tail := rfl
@[simp] theorem tick_busIn (s : State) : (tick s).busIn = s.busIn := rfl
@[simp] theorem tick_now (s : State) : (tick s).now = s.now + 1 := rfl
@[simp] theorem tick_trace (s : State) : (tick s).trace = s.trace := rfl

@[simp] theorem takeReply_st (s : State) : (takeReply s).st = s.st := rfl
@[simp] theorem takeReply_ent (s : State) : (takeReply s).ent = s.ent := rfl
@[simp] theorem takeReply_i (s : State) : (takeReply s).i = s.i := rfl
@[simp] theorem takeReply_k (s : State) : (takeReply s).k = s.k := rfl
@[simp] theorem takeReply_dcnt (s : State) : (takeReply s).dcnt = s.dcnt := rfl
@[simp] theorem takeReply_pcnt (s : State) : (takeReply s).pcnt = s.pcnt := rfl
@[simp] theorem takeReply_rmw (s : State) : (takeReply s).rmw = s.rmw := rfl
@[simp] theorem takeReply_err (s : State) : (takeReply s).err = s.err := rfl
@[simp] theorem takeReply_cfg (s : State) : (takeReply s).cfg = s.cfg := rfl
@[simp] theorem takeReply_mem (s : State) : (takeReply s).mem = s.mem := rfl
@[simp] theorem takeReply_era (s : State) : (takeReply s).era = s.era := rfl
@[simp] theorem takeReply_par (s : State) : (takeReply s).par = s.par := rfl
@[simp] theorem takeReply_hostIn (s : State) : (takeReply s).hostIn = s.hostIn := rfl
@[simp] theorem takeReply_busIn (s : State) : (takeReply s).busIn = s.busIn.tail := rfl
@[simp] theorem takeReply_now (s : State) : (takeReply s).now = s.now := rfl
@[simp] theorem takeReply_trace (s : State) : (takeReply s).trace = s.trace := rfl

@[simp] theorem emit_st (e : TraceElem) (s : State) : (emit e s).st = s.st := rfl
@[simp] theorem emit_ent (e : TraceElem) (s : State) : (emit e s).ent = s.ent := rfl
@[simp] theorem emit_i (e : TraceElem) (s : State) : (emit e s).i = s.i := rfl
@[simp] theorem emit_k (e : TraceElem) (s : State) : (emit e s).k = s.k := rfl
@[simp] theorem emit_dcnt (e : TraceElem) (s : State) : (emit e s).dcnt = s.dcnt := rfl
@[simp] theorem emit_pcnt (e : TraceElem) (s : State) : (emit e s).pcnt = s.pcnt := rfl
@[simp] theorem emit_rmw (e : TraceElem) (s : State) : (emit e s).rmw = s.rmw := rfl
@[simp] theorem emit_err (e : TraceElem) (s : State) : (emit e s).err = s.err := rfl
@[simp] theorem emit_cfg (e : TraceElem) (s : State) : (emit e s).cfg = s.cfg := rfl
@[simp] theorem emit_mem (e : TraceElem) (s : State) : (emit e s).mem = s.mem := rfl
@[simp] theorem emit_era (e : TraceElem) (s : State) : (emit e s).era = s.era := rfl
@[simp] theorem emit_par (e : TraceElem) (s : State) : (emit e s).par = s.par := rfl
@[simp] theorem emit_hostIn (e : TraceElem) (s : State) : (emit e s).hostIn = s.hostIn := rfl
@[simp] theorem emit_busIn (e : TraceElem) (s : State) : (emit e s).busIn = s.busIn := rfl
@[simp] theorem emit_now (e : TraceElem) (s : State) : (emit e s).now = s.now := rfl
@[simp] theorem emit_trace (e : TraceElem) (s : State) : (emit e s).trace = s.trace ++ [e] := rfl

@[simp] theorem performWrite_st (r : Reg) (w : Word) (s : State) : (performWrite r w s).st = s.st := rfl
@[simp] theorem performWrite_ent (r : Reg) (w : Word) (s : State) : (performWrite r w s).ent = s.ent := rfl
@[simp] theorem performWrite_i (r : Reg) (w : Word) (s : State) : (performWrite r w s).i = s.i := rfl
@[simp] theorem performWrite_k (r : Reg) (w : Word) (s : State) : (performWrite r w s).k = s.k := rfl
@[simp] theorem performWrite_dcnt (r : Reg) (w : Word) (s : State) : (performWrite r w s).dcnt = s.dcnt := rfl
@[simp] theorem performWrite_pcnt (r : Reg) (w : Word) (s : State) : (performWrite r w s).pcnt = s.pcnt := rfl
@[simp] theorem performWrite_rmw (r : Reg) (w : Word) (s : State) : (performWrite r w s).rmw = s.rmw := rfl
@[simp] theorem performWrite_err (r : Reg) (w : Word) (s : State) : (performWrite r w s).err = s.err := rfl
@[simp] theorem performWrite_cfg (r : Reg) (w : Word) (s : State) : (performWrite r w s).cfg = s.cfg := rfl
@[simp] theorem performWrite_mem (r : Reg) (w : Word) (s : State) : (performWrite r w s).mem = writeWord s.mem (addrOf s.cfg r) w := rfl
@[simp] theorem performWrite_era (r : Reg) (w : Word) (s : State) : (performWrite r w s).era = s.era := rfl
@[simp] theorem performWrite_par (r : Reg) (w : Word) (s : State) : (performWrite r w s).par = s.par := rfl
@[simp] theorem performWrite_hostIn (r : Reg) (w : Word) (s : State) : (performWrite r w s).hostIn = s.hostIn := rfl
@[simp] theorem performWrite_busIn (r : Reg) (w : Word) (s : State) : (performWrite r w s).busIn = s.busIn := rfl
@[simp] theorem performWrite_now (r : Reg) (w : Word) (s : State) : (performWrite r w s).now = s.now := rfl
@[simp] theorem performWrite_trace (r : Reg) (w : Word) (s : State) : (performWrite r w s).trace = s.trace ++ [.wr r (addrOf s.cfg r) w] := rfl

@[simp] theorem goto_st (t : Fsm) (s : State) : (goto t s).st = t := rfl
@[simp] theorem goto_ent (t : Fsm) (s : State) : (goto t s).ent = s.ent := rfl
@[simp] theorem goto_i (t : Fsm) (s : State) : (goto t s).i = s.i := rfl
@[simp] theorem goto_k (t : Fsm) (s : State) : (goto t s).k = s.k := rfl
@[simp] theorem goto_dcnt (t : Fsm) (s : State) : (goto t s).dcnt = s.dcnt := rfl
@[simp] theorem goto_pcnt (t : Fsm) (s : State) : (goto t s).pcnt = s.pcnt := rfl
@[simp] theorem goto_rmw (t : Fsm) (s : State) : (goto t s).rmw = s.rmw := rfl
@[simp] theorem goto_err (t : Fsm) (s : State) : (goto t s).err = s.err := rfl
@[simp] theorem goto_cfg (t : Fsm) (s : State) : (goto t s).cfg = s.cfg := rfl
@[simp] theorem goto_mem (t : Fsm) (s : State) : (goto t s).mem = s.mem := rfl
@[simp] theorem goto_era (t : Fsm) (s : State) : (goto t s).era = s.era := rfl
@[simp] theorem goto_par (t : Fsm) (s : State) : (goto t s).par = s.par := rfl
@[simp] theorem goto_hostIn (t : Fsm) (s : State) : (goto t s).hostIn = s.hostIn := rfl
@[simp] theorem goto_busIn (t : Fsm) (s : State) : (goto t s).busIn = s.busIn := rfl
@[simp] theorem goto_now (t : Fsm) (s : State) : (goto t s).now = s.now := rfl
@[simp] theorem goto_trace (t : Fsm) (s : State) : (goto t s).trace = s.trace := rfl

@[simp] theorem latch_st (v : Word) (s : State) : (latch v s).st = s.st := rfl
@[simp] theorem latch_ent (v : Word) (s : State) : (latch v s).ent = s.ent := rfl
@[simp] theorem latch_i (v : Word) (s : State) : (latch v s).i = s.i := rfl
@[simp] theorem latch_k (v : Word) (s : State) : (latch v s).k = s.k := rfl
@[simp] theorem latch_dcnt (v : Word) (s : State) : (latch v s).dcnt = s.dcnt := rfl
@[simp] theorem latch_pcnt (v : Word) (s : State) : (latch v s).pcnt = s.pcnt := rfl
@[simp] theorem latch_rmw (v : Word) (s : State) : (latch v s).rmw = v := rfl
@[simp] theorem latch_err (v : Word) (s : State) : (latch v s).err = s.err := rfl
@[simp] theorem latch_cfg (v : Word) (s : State) : (latch v s).cfg = s.cfg := rfl
@[simp] theorem latch_mem (v : Word) (s : State) : (latch v s).mem = s.mem := rfl
@[simp] theorem latch_era (v : Word) (s : State) : (latch v s).era = s.era := rfl
@[simp] theorem latch_par (v : Word) (s : State) : (latch v s).par = s.par := rfl
@[simp] theorem latch_hostIn (v : Word) (s : State) : (latch v s).hostIn = s.hostIn := rfl
@[simp] theorem latch_busIn (v : Word) (s : State) : (latch v s).busIn = s.busIn := rfl
@[simp] theorem latch_now (v : Word) (s : State) : (latch v s).now = s.now := rfl
@[simp] theorem latch_trace (v : Word) (s : State) : (latch v s).trace = s.trace := rfl

@[simp] theorem firstEntry_st (s : State) : (firstEntry s).st = s.st := rfl
@[simp] theorem firstEntry_ent (s : State) : (firstEntry s).ent = s.ent := rfl
@[simp] theorem firstEntry_i (s : State) : (firstEntry s).i = 0 := rfl
@[simp] theorem firstEntry_k (s : State) : (firstEntry s).k = s.k := rfl
@[simp] theorem firstEntry_dcnt (s : State) : (firstEntry s).dcnt = s.dcnt := rfl
@[simp] theorem firstEntry_pcnt (s : State) : (firstEntry s).pcnt = s.pcnt := rfl
@[simp] theorem firstEntry_rmw (s : State) : (firstEntry s).rmw = s.rmw := rfl
@[simp] theorem firstEntry_err (s : State) : (firstEntry s).err = s.err := rfl
@[simp] theorem firstEntry_cfg (s : State) : (firstEntry s).cfg = s.cfg := rfl
@[simp] theorem firstEntry_mem (s : State) : (firstEntry s).mem = s.mem := rfl
@[simp] theorem firstEntry_era (s : State) : (firstEntry s).era = s.era := rfl
@[simp] theorem firstEntry_par (s : State) : (firstEntry s).par = s.par := rfl
@[simp] theorem firstEntry_hostIn (s : State) : (firstEntry s).hostIn = s.hostIn := rfl
@[simp] theorem firstEntry_busIn (s : State) : (firstEntry s).busIn = s.busIn := rfl
@[simp] theorem firstEntry_now (s : State) : (firstEntry s).now = s.now := rfl
@[simp] theorem firstEntry_trace (s : State) : (firstEntry s).trace = s.trace := rfl

@[simp] theorem enterOutcome_st (e : Err) (t : Fsm) (s : State) : (enterOutcome e t s).st = t := rfl
@[simp] theorem enterOutcome_ent (e : Err) (t : Fsm) (s : State) : (enterOutcome e t s).ent = s.ent := rfl
@[simp] theorem enterOutcome_i (e : Err) (t : Fsm) (s : State) : (enterOutcome e t s).i = s.i := rfl
@[simp] theorem enterOutcome_k (e : Err) (t : Fsm) (s : State) : (enterOutcome e t s).k = s.k := rfl
@[simp] theorem enterOutcome_dcnt (e : Err) (t : Fsm) (s : State) : (enterOutcome e t s).dcnt = s.dcnt := rfl
@[simp] theorem enterOutcome_pcnt (e : Err) (t : Fsm) (s : State) : (enterOutcome e t s).pcnt = s.pcnt := rfl
@[simp] theorem enterOutcome_rmw (e : Err) (t : Fsm) (s : State) : (enterOutcome e t s).rmw = s.rmw := rfl
@[simp] theorem enterOutcome_err (e : Err) (t : Fsm) (s : State) : (enterOutcome e t s).err = e := rfl
@[simp] theorem enterOutcome_cfg (e : Err) (t : Fsm) (s : State) : (enterOutcome e t s).cfg = s.cfg := rfl
@[simp] theorem enterOutcome_mem (e : Err) (t : Fsm) (s : State) : (enterOutcome e t s).mem = s.mem := rfl
@[simp] theorem enterOutcome_era (e : Err) (t : Fsm) (s : State) : (enterOutcome e t s).era = s.era := rfl
@[simp] theorem enterOutcome_par (e : Err) (t : Fsm) (s : State) : (enterOutcome e t s).par = s.par := rfl
@[simp] theorem enterOutcome_hostIn (e : Err) (t : Fsm) (s : State) : (enterOutcome e t s).hostIn = s.hostIn := rfl
@[simp] theorem enterOutcome_busIn (e : Err) (t : Fsm) (s : State) : (enterOutcome e t s).busIn = s.busIn := rfl
@[simp] theorem enterOutcome_now (e : Err) (t : Fsm) (s : State) : (enterOutcome e t s).now = s.now := rfl
@[simp] theorem enterOutcome_trace (e : Err) (t : Fsm) (s : State) : (enterOutcome e t s).trace = s.trace := rfl

@[simp] theorem succeed_st (s : State) : (succeed s).st = .done := rfl
@[simp] theorem succeed_ent (s : State) : (succeed s).ent = s.ent := rfl
@[simp] theorem succeed_i (s : State) : (succeed s).i = s.i := rfl
@[simp] theorem succeed_k (s : State) : (succeed s).k = s.k := rfl
@[simp] theorem succeed_dcnt (s : State) : (succeed s).dcnt = s.dcnt := rfl
@[simp] theorem succeed_pcnt (s : State) : (succeed s).pcnt = s.pcnt := rfl
@[simp] theorem succeed_rmw (s : State) : (succeed s).rmw = s.rmw := rfl
@[simp] theorem succeed_err (s : State) : (succeed s).err = .ok := rfl
@[simp] theorem succeed_cfg (s : State) : (succeed s).cfg = s.cfg := rfl
@[simp] theorem succeed_mem (s : State) : (succeed s).mem = s.mem := rfl
@[simp] theorem succeed_era (s : State) : (succeed s).era = s.era := rfl
@[simp] theorem succeed_par (s : State) : (succeed s).par = s.par := rfl
@[simp] theorem succeed_hostIn (s : State) : (succeed s).hostIn = s.hostIn := rfl
@[simp] theorem succeed_busIn (s : State) : (succeed s).busIn = s.busIn := rfl
@[simp] theorem succeed_now (s : State) : (succeed s).now = s.now := rfl
@[simp] theorem succeed_trace (s : State) : (succeed s).trace = s.trace := rfl

@[simp] theorem raiseEinval_st (s : State) : (raiseEinval s).st = .done := rfl
@[simp] theorem raiseEinval_ent (s : State) : (raiseEinval s).ent = s.ent := rfl
@[simp] theorem raiseEinval_i (s : State) : (raiseEinval s).i = s.i := rfl
@[simp] theorem raiseEinval_k (s : State) : (raiseEinval s).k = s.k := rfl
@[simp] theorem raiseEinval_dcnt (s : State) : (raiseEinval s).dcnt = s.dcnt := rfl
@[simp] theorem raiseEinval_pcnt (s : State) : (raiseEinval s).pcnt = s.pcnt := rfl
@[simp] theorem raiseEinval_rmw (s : State) : (raiseEinval s).rmw = s.rmw := rfl
@[simp] theorem raiseEinval_err (s : State) : (raiseEinval s).err = .einval := rfl
@[simp] theorem raiseEinval_cfg (s : State) : (raiseEinval s).cfg = s.cfg := rfl
@[simp] theorem raiseEinval_mem (s : State) : (raiseEinval s).mem = s.mem := rfl
@[simp] theorem raiseEinval_era (s : State) : (raiseEinval s).era = s.era := rfl
@[simp] theorem raiseEinval_par (s : State) : (raiseEinval s).par = s.par := rfl
@[simp] theorem raiseEinval_hostIn (s : State) : (raiseEinval s).hostIn = s.hostIn := rfl
@[simp] theorem raiseEinval_busIn (s : State) : (raiseEinval s).busIn = s.busIn := rfl
@[simp] theorem raiseEinval_now (s : State) : (raiseEinval s).now = s.now := rfl
@[simp] theorem raiseEinval_trace (s : State) : (raiseEinval s).trace = s.trace := rfl

@[simp] theorem raiseEtimeout_st (s : State) : (raiseEtimeout s).st = .fatal := rfl
@[simp] theorem raiseEtimeout_ent (s : State) : (raiseEtimeout s).ent = s.ent := rfl
@[simp] theorem raiseEtimeout_i (s : State) : (raiseEtimeout s).i = s.i := rfl
@[simp] theorem raiseEtimeout_k (s : State) : (raiseEtimeout s).k = s.k := rfl
@[simp] theorem raiseEtimeout_dcnt (s : State) : (raiseEtimeout s).dcnt = s.dcnt := rfl
@[simp] theorem raiseEtimeout_pcnt (s : State) : (raiseEtimeout s).pcnt = s.pcnt := rfl
@[simp] theorem raiseEtimeout_rmw (s : State) : (raiseEtimeout s).rmw = s.rmw := rfl
@[simp] theorem raiseEtimeout_err (s : State) : (raiseEtimeout s).err = .etimeout := rfl
@[simp] theorem raiseEtimeout_cfg (s : State) : (raiseEtimeout s).cfg = s.cfg := rfl
@[simp] theorem raiseEtimeout_mem (s : State) : (raiseEtimeout s).mem = s.mem := rfl
@[simp] theorem raiseEtimeout_era (s : State) : (raiseEtimeout s).era = s.era := rfl
@[simp] theorem raiseEtimeout_par (s : State) : (raiseEtimeout s).par = s.par := rfl
@[simp] theorem raiseEtimeout_hostIn (s : State) : (raiseEtimeout s).hostIn = s.hostIn := rfl
@[simp] theorem raiseEtimeout_busIn (s : State) : (raiseEtimeout s).busIn = s.busIn := rfl
@[simp] theorem raiseEtimeout_now (s : State) : (raiseEtimeout s).now = s.now := rfl
@[simp] theorem raiseEtimeout_trace (s : State) : (raiseEtimeout s).trace = s.trace := rfl

@[simp] theorem acceptStart_st (e : Entry) (c : Cfg) (s : State) : (acceptStart e c s).st = .validate := rfl
@[simp] theorem acceptStart_ent (e : Entry) (c : Cfg) (s : State) : (acceptStart e c s).ent = e := rfl
@[simp] theorem acceptStart_i (e : Entry) (c : Cfg) (s : State) : (acceptStart e c s).i = 0 := rfl
@[simp] theorem acceptStart_k (e : Entry) (c : Cfg) (s : State) : (acceptStart e c s).k = 0 := rfl
@[simp] theorem acceptStart_dcnt (e : Entry) (c : Cfg) (s : State) : (acceptStart e c s).dcnt = s.dcnt := rfl
@[simp] theorem acceptStart_pcnt (e : Entry) (c : Cfg) (s : State) : (acceptStart e c s).pcnt = s.pcnt := rfl
@[simp] theorem acceptStart_rmw (e : Entry) (c : Cfg) (s : State) : (acceptStart e c s).rmw = s.rmw := rfl
@[simp] theorem acceptStart_err (e : Entry) (c : Cfg) (s : State) : (acceptStart e c s).err = .ok := rfl
@[simp] theorem acceptStart_cfg (e : Entry) (c : Cfg) (s : State) : (acceptStart e c s).cfg = c := rfl
@[simp] theorem acceptStart_mem (e : Entry) (c : Cfg) (s : State) : (acceptStart e c s).mem = s.mem := rfl
@[simp] theorem acceptStart_era (e : Entry) (c : Cfg) (s : State) : (acceptStart e c s).era = s.era := rfl
@[simp] theorem acceptStart_par (e : Entry) (c : Cfg) (s : State) : (acceptStart e c s).par = s.par := rfl
@[simp] theorem acceptStart_hostIn (e : Entry) (c : Cfg) (s : State) : (acceptStart e c s).hostIn = s.hostIn := rfl
@[simp] theorem acceptStart_busIn (e : Entry) (c : Cfg) (s : State) : (acceptStart e c s).busIn = s.busIn := rfl
@[simp] theorem acceptStart_now (e : Entry) (c : Cfg) (s : State) : (acceptStart e c s).now = s.now := rfl
@[simp] theorem acceptStart_trace (e : Entry) (c : Cfg) (s : State) : (acceptStart e c s).trace = [] := rfl

@[simp] theorem startCommands_st (s : State) : (startCommands s).st = .sWrCmd := rfl
@[simp] theorem startCommands_ent (s : State) : (startCommands s).ent = s.ent := rfl
@[simp] theorem startCommands_i (s : State) : (startCommands s).i = s.i := rfl
@[simp] theorem startCommands_k (s : State) : (startCommands s).k = 0 := rfl
@[simp] theorem startCommands_dcnt (s : State) : (startCommands s).dcnt = s.dcnt := rfl
@[simp] theorem startCommands_pcnt (s : State) : (startCommands s).pcnt = s.pcnt := rfl
@[simp] theorem startCommands_rmw (s : State) : (startCommands s).rmw = s.rmw := rfl
@[simp] theorem startCommands_err (s : State) : (startCommands s).err = s.err := rfl
@[simp] theorem startCommands_cfg (s : State) : (startCommands s).cfg = s.cfg := rfl
@[simp] theorem startCommands_mem (s : State) : (startCommands s).mem = s.mem := rfl
@[simp] theorem startCommands_era (s : State) : (startCommands s).era = s.era := rfl
@[simp] theorem startCommands_par (s : State) : (startCommands s).par = s.par := rfl
@[simp] theorem startCommands_hostIn (s : State) : (startCommands s).hostIn = s.hostIn := rfl
@[simp] theorem startCommands_busIn (s : State) : (startCommands s).busIn = s.busIn := rfl
@[simp] theorem startCommands_now (s : State) : (startCommands s).now = s.now := rfl
@[simp] theorem startCommands_trace (s : State) : (startCommands s).trace = s.trace := rfl

@[simp] theorem afterCommand_st (n : Nat) (s : State) : (afterCommand n s).st = if delayUs n * s.par.cyclesPerUs > 0 then .sDelay else .sBarrier := rfl
@[simp] theorem afterCommand_ent (n : Nat) (s : State) : (afterCommand n s).ent = s.ent := rfl
@[simp] theorem afterCommand_i (n : Nat) (s : State) : (afterCommand n s).i = s.i := rfl
@[simp] theorem afterCommand_k (n : Nat) (s : State) : (afterCommand n s).k = s.k := rfl
@[simp] theorem afterCommand_dcnt (n : Nat) (s : State) : (afterCommand n s).dcnt = delayUs n * s.par.cyclesPerUs := rfl
@[simp] theorem afterCommand_pcnt (n : Nat) (s : State) : (afterCommand n s).pcnt = s.pcnt := rfl
@[simp] theorem afterCommand_rmw (n : Nat) (s : State) : (afterCommand n s).rmw = s.rmw := rfl
@[simp] theorem afterCommand_err (n : Nat) (s : State) : (afterCommand n s).err = s.err := rfl
@[simp] theorem afterCommand_cfg (n : Nat) (s : State) : (afterCommand n s).cfg = s.cfg := rfl
@[simp] theorem afterCommand_mem (n : Nat) (s : State) : (afterCommand n s).mem = s.mem := rfl
@[simp] theorem afterCommand_era (n : Nat) (s : State) : (afterCommand n s).era = s.era := rfl
@[simp] theorem afterCommand_par (n : Nat) (s : State) : (afterCommand n s).par = s.par := rfl
@[simp] theorem afterCommand_hostIn (n : Nat) (s : State) : (afterCommand n s).hostIn = s.hostIn := rfl
@[simp] theorem afterCommand_busIn (n : Nat) (s : State) : (afterCommand n s).busIn = s.busIn := rfl
@[simp] theorem afterCommand_now (n : Nat) (s : State) : (afterCommand n s).now = s.now := rfl
@[simp] theorem afterCommand_trace (n : Nat) (s : State) : (afterCommand n s).trace = s.trace := rfl

@[simp] theorem resetCycle_st (s : State) : (resetCycle s).st = .idle := rfl
@[simp] theorem resetCycle_ent (s : State) : (resetCycle s).ent = .nor := rfl
@[simp] theorem resetCycle_i (s : State) : (resetCycle s).i = 0 := rfl
@[simp] theorem resetCycle_k (s : State) : (resetCycle s).k = 0 := rfl
@[simp] theorem resetCycle_dcnt (s : State) : (resetCycle s).dcnt = 0 := rfl
@[simp] theorem resetCycle_pcnt (s : State) : (resetCycle s).pcnt = 0 := rfl
@[simp] theorem resetCycle_rmw (s : State) : (resetCycle s).rmw = 0 := rfl
@[simp] theorem resetCycle_err (s : State) : (resetCycle s).err = .ok := rfl
@[simp] theorem resetCycle_cfg (s : State) : (resetCycle s).cfg = cfgAfterReset := rfl
@[simp] theorem resetCycle_mem (s : State) : (resetCycle s).mem = if busy s then [] else s.mem := rfl
@[simp] theorem resetCycle_era (s : State) : (resetCycle s).era = if busy s then s.era + 1 else s.era := rfl
@[simp] theorem resetCycle_par (s : State) : (resetCycle s).par = s.par := rfl
@[simp] theorem resetCycle_hostIn (s : State) : (resetCycle s).hostIn = s.hostIn.tail := rfl
@[simp] theorem resetCycle_busIn (s : State) : (resetCycle s).busIn = s.busIn := rfl
@[simp] theorem resetCycle_now (s : State) : (resetCycle s).now = s.now + 1 := rfl
@[simp] theorem resetCycle_trace (s : State) : (resetCycle s).trace = [] := rfl

end Sys2Proof.Machine
end

