-- ==== Sys2Proof/Laws/Memory.lean ====
section
/-! SUPPORT. The register block: reading back what was written, everything else unchanged, and the
canonical form (log 4). -/

namespace Sys2Proof.Machine

theorem written_writeByte_same (m : List Host.Cell) (a : Nat) (x : Byte) :
    written (writeByte m a x) a = some x := by
  induction m with
  | nil => simp [writeByte, written]
  | cons c m ih =>
    obtain ⟨b, y⟩ := c
    simp only [writeByte]
    split
    · simp [written]
    · split
      · simp [written]
      · simp [written, *]

theorem written_writeByte_other (m : List Host.Cell) {a b : Nat} (x : Byte) (h : b ≠ a) :
    written (writeByte m a x) b = written m b := by
  induction m with
  | nil => simp [writeByte, written, h]
  | cons c m ih =>
    obtain ⟨d, y⟩ := c
    simp only [writeByte]
    split
    · simp [written, h]
    · split
      · subst d; simp [written, h]
      · simp [written, ih]

/-- The first address of a block is the one written, or the old first one. -/
theorem memWf_cons (a : Nat) (x : Byte) (m : List Host.Cell) :
    memWf ((a, x) :: m) = true ↔ a < 2 ^ 32 ∧ memWf m = true ∧ ∀ c ∈ m.head?, a < c.1 := by
  cases m <;> simp [memWf, and_assoc, and_comm, and_left_comm]

theorem head_writeByte (m : List Host.Cell) (a : Nat) (x : Byte) :
    ∀ c ∈ (writeByte m a x).head?, c.1 = a ∨ ∃ d ∈ m.head?, c.1 = d.1 := by
  cases m with
  | nil => simp [writeByte]
  | cons c m =>
    obtain ⟨b, y⟩ := c
    simp only [writeByte]
    split
    · simp
    · split <;> simp

theorem memWf_writeByte {m : List Host.Cell} {a : Nat} (x : Byte) (hm : memWf m = true)
    (ha : a < 2 ^ 32) : memWf (writeByte m a x) = true := by
  induction m with
  | nil => simpa [writeByte, memWf] using ha
  | cons c m ih =>
    obtain ⟨b, y⟩ := c
    obtain ⟨hb, hw, hh⟩ := (memWf_cons b y m).1 hm
    simp only [writeByte]
    split
    · exact (memWf_cons _ _ _).2 ⟨ha, hm, by simpa⟩
    · split
      · subst b; exact (memWf_cons _ _ _).2 ⟨ha, hw, hh⟩
      · refine (memWf_cons _ _ _).2 ⟨hb, ih hw, fun c hc => ?_⟩
        obtain h | ⟨d, hd, h⟩ := head_writeByte m a x c hc
        · omega
        · have := hh d hd; omega

theorem byteAddr_lt (a : Word) (n : Nat) : byteAddr a n < 2 ^ 32 := (a + BitVec.ofNat 32 n).isLt

/-- Every write of the machine keeps the canonical form. -/
theorem memWf_writeWord {m : List Host.Cell} (a w : Word) (hm : memWf m = true) :
    memWf (writeWord m a w) = true :=
  memWf_writeByte _ (memWf_writeByte _ (memWf_writeByte _ (memWf_writeByte _ hm (byteAddr_lt _ _))
    (byteAddr_lt _ _)) (byteAddr_lt _ _)) (byteAddr_lt _ _)

theorem memWf_performWrite {s : State} (r : Reg) (w : Word) (h : memWf s.mem = true) :
    memWf (performWrite r w s).mem = true := memWf_writeWord _ _ h

theorem memWf_reset : memWf State.reset.mem = true := rfl

theorem byteAddr_ne (a : Word) {m n : Nat} (hm : m < 4) (hn : n < 4) (h : m ≠ n) :
    byteAddr a m ≠ byteAddr a n := by
  simp only [byteAddr, BitVec.toNat_add, BitVec.toNat_ofNat]
  omega

/-- A write leaves every byte outside its four alone. -/
theorem written_writeWord_other (m : List Host.Cell) (a w : Word) {b : Nat}
    (h : ∀ n < 4, b ≠ byteAddr a n) : written (writeWord m a w) b = written m b := by
  simp only [writeWord]
  rw [written_writeByte_other _ _ (h 3 (by omega)), written_writeByte_other _ _ (h 2 (by omega)),
    written_writeByte_other _ _ (h 1 (by omega)), written_writeByte_other _ _ (h 0 (by omega))]

/-- A write puts byte `n` of the word at byte `n` of its address. -/
theorem written_writeWord_same (m : List Host.Cell) (a w : Word) {n : Nat} (hn : n < 4) :
    written (writeWord m a w) (byteAddr a n) = some (byteOf w n) := by
  have ne : ∀ {p q}, p < 4 → q < 4 → p ≠ q → byteAddr a p ≠ byteAddr a q := byteAddr_ne a
  simp only [writeWord]
  match n, hn with
  | 0, _ =>
    rw [written_writeByte_other _ _ (ne (by omega) (by omega) (by omega)),
      written_writeByte_other _ _ (ne (by omega) (by omega) (by omega)),
      written_writeByte_other _ _ (ne (by omega) (by omega) (by omega)), written_writeByte_same]
  | 1, _ =>
    rw [written_writeByte_other _ _ (ne (by omega) (by omega) (by omega)),
      written_writeByte_other _ _ (ne (by omega) (by omega) (by omega)), written_writeByte_same]
  | 2, _ =>
    rw [written_writeByte_other _ _ (ne (by omega) (by omega) (by omega)), written_writeByte_same]
  | 3, _ => rw [written_writeByte_same]

theorem wordOfBytes_byteOf (w : Word) :
    wordOfBytes (byteOf w 0) (byteOf w 1) (byteOf w 2) (byteOf w 3) = w := by
  apply BitVec.eq_of_getLsbD_eq
  intro j hj
  simp only [wordOfBytes, byteOf, zext, BitVec.getLsbD_or, BitVec.getLsbD_setWidth,
    BitVec.getLsbD_shiftLeft, BitVec.getLsbD_extractLsb']
  have h8 : j < 8 ∨ (8 ≤ j ∧ j < 16) ∨ (16 ≤ j ∧ j < 24) ∨ 24 ≤ j := by omega
  rcases h8 with h | ⟨h, h'⟩ | ⟨h, h'⟩ | h
  · simp [hj, h, show j < 16 by omega, show j < 24 by omega]
  · simp [hj, show ¬ j < 8 by omega, show j < 24 by omega, h', show j - 8 < 8 by omega,
      show j - 8 < 32 by omega, show 8 + (j - 8) = j by omega]
  · simp [hj, show ¬ j < 8 by omega, show ¬ j < 16 by omega, h', show ¬ j - 8 < 8 by omega,
      show j - 16 < 8 by omega, show j - 16 < 32 by omega, show 16 + (j - 16) = j by omega]
  · simp [hj, show ¬ j < 8 by omega, show ¬ j < 16 by omega, show ¬ j < 24 by omega,
      show ¬ j - 8 < 8 by omega, show ¬ j - 16 < 8 by omega, show j - 24 < 8 by omega,
      show j - 24 < 32 by omega, show 24 + (j - 24) = j by omega]

/-- Two states whose blocks are the same list of the same era read the same everywhere. -/
theorem readByte_congr {s t : State} (hm : t.mem = s.mem) (he : t.era = s.era) (a : Nat) :
    readByte t a = readByte s a := by simp [readByte, unwrittenByte, hm, he]

theorem readWord_congr {s t : State} (hm : t.mem = s.mem) (he : t.era = s.era) (a : Word) :
    readWord t a = readWord s a := by simp [readWord, readByte_congr hm he]

/-- A byte of a word just written. -/
theorem readByte_writeWord_same {s t : State} (a w : Word) {n : Nat} (hn : n < 4)
    (hm : t.mem = writeWord s.mem a w) : readByte t (byteAddr a n) = byteOf w n := by
  simp [readByte, hm, written_writeWord_same s.mem a w hn]

/-- A byte outside the word just written. -/
theorem readByte_writeWord_other {s t : State} (a w : Word) {b : Nat} (hm : t.mem = writeWord s.mem a w)
    (he : t.era = s.era) (h : ∀ n < 4, b ≠ byteAddr a n) : readByte t b = readByte s b := by
  simp [readByte, unwrittenByte, hm, he, written_writeWord_other s.mem a w h]

/-- A word just written reads back. -/
theorem readWord_writeWord {s t : State} (a w : Word) (hm : t.mem = writeWord s.mem a w) :
    readWord t a = w := by
  simp only [readWord, readByte_writeWord_same a w (show 0 < 4 by omega) hm,
    readByte_writeWord_same a w (show 1 < 4 by omega) hm,
    readByte_writeWord_same a w (show 2 < 4 by omega) hm,
    readByte_writeWord_same a w (show 3 < 4 by omega) hm, wordOfBytes_byteOf]

end Sys2Proof.Machine
end

