-- ==== Sys2Proof/Laws/Ops.lean ====
section
/-! SUPPORT. What the shared operations can do, said once: the two bus primitives, one element, one
step. -/

namespace Sys2Proof.Machine

@[simp] theorem reply_takeReply (s : State) :
    reply (takeReply s) = s.busIn.tail.head (Config.freeReply s.trace s.now) := rfl

@[simp] theorem addrOf_takeReply (s : State) (r : Reg) :
    addrOf (takeReply s).cfg r = addrOf s.cfg r := rfl

/-- An acknowledged write. -/
theorem busWrite_ack {s : State} (r : Reg) (w : Word) (f : State → State)
    (h : (reply s).ack = true) :
    busWrite r w f s = .next (f (performWrite r w (takeReply s))) := by
  simp [busWrite, h]

/-- A write that is not acknowledged waits. -/
theorem busWrite_wait {s : State} (r : Reg) (w : Word) (f : State → State)
    (h : (reply s).ack = false) : busWrite r w f s = .next (takeReply s) := by
  simp [busWrite, h]

/-- An acknowledged read. -/
theorem busRead_ack {s : State} (r : Reg) (f : Word → State → State) (h : (reply s).ack = true) :
    busRead r f s = .next (f (reply s).rdata
      (emit (.rd r (addrOf s.cfg r) (reply s).rdata) (takeReply s))) := by
  simp [busRead, h]

/-- A read that is not acknowledged waits. -/
theorem busRead_wait {s : State} (r : Reg) (f : Word → State → State)
    (h : (reply s).ack = false) : busRead r f s = .next (takeReply s) := by
  simp [busRead, h]

/-- Everything a write can do. -/
theorem busWrite_cases {s t : State} {r : Reg} {w : Word} {f : State → State}
    (h : busWrite r w f s = .next t) :
    ((reply s).ack = true ∧ t = f (performWrite r w (takeReply s))) ∨
    ((reply s).ack = false ∧ t = takeReply s) := by
  cases ha : (reply s).ack
  · rw [busWrite_wait _ _ _ ha] at h; injection h with h; exact .inr ⟨rfl, h.symm⟩
  · rw [busWrite_ack _ _ _ ha] at h; injection h with h; exact .inl ⟨rfl, h.symm⟩

/-- Everything a read can do. -/
theorem busRead_cases {s t : State} {r : Reg} {f : Word → State → State}
    (h : busRead r f s = .next t) :
    ((reply s).ack = true ∧ t = f (reply s).rdata
      (emit (.rd r (addrOf s.cfg r) (reply s).rdata) (takeReply s))) ∨
    ((reply s).ack = false ∧ t = takeReply s) := by
  cases ha : (reply s).ack
  · rw [busRead_wait _ _ ha] at h; injection h with h; exact .inr ⟨rfl, h.symm⟩
  · rw [busRead_ack _ _ ha] at h; injection h with h; exact .inl ⟨rfl, h.symm⟩

/-- Everything `bySlot` can do. -/
theorem bySlot_cases {s t : State} {f g : State → Result} (h : bySlot s f g = .next t) :
    ∃ e, sdEntry s = some e ∧
      ((e.slot = .slot1 ∧ f s = .next t) ∨ (e.slot = .slot2 ∧ g s = .next t)) := by
  simp only [bySlot] at h
  cases he : sdEntry s with
  | none => simp [he] at h
  | some e =>
    rw [he] at h
    refine ⟨e, rfl, ?_⟩
    cases hs : e.slot <;> simp only [hs] at h
    · exact .inl ⟨rfl, h⟩
    · exact .inr ⟨rfl, h⟩

/-- Everything one step can do: a reset cycle, or what the FSM's state says. -/
theorem step_cases {s t : State} (h : step s = .next t) :
    ((pins s).rst = true ∧ t = resetCycle s) ∨
    ((pins s).rst = false ∧
      ((∃ i, activity s = .issue i ∧ exec i (tick s) = .next t) ∨
       (activity s = .awaitStart ∧ t = hostStart (pins s) (tick s)) ∨
       (activity s = .validate ∧ t = validate (tick s)) ∨
       (activity s = .norNext ∧ t = norNext (tick s)) ∨
       (activity s = .sdNext ∧ t = sdNext (tick s)) ∨
       (activity s = .halted ∧ t = tick s))) := by
  unfold step at h
  cases hr : (pins s).rst
  · rw [hr] at h
    cases ha : activity s <;> simp [ha] at h <;> simp [h]
  · rw [hr] at h; simp at h; simp [h]

/-- The NOR states whose bank index is out of range are the only ones that stop a NOR element. -/
theorem issueNor_issue {s : State} {f : NorEntry → BitVec 2 → Instr} {i : Instr}
    (h : issueNor s f = .issue i) :
    (norEntry s).bankIdx.toNat < 4 ∧ i = f (norEntry s) ((norEntry s).bankIdx.setWidth 2) := by
  unfold issueNor at h
  split at h
  · injection h with h; exact ⟨by assumption, h.symm⟩
  · cases h

theorem issueSd_issue {s : State} {f : SdEntry → Activity} {i : Instr}
    (h : issueSd s f = .issue i) : ∃ e, sdEntry s = some e ∧ f e = .issue i := by
  unfold issueSd at h
  cases he : sdEntry s with
  | none => simp [he] at h
  | some e => exact ⟨e, rfl, by simpa [he] using h⟩

end Sys2Proof.Machine
end

