-- ==== Sys2Proof/Laws/Step.lean ====
section
/-! SUPPORT. What one cycle without reset does in each state of the FSM, one inversion lemma a state,
so that no proof unfolds `step`, `activity` or a meaning; and the small facts about indices and
counters that go with them. -/

namespace Sys2Proof.Machine

/-- The state in the cycle of a transaction once CTRL's reply of it is used up. -/
abbrev replied (s : State) : State := takeReply (tick s)

/-- CTRL's reply in the cycle of a step. -/
abbrev stepReply (s : State) : BusReply := reply (tick s)

/-! ### Indices and counters -/

theorem i_succ {i : BitVec 2} (h : i.toNat < 3) : (i + 1).toNat = i.toNat + 1 := by
  revert i; decide

theorem k_succ {k : BitVec 3} (h : k.toNat < 4) : (k + 1).toNat = k.toNat + 1 := by
  revert k; decide

theorem toNat_pos {n : Nat} {x : BitVec n} (h : x ≠ 0) : 0 < x.toNat := by
  rcases Nat.eq_zero_or_pos x.toNat with h' | h'
  · exact absurd (BitVec.eq_of_toNat_eq (by simpa using h')) h
  · exact h'

theorem index_cases (j : BitVec 2) : j = 0 ∨ j = 1 ∨ j = 2 ∨ j = 3 := by revert j; decide

/-- The current NOR entry is the one at its place in the used list. -/
theorem norAt_used {c : Cfg} {j : BitVec 2} (h : j.toNat < c.norCount.toNat) :
    (norUsed c)[j.toNat]? = some (norAt c j) := by
  unfold norUsed norAt
  generalize c.norCount.toNat = n at h
  rcases index_cases j with rfl | rfl | rfl | rfl <;> rcases n with _ | _ | _ | _ | n <;> simp at h ⊢

theorem norEntry_valid {c : Cfg} {j : BitVec 2} (hv : norInvalid c = false)
    (h : j.toNat < c.norCount.toNat) : norEntryInvalid (norAt c j) = false := by
  simp only [norInvalid, Bool.or_eq_false_iff, List.any_eq_false] at hv
  simpa using hv.1.2 _ (List.mem_of_getElem? (norAt_used h))

/-- Validation bounds the current entry's bank index (40_norsram_configurator.md R137 item 3). -/
theorem bankIdx_lt {c : Cfg} {j : BitVec 2} (hv : norInvalid c = false)
    (h : j.toNat < c.norCount.toNat) : (norAt c j).bankIdx.toNat < 4 := by
  have := norEntry_valid hv h
  simp only [norEntryInvalid, Bool.or_eq_false_iff, decide_eq_false_iff_not] at this
  omega

theorem norCount_le {c : Cfg} (hv : norInvalid c = false) : c.norCount.toNat ≤ 4 := by
  simp only [norInvalid, Bool.or_eq_false_iff, decide_eq_false_iff_not] at hv
  omega

theorem sdCount_le {c : Cfg} (hv : sdInvalid c = false) : c.sdCount.toNat ≤ 2 := by
  simp only [sdInvalid, Bool.or_eq_false_iff, decide_eq_false_iff_not] at hv
  omega

/-- There is a current SDRAM entry, and it is the one at its place in the used list. -/
theorem sdAt_used {c : Cfg} {j : BitVec 2} (hv : sdInvalid c = false)
    (h : j.toNat < c.sdCount.toNat) :
    ∃ e, sdAt c j = some e ∧ (sdUsed c)[j.toNat]? = some e := by
  have := sdCount_le hv
  unfold sdAt sdUsed
  generalize c.sdCount.toNat = n at h this
  rcases index_cases j with rfl | rfl | rfl | rfl <;> rcases n with _ | _ | _ | n <;>
    simp at h this ⊢

theorem delayUs_le (k : Nat) : delayUs k ≤ 200 := by unfold delayUs; split <;> omega

theorem delayUs_pos {k : Nat} : 0 < delayUs k ↔ k < 4 := by
  unfold delayUs; split <;> simp_all; omega

/-- Inside its range the delay counter just counts down (60_exceptions.md R236: it does not wrap). -/
theorem dcntLess_eq {s : State} (h0 : 0 < s.dcnt) (h1 : s.dcnt ≤ 200 * s.par.cyclesPerUs) :
    dcntLess s = s.dcnt - 1 := by
  have : 200 * s.par.cyclesPerUs < dcntModulus s.par := Nat.lt_log2_self
  rw [dcntLess, show s.dcnt + dcntModulus s.par - 1 = (s.dcnt - 1) + dcntModulus s.par by omega,
    Nat.add_mod_right, Nat.mod_eq_of_lt (by omega)]

/-- The word of a command other than WRITE_MODE does not depend on the CAS latency
(41_sdram_encoder.md R154). -/
theorem cmdWord_cas {k : Nat} (hk : k ≠ 3) (slot : Slot) (a b : BitVec 2) :
    cmdWord k slot a = cmdWord k slot b := by simp [cmdWord, hk]

/-- Everything `afterCommand` can do (42_sdram_sequencer.md R178). -/
theorem afterCommand_cases (k : Nat) (s : State) :
    (0 < delayUs k * s.par.cyclesPerUs ∧
      afterCommand k s = goto .sDelay { s with dcnt := delayUs k * s.par.cyclesPerUs }) ∨
    (delayUs k * s.par.cyclesPerUs = 0 ∧ afterCommand k s = goto .sBarrier { s with dcnt := 0 }) := by
  unfold afterCommand
  rcases Nat.eq_zero_or_pos (delayUs k * s.par.cyclesPerUs) with h | h
  · exact .inr ⟨h, by rw [h]; simp⟩
  · exact .inl ⟨h, by simp [h]⟩

/-- Everything IDLE and DONE can do (10_state.md R26). -/
theorem hostStart_cases (p : HostPins) (s : State) :
    (p.startNor = true ∧ hostStart p s = acceptStart .nor p.cfg s) ∨
    (p.startNor = false ∧ p.startSdram = true ∧ hostStart p s = acceptStart .sdram p.cfg s) ∨
    (p.startNor = false ∧ p.startSdram = false ∧ hostStart p s = s) := by
  unfold hostStart
  cases p.startNor <;> cases p.startSdram <;> simp

/-- Everything N_NEXT can do (40_norsram_configurator.md R135). -/
theorem norNext_cases (s : State) :
    (s.i.toNat + 1 < s.cfg.norCount.toNat ∧ norNext s = goto .nRdBcr { s with i := s.i + 1 }) ∨
    (s.cfg.norCount.toNat ≤ s.i.toNat + 1 ∧ norNext s = succeed s) := by
  unfold norNext
  split
  · exact .inl ⟨by assumption, rfl⟩
  · exact .inr ⟨by omega, rfl⟩

/-- Everything S_NEXT can do (42_sdram_sequencer.md R184). -/
theorem sdNext_cases (s : State) :
    (s.i.toNat + 1 < s.cfg.sdCount.toNat ∧ sdNext s = goto .sWrSdcr1 { s with i := s.i + 1 }) ∨
    (s.cfg.sdCount.toNat ≤ s.i.toNat + 1 ∧ gateEn s.cfg = true ∧ sdNext s = goto .gRdOn s) ∨
    (s.cfg.sdCount.toNat ≤ s.i.toNat + 1 ∧ gateEn s.cfg = false ∧ sdNext s = succeed s) := by
  unfold sdNext
  split
  · exact .inl ⟨by assumption, rfl⟩
  · cases hg : gateEn s.cfg
    · exact .inr (.inr ⟨by omega, rfl, by simp⟩)
    · exact .inr (.inl ⟨by omega, rfl, by simp⟩)

/-- Everything an answer in S_POLL can do (42_sdram_sequencer.md R181, R182). -/
theorem afterPoll_cases (v : Word) (s : State) :
    (busyBit v = false ∧ s.k.toNat < 4 ∧ afterPoll v s = goto .sWrCmd { s with k := s.k + 1 }) ∨
    (busyBit v = false ∧ 4 ≤ s.k.toNat ∧ afterPoll v s = goto .sWrSdrtr s) ∨
    (busyBit v = true ∧ s.par.pollTimeout = 0 ∧ afterPoll v s = goto .sPoll s) ∨
    (busyBit v = true ∧ 0 < s.par.pollTimeout ∧ s.pcnt + 1 = s.par.pollTimeout ∧
      afterPoll v s = raiseEtimeout s) ∨
    (busyBit v = true ∧ 0 < s.par.pollTimeout ∧ s.pcnt + 1 ≠ s.par.pollTimeout ∧
      afterPoll v s = goto .sPoll { s with pcnt := s.pcnt + 1 }) := by
  unfold afterPoll advance
  cases hb : busyBit v
  · by_cases hk : s.k.toNat < 4
    · exact .inl ⟨rfl, hk, by simp [hk]⟩
    · exact .inr (.inl ⟨rfl, by omega, by simp [hk]⟩)
  · refine .inr (.inr ?_)
    by_cases hp : s.par.pollTimeout > 0
    · by_cases he : s.pcnt + 1 = s.par.pollTimeout
      · exact .inr (.inl ⟨rfl, hp, he, by simp [he, hp]⟩)
      · exact .inr (.inr ⟨rfl, hp, he, by simp [hp, he]⟩)
    · exact .inl ⟨rfl, by omega, by simp [hp]⟩

/-! ### One cycle, by the state of the FSM -/

section
variable {s t : State} (hr : (pins s).rst = false)
include hr

theorem step_of_issue {i : Instr} (ha : activity s = .issue i) : step s = exec i (tick s) := by
  simp [step, hr, ha]

/-- A state that performs one write. -/
theorem step_write {i : Instr} {r : Reg} {w : Word} {f : State → State} (ha : activity s = .issue i)
    (hx : exec i (tick s) = busWrite r w f (tick s)) (h : step s = .next t) :
    ((stepReply s).ack = true ∧ t = f (performWrite r w (replied s))) ∨
    ((stepReply s).ack = false ∧ t = replied s) := by
  rw [step_of_issue hr ha, hx] at h; exact busWrite_cases h

/-- A state that performs one read. -/
theorem step_read {i : Instr} {r : Reg} {f : Word → State → State} (ha : activity s = .issue i)
    (hx : exec i (tick s) = busRead r f (tick s)) (h : step s = .next t) :
    ((stepReply s).ack = true ∧ t = f (stepReply s).rdata
      (emit (.rd r (addrOf s.cfg r) (stepReply s).rdata) (replied s))) ∨
    ((stepReply s).ack = false ∧ t = replied s) := by
  rw [step_of_issue hr ha, hx] at h; exact busRead_cases h

theorem step_idle (hs : s.st = .idle) (h : step s = .next t) : t = hostStart (pins s) (tick s) := by
  simp [step, hr, activity, hs] at h; exact h.symm

theorem step_done (hs : s.st = .done) (h : step s = .next t) : t = hostStart (pins s) (tick s) := by
  simp [step, hr, activity, hs] at h; exact h.symm

theorem step_fatal (hs : s.st = .fatal) (h : step s = .next t) : t = tick s := by
  simp [step, hr, activity, hs] at h; exact h.symm

theorem step_validate (hs : s.st = .validate) (h : step s = .next t) : t = validate (tick s) := by
  simp [step, hr, activity, hs] at h; exact h.symm

/-- Everything VALIDATE can do in a NOR run. -/
theorem step_validate_nor (hs : s.st = .validate) (he : s.ent = .nor) (h : step s = .next t) :
    (norInvalid s.cfg = true ∧ t = raiseEinval (tick s)) ∨
    (norInvalid s.cfg = false ∧ s.cfg.norCount = 0 ∧ t = succeed (tick s)) ∨
    (norInvalid s.cfg = false ∧ 0 < s.cfg.norCount.toNat ∧
      t = goto .nRdBcr (firstEntry (tick s))) := by
  obtain rfl := step_validate hr hs h
  have he' : (tick s).ent = .nor := he
  unfold validate validateNor
  rw [he']
  cases hv : norInvalid s.cfg
  · by_cases hc : s.cfg.norCount = 0
    · exact .inr (.inl ⟨rfl, hc, by simp [hv, hc]⟩)
    · exact .inr (.inr ⟨rfl, toNat_pos hc, by simp [hv, show ¬ s.cfg.norCount = 0#3 from hc]⟩)
  · exact .inl ⟨rfl, by simp [hv]⟩

/-- Everything VALIDATE can do in an SDRAM run. -/
theorem step_validate_sdram (hs : s.st = .validate) (he : s.ent = .sdram) (h : step s = .next t) :
    (sdInvalid s.cfg = true ∧ t = raiseEinval (tick s)) ∨
    (sdInvalid s.cfg = false ∧ s.cfg.sdCount = 0 ∧ t = succeed (tick s)) ∨
    (sdInvalid s.cfg = false ∧ 0 < s.cfg.sdCount.toNat ∧
      t = goto (if gateEn s.cfg then .gRdOff else .sWrSdcr1) (firstEntry (tick s))) := by
  obtain rfl := step_validate hr hs h
  have he' : (tick s).ent = .sdram := he
  unfold validate validateSdram
  rw [he']
  cases hv : sdInvalid s.cfg
  · by_cases hc : s.cfg.sdCount = 0
    · exact .inr (.inl ⟨rfl, hc, by simp [hv, hc]⟩)
    · refine .inr (.inr ⟨rfl, toNat_pos hc, ?_⟩)
      cases hg : gateEn s.cfg <;> simp [hv, hg, show ¬ s.cfg.sdCount = 0#2 from hc]
  · exact .inl ⟨rfl, by simp [hv]⟩

theorem step_nNext (hs : s.st = .nNext) (h : step s = .next t) : t = norNext (tick s) := by
  simp [step, hr, activity, hs] at h; exact h.symm

theorem step_sNext (hs : s.st = .sNext) (h : step s = .next t) : t = sdNext (tick s) := by
  simp [step, hr, activity, hs] at h; exact h.symm

theorem activity_nor {f : NorEntry → BitVec 2 → Instr} (ha : activity s = issueNor s f)
    (h : step s = .next t) : activity s = .issue (f (norEntry s) ((norEntry s).bankIdx.setWidth 2)) := by
  rw [ha]
  unfold issueNor at ha ⊢
  split at ha
  · rename_i hb; simp [hb]
  · simp [step, hr, ha] at h

theorem activity_sd {f : SdEntry → Activity} (ha : activity s = issueSd s f)
    (h : step s = .next t) : ∃ e, sdEntry s = some e ∧ activity s = f e := by
  rw [ha]
  unfold issueSd at ha ⊢
  cases he : sdEntry s with
  | none => simp [step, hr, ha, he] at h
  | some e => exact ⟨e, rfl, rfl⟩

theorem step_nRdBcr (hs : s.st = .nRdBcr) (h : step s = .next t) :
    ((stepReply s).ack = true ∧ t = goto .nWrBcr
      (latch (stepReply s).rdata (emit (.rd (.bcr (NorEntry.bank (norEntry s)))
        (addrOf s.cfg (.bcr (NorEntry.bank (norEntry s)))) (stepReply s).rdata) (replied s)))) ∨
    ((stepReply s).ack = false ∧ t = replied s) :=
  step_read hr (activity_nor hr (f := fun _ b => .norRdBcr b) (by simp [activity, hs]) h)
    (f := fun v u => goto .nWrBcr (latch v u)) rfl h

theorem step_nWrBcr (hs : s.st = .nWrBcr) (h : step s = .next t) :
    ((stepReply s).ack = true ∧ t = goto .nWrBtr (performWrite (.bcr (NorEntry.bank (norEntry s)))
      (preserved s ||| ctrlWord (norEntry s).ctrl) (replied s))) ∨
    ((stepReply s).ack = false ∧ t = replied s) :=
  step_write hr (activity_nor hr (f := fun e b => .norWrBcr b e.ctrl (preserved s))
    (by simp [activity, hs]) h) rfl h

theorem step_nWrBtr (hs : s.st = .nWrBtr) (h : step s = .next t) :
    ((stepReply s).ack = true ∧ t = goto .nWrBwtr (performWrite (.btr (NorEntry.bank (norEntry s)))
      (btrWord (norEntry s).timing) (replied s))) ∨
    ((stepReply s).ack = false ∧ t = replied s) :=
  step_write hr (activity_nor hr (f := fun e b => .norWrBtr b e.timing) (by simp [activity, hs]) h)
    rfl h

theorem step_nWrBwtr (hs : s.st = .nWrBwtr) (h : step s = .next t) :
    ((stepReply s).ack = true ∧ t = goto .nWrBcrEn (performWrite (.bwtr (NorEntry.bank (norEntry s)))
      (bwtrWord (norEntry s).timing.toWrite) (replied s))) ∨
    ((stepReply s).ack = false ∧ t = replied s) :=
  step_write hr (activity_nor hr (f := fun e b => .norWrBwtr b e.timing.toWrite)
    (by simp [activity, hs]) h) rfl h

theorem step_nWrBcrEn (hs : s.st = .nWrBcrEn) (h : step s = .next t) :
    ((stepReply s).ack = true ∧ t = goto .nNext (performWrite (.bcr (NorEntry.bank (norEntry s)))
      (preserved s ||| ctrlWord (norEntry s).ctrl ||| mbken) (replied s))) ∨
    ((stepReply s).ack = false ∧ t = replied s) :=
  step_write hr (activity_nor hr (f := fun e b => .norWrBcrEn b e.ctrl (preserved s))
    (by simp [activity, hs]) h) rfl h

theorem step_gRdOff (hs : s.st = .gRdOff) (h : step s = .next t) :
    ((stepReply s).ack = true ∧ t = goto .gWrOff
      (latch (stepReply s).rdata
        (emit (.rd (.bcr 0) (addrOf s.cfg (.bcr 0)) (stepReply s).rdata) (replied s)))) ∨
    ((stepReply s).ack = false ∧ t = replied s) :=
  step_read hr (i := .gateRdOff) (f := fun v u => goto .gWrOff (latch v u))
    (by simp [activity, hs]) rfl h

theorem step_gWrOff (hs : s.st = .gWrOff) (h : step s = .next t) :
    ((stepReply s).ack = true ∧ t = goto .sWrSdcr1
      (firstEntry (performWrite (.bcr 0) (zext (kept s)) (replied s)))) ∨
    ((stepReply s).ack = false ∧ t = replied s) :=
  step_write hr (i := .gateWrOff (kept s)) (f := fun u => goto .sWrSdcr1 (firstEntry u))
    (by simp [activity, hs]) rfl h

theorem step_gRdOn (hs : s.st = .gRdOn) (h : step s = .next t) :
    ((stepReply s).ack = true ∧ t = goto .gWrOn
      (latch (stepReply s).rdata
        (emit (.rd (.bcr 0) (addrOf s.cfg (.bcr 0)) (stepReply s).rdata) (replied s)))) ∨
    ((stepReply s).ack = false ∧ t = replied s) :=
  step_read hr (i := .gateRdOn) (f := fun v u => goto .gWrOn (latch v u))
    (by simp [activity, hs]) rfl h

theorem step_gWrOn (hs : s.st = .gWrOn) (h : step s = .next t) :
    ((stepReply s).ack = true ∧
      t = succeed (performWrite (.bcr 0) (zext (kept s) ||| fmcen) (replied s))) ∨
    ((stepReply s).ack = false ∧ t = replied s) :=
  step_write hr (i := .gateWrOn (kept s)) (by simp [activity, hs]) rfl h

theorem step_sWrSdcr1 (hs : s.st = .sWrSdcr1) (h : step s = .next t) : ∃ e, sdEntry s = some e ∧
    (((stepReply s).ack = true ∧ t = goto (match e.slot with | .slot1 => .sWrSdtr1 | .slot2 => .sWrSdcr2)
      (performWrite .sdcr1 (sdcrFull e.ctrl) (replied s))) ∨
    ((stepReply s).ack = false ∧ t = replied s)) := by
  obtain ⟨e, he, ha⟩ := activity_sd hr (f := fun e => .issue (.sdWrSdcr1 e.ctrl))
    (by simp [activity, hs]) h
  refine ⟨e, he, step_write hr ha ?_ h⟩
  have he' : sdEntry (tick s) = some e := he
  cases hsl : e.slot <;> simp [exec, execSdWrSdcr1, bySlot, he', hsl]

theorem step_sWrSdcr2 (hs : s.st = .sWrSdcr2) (h : step s = .next t) : ∃ e, sdEntry s = some e ∧
    (((stepReply s).ack = true ∧
      t = goto .sWrSdtr1 (performWrite .sdcr2 (sdcrReduced e.ctrl.toReduced) (replied s))) ∨
    ((stepReply s).ack = false ∧ t = replied s)) := by
  obtain ⟨e, he, ha⟩ := activity_sd hr (f := fun e => .issue (.sdWrSdcr2 e.ctrl.toReduced))
    (by simp [activity, hs]) h
  exact ⟨e, he, step_write hr ha rfl h⟩

theorem step_sWrSdtr1 (hs : s.st = .sWrSdtr1) (h : step s = .next t) : ∃ e, sdEntry s = some e ∧
    (((stepReply s).ack = true ∧ t = (match e.slot with | .slot1 => startCommands | .slot2 => goto .sWrSdtr2)
      (performWrite .sdtr1 (sdtrWord e.timing) (replied s))) ∨
    ((stepReply s).ack = false ∧ t = replied s)) := by
  obtain ⟨e, he, ha⟩ := activity_sd hr (f := fun e => .issue (.sdWrSdtr1 e.timing))
    (by simp [activity, hs]) h
  refine ⟨e, he, step_write hr ha ?_ h⟩
  have he' : sdEntry (tick s) = some e := he
  cases hsl : e.slot <;> simp [exec, execSdWrSdtr1, bySlot, he', hsl]

theorem step_sWrSdtr2 (hs : s.st = .sWrSdtr2) (h : step s = .next t) : ∃ e, sdEntry s = some e ∧
    (((stepReply s).ack = true ∧
      t = startCommands (performWrite .sdtr2 (sdtrWord e.timing) (replied s))) ∨
    ((stepReply s).ack = false ∧ t = replied s)) := by
  obtain ⟨e, he, ha⟩ := activity_sd hr (f := fun e => .issue (.sdWrSdtr2 e.timing))
    (by simp [activity, hs]) h
  exact ⟨e, he, step_write hr ha rfl h⟩

theorem step_sWrCmd (hs : s.st = .sWrCmd) (h : step s = .next t) : ∃ e, sdEntry s = some e ∧
    (((stepReply s).ack = true ∧ t = afterCommand s.k.toNat
      (performWrite .sdcmr (cmdWord s.k.toNat e.slot e.ctrl.casLatency) (replied s))) ∨
    ((stepReply s).ack = false ∧ t = replied s)) := by
  obtain ⟨e, he, ha⟩ := activity_sd hr (f := commandAt s.k.toNat) (by simp [activity, hs]) h
  refine ⟨e, he, ?_⟩
  generalize hk : s.k.toNat = k at ha ⊢
  match k with
  | 0 => exact step_write hr ha rfl h
  | 1 => exact step_write hr ha rfl h
  | 2 => exact step_write hr ha rfl h
  | 3 => exact step_write hr ha rfl h
  | 4 => exact step_write hr ha rfl h
  | n + 5 => simp [step, hr, ha, commandAt] at h

theorem step_sDelay (hs : s.st = .sDelay) (h : step s = .next t) : s.k.toNat < 4 ∧
    ((dcntLess s = 0 ∧
      t = emit (.delay (delayUs s.k.toNat)) (goto .sBarrier { tick s with dcnt := 0 })) ∨
    (dcntLess s ≠ 0 ∧ t = { tick s with dcnt := dcntLess s })) := by
  have ha : activity s = delayAt s.k.toNat := by simp [activity, hs]
  unfold delayAt at ha
  split at ha
  · simp [step, hr, ha] at h
  · refine ⟨delayUs_pos.1 (by omega), ?_⟩
    rw [step_of_issue hr ha, exec, execDelay] at h
    injection h with h
    have hd : dcntLess (tick s) = dcntLess s := rfl
    rw [hd] at h
    split at h
    · exact .inl ⟨by assumption, h.symm⟩
    · exact .inr ⟨by assumption, h.symm⟩

theorem step_sBarrier (hs : s.st = .sBarrier) (h : step s = .next t) :
    t = emit .barrier (goto .sPoll { tick s with pcnt := 0 }) := by
  simp [step, hr, activity, hs, exec, execBarrier] at h; exact h.symm

theorem step_sPoll (hs : s.st = .sPoll) (h : step s = .next t) :
    ((stepReply s).ack = true ∧ t = afterPoll (stepReply s).rdata
      (emit (.rd .sdsr (addrOf s.cfg .sdsr) (stepReply s).rdata) (replied s))) ∨
    ((stepReply s).ack = false ∧ t = replied s) :=
  step_read hr (i := .sdRdSdsr) (by simp [activity, hs]) rfl h

theorem step_sWrSdrtr (hs : s.st = .sWrSdrtr) (h : step s = .next t) : ∃ e, sdEntry s = some e ∧
    (((stepReply s).ack = true ∧ t = goto .sNext
      (performWrite .sdrtr (sdrtrWord (zext (e.refCount.setWidth 31))) (replied s))) ∨
    ((stepReply s).ack = false ∧ t = replied s)) := by
  obtain ⟨e, he, ha⟩ := activity_sd hr (f := fun e => .issue (.sdWrSdrtr (e.refCount.setWidth 31)))
    (by simp [activity, hs]) h
  exact ⟨e, he, step_write hr ha rfl h⟩

end

/-- The bit of `ref_count` that the element does not carry is the one the word loses
(41_sdram_encoder.md R157). -/
theorem sdrtrWord_low (ref : Word) : sdrtrWord (zext (ref.setWidth 31)) = sdrtrWord ref := by
  apply BitVec.eq_of_getLsbD_eq
  intro n hn
  by_cases h0 : n = 0
  · simp [sdrtrWord, h0]
  · simp [sdrtrWord, hn, h0, show n - 1 < 31 by omega, BitVec.getLsbD_eq_getElem (show n - 1 < 32 by omega)]

/-- The gate's word with FMCEN cleared (43_enable_gate.md R212). -/
theorem zext_kept (w : Word) : zext (w.setWidth 31) = w &&& 0x7FFFFFFF := by
  have hm : ∀ n < 32, (0x7FFFFFFF : Word).getLsbD n = decide (n < 31) := by decide
  apply BitVec.eq_of_getLsbD_eq
  intro n hn
  rw [BitVec.getLsbD_and, hm n hn]
  simp [BitVec.getLsbD_setWidth, hn, Bool.and_comm]

/-- The gate's word with FMCEN set (43_enable_gate.md R214). -/
theorem zext_kept_fmcen (w : Word) : zext (w.setWidth 31) ||| fmcen = w ||| 0x80000000 := by
  have hm : ∀ n < 32, (0x80000000 : Word).getLsbD n = !decide (n < 31) := by decide
  apply BitVec.eq_of_getLsbD_eq
  intro n hn
  rw [BitVec.getLsbD_or, BitVec.getLsbD_or, fmcen, hm n hn]
  simp only [BitVec.getLsbD_setWidth, hn, decide_true, Bool.true_and]
  cases decide (n < 31) <;> simp

end Sys2Proof.Machine
end

