-- ==== Sys2Proof/Laws/Exec.lean ====
section
/-! SUPPORT. What one element can do, said once for all elements that are bus transactions and once
for the two that are not. -/

namespace Sys2Proof.Machine

/-- What `after` does not touch, for every successor the machine gives a transaction. -/
structure KeepsBlock (s t : State) : Prop where
  mem   : t.mem = s.mem
  era   : t.era = s.era
  trace : t.trace = s.trace
  cfg   : t.cfg = s.cfg
  busIn : t.busIn = s.busIn

theorem keepsBlock_afterPoll (v : Word) (s : State) : KeepsBlock s (afterPoll v s) := by
  rcases afterPoll_cases v s with ⟨_, _, h⟩ | ⟨_, _, h⟩ | ⟨_, _, h⟩ | ⟨_, _, _, h⟩ | ⟨_, _, _, h⟩ <;>
    rw [h] <;> exact ⟨rfl, rfl, rfl, rfl, rfl⟩

/-- The block after an acknowledged transaction `x`. -/
def blockAfter (x : Txn) (s : State) : List Host.Cell :=
  if x.we then writeWord s.mem (addrOf s.cfg x.reg) x.data else s.mem

/-- The element an acknowledged transaction `x` adds to the trace. -/
def elementOf (x : Txn) (s : State) : TraceElem :=
  if x.we then .wr x.reg (addrOf s.cfg x.reg) x.data
  else .rd x.reg (addrOf s.cfg x.reg) (reply s).rdata

/-- Everything an acknowledged transaction does outside the registers of its rule, or that it waits. -/
def BusOutcome (x : Txn) (s t : State) : Prop :=
  ((reply s).ack = true ∧ t.mem = blockAfter x s ∧ t.era = s.era ∧ t.trace = s.trace ++ [elementOf x s] ∧
    t.cfg = s.cfg ∧ t.busIn = s.busIn.tail) ∨
  ((reply s).ack = false ∧ t = takeReply s)

theorem busOutcome_write {s t : State} {r : Reg} {w : Word} {f : State → State}
    (hf : ∀ u, KeepsBlock u (f u)) (h : busWrite r w f s = .next t) :
    BusOutcome { we := true, reg := r, data := w } s t := by
  rcases busWrite_cases h with ⟨ha, rfl⟩ | ⟨ha, rfl⟩
  · have := hf (performWrite r w (takeReply s))
    exact .inl ⟨ha, this.mem, this.era, this.trace, this.cfg, this.busIn⟩
  · exact .inr ⟨ha, rfl⟩

theorem busOutcome_read {s t : State} {r : Reg} {f : Word → State → State}
    (hf : ∀ v u, KeepsBlock u (f v u)) (h : busRead r f s = .next t) :
    BusOutcome { we := false, reg := r, data := 0 } s t := by
  rcases busRead_cases h with ⟨ha, rfl⟩ | ⟨ha, rfl⟩
  · have := hf (reply s).rdata
      (emit (.rd r (addrOf s.cfg r) (reply s).rdata) (takeReply s))
    exact .inl ⟨ha, this.mem, this.era, this.trace, this.cfg, this.busIn⟩
  · exact .inr ⟨ha, rfl⟩

theorem busOutcome_bySlot {s t : State} {x : Txn} {f g : State → Result}
    (hf : f s = .next t → BusOutcome x s t) (hg : g s = .next t → BusOutcome x s t)
    (h : bySlot s f g = .next t) : BusOutcome x s t := by
  obtain ⟨_, _, ⟨_, h⟩ | ⟨_, h⟩⟩ := bySlot_cases h
  · exact hf h
  · exact hg h

/-- Every element that is a bus transaction. -/
theorem exec_bus {i : Instr} {x : Txn} {s t : State} (hi : i.action = .bus x)
    (h : exec i s = .next t) : BusOutcome x s t := by
  have plain : ∀ (u : Fsm) (v : State), KeepsBlock v (goto u v) := fun _ _ => ⟨rfl, rfl, rfl, rfl, rfl⟩
  have read : ∀ (u : Fsm) (a : Word) (v : State), KeepsBlock v (goto u (latch a v)) :=
    fun _ _ _ => ⟨rfl, rfl, rfl, rfl, rfl⟩
  have first : ∀ v : State, KeepsBlock v (goto .sWrSdcr1 (firstEntry v)) :=
    fun _ => ⟨rfl, rfl, rfl, rfl, rfl⟩
  have finish : ∀ v : State, KeepsBlock v (succeed v) := fun _ => ⟨rfl, rfl, rfl, rfl, rfl⟩
  have commands : ∀ v : State, KeepsBlock v (startCommands v) := fun _ => ⟨rfl, rfl, rfl, rfl, rfl⟩
  have command : ∀ (k : Nat) (v : State), KeepsBlock v (afterCommand k v) :=
    fun _ _ => ⟨rfl, rfl, rfl, rfl, rfl⟩
  cases i <;> cases hi
  case norRdBcr =>
    exact busOutcome_read (f := fun v u => goto .nWrBcr (latch v u)) (fun v u => read _ v u) h
  case norWrBcr => exact busOutcome_write (plain _) h
  case norWrBtr => exact busOutcome_write (plain _) h
  case norWrBwtr => exact busOutcome_write (plain _) h
  case norWrBcrEn => exact busOutcome_write (plain _) h
  case gateRdOff =>
    exact busOutcome_read (f := fun v u => goto .gWrOff (latch v u)) (fun v u => read _ v u) h
  case gateWrOff => exact busOutcome_write (f := fun u => goto .sWrSdcr1 (firstEntry u)) first h
  case sdWrSdcr1 =>
    exact busOutcome_bySlot (busOutcome_write (plain _)) (busOutcome_write (plain _)) h
  case sdWrSdcr2 => exact busOutcome_write (plain _) h
  case sdWrSdtr1 =>
    exact busOutcome_bySlot (busOutcome_write commands) (busOutcome_write (plain _)) h
  case sdWrSdtr2 => exact busOutcome_write commands h
  case cmdStartClock => exact busOutcome_write (command _) h
  case cmdPrecharge => exact busOutcome_write (command _) h
  case cmdAutoRefresh => exact busOutcome_write (command _) h
  case cmdWriteMode => exact busOutcome_write (command _) h
  case cmdNormal => exact busOutcome_write (command _) h
  case sdRdSdsr => exact busOutcome_read keepsBlock_afterPoll h
  case sdWrSdrtr => exact busOutcome_write (plain _) h
  case gateRdOn =>
    exact busOutcome_read (f := fun v u => goto .gWrOn (latch v u)) (fun v u => read _ v u) h
  case gateWrOn => exact busOutcome_write finish h

/-- The two elements that are no transaction. -/
theorem exec_internal {i : Instr} {s t : State} (hi : ∀ x, i.action ≠ .bus x)
    (h : exec i s = .next t) : t.mem = s.mem ∧ t.era = s.era ∧ t.cfg = s.cfg ∧ t.busIn = s.busIn ∧
      (t.trace = s.trace ∨ t.trace = s.trace ++ [.barrier] ∨ ∃ us, t.trace = s.trace ++ [.delay us]) := by
  cases i <;> first | exact absurd rfl (hi _) | skip
  · simp only [exec, execDelay] at h
    injection h with h
    subst h
    split
    · exact ⟨rfl, rfl, rfl, rfl, .inr (.inr ⟨_, rfl⟩)⟩
    · exact ⟨rfl, rfl, rfl, rfl, .inl rfl⟩
  · simp only [exec, execBarrier] at h
    injection h with h
    subst h
    exact ⟨rfl, rfl, rfl, rfl, .inr (.inl rfl)⟩

/-- A step in a cycle in which a transaction `x` is requested. -/
theorem step_request {s t : State} {x : Txn} (hr : (pins s).rst = false) (hx : request s = some x)
    (h : step s = .next t) : BusOutcome x (tick s) t := by
  unfold request at hx
  cases ha : activity s with
  | issue i =>
    rw [ha] at hx
    cases hi : i.action with
    | bus y =>
      simp only [hi] at hx
      injection hx with hx
      subst hx
      rw [step_of_issue hr ha] at h
      exact exec_bus hi h
    | delay us => simp [hi] at hx
    | barrier => simp [hi] at hx
  | undefined f => simp [ha] at hx
  | awaitStart => simp [ha] at hx
  | validate => simp [ha] at hx
  | norNext => simp [ha] at hx
  | sdNext => simp [ha] at hx
  | halted => simp [ha] at hx

/-- A step in a cycle in which none is. -/
theorem step_noRequest {s t : State} (hr : (pins s).rst = false) (hx : request s = none)
    (h : step s = .next t) : t.mem = s.mem ∧ t.era = s.era ∧ t.busIn = s.busIn ∧
      (t.trace = [] ∨ t.trace = s.trace ∨ t.trace = s.trace ++ [.barrier] ∨
        ∃ us, t.trace = s.trace ++ [.delay us]) := by
  rcases step_cases h with ⟨hr', -⟩ | ⟨-, h'⟩
  · simp [hr] at hr'
  rcases h' with ⟨i, ha, h'⟩ | ⟨ha, rfl⟩ | ⟨ha, rfl⟩ | ⟨ha, rfl⟩ | ⟨ha, rfl⟩ | ⟨ha, rfl⟩
  · have hi : ∀ x, i.action ≠ .bus x := by
      intro x hi
      simp [request, ha, hi] at hx
    obtain ⟨hm, he, -, hb, ht⟩ := exec_internal hi h'
    exact ⟨hm, he, hb, .inr ht⟩
  · rcases hostStart_cases (pins s) (tick s) with ⟨_, h⟩ | ⟨_, _, h⟩ | ⟨_, _, h⟩ <;> rw [h]
    · exact ⟨rfl, rfl, rfl, .inl rfl⟩
    · exact ⟨rfl, rfl, rfl, .inl rfl⟩
    · exact ⟨rfl, rfl, rfl, .inr (.inl rfl)⟩
  · have hv : ∀ u : State, (validate u).mem = u.mem ∧ (validate u).era = u.era ∧ (validate u).busIn = u.busIn ∧
        (validate u).trace = u.trace := by
      intro u
      unfold validate validateNor validateSdram
      split <;> repeat' split
      all_goals exact ⟨rfl, rfl, rfl, rfl⟩
    obtain ⟨h1, h2, h3, h4⟩ := hv (tick s)
    exact ⟨h1, h2, h3, .inr (.inl h4)⟩
  · rcases norNext_cases (tick s) with ⟨_, h⟩ | ⟨_, h⟩ <;> rw [h] <;> exact ⟨rfl, rfl, rfl, .inr (.inl rfl)⟩
  · rcases sdNext_cases (tick s) with ⟨_, h⟩ | ⟨_, _, h⟩ | ⟨_, _, h⟩ <;> rw [h] <;>
      exact ⟨rfl, rfl, rfl, .inr (.inl rfl)⟩
  · exact ⟨rfl, rfl, rfl, .inr (.inl rfl)⟩

/-- What a transaction leaves of the block: a read, or a cycle that waits, everything. -/
theorem BusOutcome.blockKept {x : Txn} {s t : State} (h : BusOutcome x s t)
    (hx : x.we = false ∨ (reply s).ack = false) : BlockKept s t := by
  obtain ⟨ha, hm, he, -⟩ | ⟨-, rfl⟩ := h
  · refine readByte_congr ?_ he
    rw [hm, blockAfter]
    simp_all
  · exact readByte_congr rfl rfl

/-- What a write leaves of the block: every byte outside its word. -/
theorem BusOutcome.blockKeptOutside {x : Txn} {s t : State} (h : BusOutcome x s t) :
    BlockKeptOutside (addrOf s.cfg x.reg) s t := by
  intro b hb
  obtain ⟨ha, hm, he, -⟩ | ⟨-, rfl⟩ := h
  · rw [blockAfter] at hm
    split at hm
    · exact readByte_writeWord_other _ _ hm he hb
    · exact readByte_congr hm he b
  · exact readByte_congr rfl rfl b

/-- What an acknowledged write does. -/
theorem BusOutcome.writeDone {r : Reg} {w : Word} {s t : State}
    (h : BusOutcome { we := true, reg := r, data := w } s t) (ha : (reply s).ack = true) :
    WriteDone s t r (addrOf s.cfg r) w := by
  have ho := h.blockKeptOutside
  obtain ⟨-, hm, -, ht, -⟩ | ⟨ha', -⟩ := h
  · exact ⟨readWord_writeWord _ _ hm, ho, ht⟩
  · simp [ha] at ha'

/-- What an acknowledged read does. -/
theorem BusOutcome.readDone {r : Reg} {s t : State}
    (h : BusOutcome { we := false, reg := r, data := 0 } s t) (ha : (reply s).ack = true) :
    ReadDone s t r (addrOf s.cfg r) := by
  have ho := h.blockKept (.inl rfl)
  obtain ⟨-, -, -, ht, -⟩ | ⟨ha', -⟩ := h
  · exact ⟨ho, ht⟩
  · simp [ha] at ha'

end Sys2Proof.Machine
end

