-- ==== Sys2Proof/Laws/Flow.lean ====
section
/-! SUPPORT. Small lemmas of the flows of Safety.lean, of words in a trace, and of many cycles. -/

namespace Sys2Proof.Machine

/-- A waiting cycle keeps the invariant of the registers. -/
theorem SeqInv.replied {s : State} (h : SeqInv s) : SeqInv (replied s) :=
  ⟨h.cycles, h.block, h.nor, h.sdram, h.gate, h.slot2, h.kBound, h.delay, h.dcntFits, h.pcntFits,
    h.timeout, h.invalid, h.fatalRun⟩

theorem norUsed_length {c : Cfg} (h : norInvalid c = false) :
    (norUsed c).length = c.norCount.toNat := by
  have := norCount_le h
  simp [norUsed]
  omega

theorem sdUsed_length {c : Cfg} (h : sdInvalid c = false) :
    (sdUsed c).length = c.sdCount.toNat := by
  have := sdCount_le h
  simp [sdUsed]
  omega

/-- The flow of one more NOR entry. -/
theorem norFlow_snoc (c : Cfg) (es : List NorEntry) (e : NorEntry) (vs : List Word) (v : Word)
    (h : vs.length = es.length) :
    norFlow c (es ++ [e]) (vs ++ [v]) = norFlow c es vs ++ norEntryFlow c e v := by
  simp [norFlow, List.zip_append h.symm]

theorem norFlow_cons (c : Cfg) (e : NorEntry) (es : List NorEntry) (v : Word) (vs : List Word) :
    norFlow c (e :: es) (v :: vs) = norEntryFlow c e v ++ norFlow c es vs := by simp [norFlow]

/-- The flow of one more command. -/
theorem stepsFrom_snoc (c : Cfg) (e : SdEntry) (k : Nat) (ps : List Poll) (p : Poll) :
    stepsFrom c e k (ps ++ [p]) = stepsFrom c e k ps ++ stepFlow c e (k + ps.length) p := by
  induction ps generalizing k with
  | nil => simp [stepsFrom]
  | cons q ps ih => simp [stepsFrom, ih, Nat.add_assoc, Nat.add_comm 1]

theorem wordsTo_append (r : Reg) (a b : List TraceElem) :
    wordsTo r (a ++ b) = wordsTo r a ++ wordsTo r b := by simp [wordsTo]

theorem answersFrom_append (r : Reg) (a b : List TraceElem) :
    answersFrom r (a ++ b) = answersFrom r a ++ answersFrom r b := by simp [answersFrom]

theorem delaysOf_append (a b : List TraceElem) : delaysOf (a ++ b) = delaysOf a ++ delaysOf b := by
  simp [delaysOf]

/-- `m + n` cycles are `m` cycles and then `n`. -/
theorem steps_add (m n : Nat) {s t : State} (h : steps m s = .next t) :
    steps (m + n) s = steps n t := by
  induction m generalizing s with
  | zero => injection h with h; rw [h, Nat.zero_add]
  | succ m ih =>
    rw [Nat.succ_add]
    simp only [steps] at h ⊢
    cases hs : step s with
    | next u => rw [hs] at h; exact ih h
    | fault f => simp [hs] at h
    | refused r => simp [hs] at h

theorem steps_succ (n : Nat) {s t : State} (h : steps n s = .next t) : steps (n + 1) s = step t := by
  rw [steps_add n 1 h, steps]
  cases step t <;> rfl

/-- HOST's script stays free of resets. -/
theorem NoReset.tail {s : State} (h : NoReset s) :
    (pins s).rst = false ∧ ∀ t : State, t.hostIn = s.hostIn.tail → NoReset t := by
  obtain ⟨h1, p, h2, h3⟩ := h
  refine ⟨?_, fun t ht => ⟨fun q hq => ?_, p, by rw [ht]; exact h2, h3⟩⟩
  · unfold pins Script.head
    cases hi : s.hostIn.items with
    | nil => simp [h2, h3]
    | cons x xs => exact h1 x (by simp [hi])
  · rw [ht] at hq
    exact h1 q (List.mem_of_mem_tail hq)

/-- CTRL's script stays prompt, and so does its reply in this cycle. -/
theorem PromptWith.tail {P : Word → Prop} {s : State} (h : PromptWith P s) :
    ((reply s).ack = true ∧ P (reply s).rdata) ∧
    ∀ t : State, t.busIn = s.busIn.tail → PromptWith P t := by
  obtain ⟨h1, r, h2, h3⟩ := h
  refine ⟨?_, fun t ht => ⟨fun q hq => ?_, r, by rw [ht]; exact h2, h3⟩⟩
  · unfold reply Script.head
    cases hi : s.busIn.items with
    | nil => simpa [h2] using h3
    | cons x xs => exact h1 x (by simp [hi])
  · rw [ht] at hq
    exact h1 q (List.mem_of_mem_tail hq)

/-- CTRL's script keeps answering as it does, and so does its reply in this cycle. -/
theorem AnswersWith.tail {P : Word → Prop} {s : State} (h : AnswersWith P s) :
    ((reply s).ack = true → P (reply s).rdata) ∧
    ∀ t : State, t.busIn = s.busIn.tail → AnswersWith P t := by
  obtain ⟨h1, r, h2, h3⟩ := h
  refine ⟨?_, fun t ht => ⟨fun q hq => ?_, r, by rw [ht]; exact h2, h3⟩⟩
  · unfold reply Script.head
    cases hi : s.busIn.items with
    | nil => simpa [h2] using h3
    | cons x xs => exact h1 x (by simp [hi])
  · rw [ht] at hq
    exact h1 q (List.mem_of_mem_tail hq)

/-- CTRL's script keeps acknowledging in the end. -/
theorem AcksInTheEnd.tail {s t : State} (h : AcksInTheEnd s) (ht : t.busIn = s.busIn.tail) :
    AcksInTheEnd t := by
  obtain ⟨r, h1, h2⟩ := h
  exact ⟨r, by rw [ht]; exact h1, h2⟩

/-- An acknowledge in every first cycle is one in the end. -/
theorem PromptWith.acksInTheEnd {P : Word → Prop} {s : State} (h : PromptWith P s) : AcksInTheEnd s := by
  obtain ⟨-, r, h1, h2, -⟩ := h
  exact ⟨r, h1, h2⟩

/-- Decoding the bytes of a code is decoding the code. -/
theorem decode_bytesOfWord (c : Code) (rest : List Byte) :
    decode (bytesOfWord c.data ++ bytesOfWord c.ctx ++ rest) =
      (decodeCode c).map fun i => (i, rest) := by
  simp only [bytesOfWord, List.cons_append, List.nil_append, decode, wordOfBytes_byteOf]
  cases decodeCode c <;> rfl

end Sys2Proof.Machine
end

