-- ==== Sys2Proof/Laws/PerInstr.lean ====
section
/-! SUPPORT. Facts made per instruction. ContextReads: the second word of an element's code names
the entry, and the register of its transaction, that the element has. -/

namespace Sys2Proof.Laws

def ContextReads.Statement (i : Instr) : Prop :=
  (encodeCode i).entry = i.entry ∧ bitsAt (encodeCode i).ctx 20 12 = 0 ∧
  ∀ t, i.action = .bus t → (encodeCode i).reg = .ok t.reg

/-- The second word of a code gives back what it was made of. -/
theorem contextWord_reads (kind : Word) (hk : kind.toNat < 4) (ent : Entry) (r : Reg)
    (second : Bool) (d : Word) :
    (Code.entry { data := d, ctx := contextWord kind ent r.offset second }) = ent ∧
    bitsAt (contextWord kind ent r.offset second) 20 12 = 0 ∧
    (Code.reg { data := d, ctx := contextWord kind ent r.offset second }) = .ok r := by
  have hall : ∀ r ∈ Reg.all, ∀ k < 4, ∀ e second : Bool,
      Code.entry ⟨0, contextWord (BitVec.ofNat 32 k) (if e then .sdram else .nor) r.offset second⟩ =
        (if e then .sdram else .nor) ∧
      bitsAt (contextWord (BitVec.ofNat 32 k) (if e then .sdram else .nor) r.offset second) 20 12 = 0 ∧
      Code.reg ⟨0, contextWord (BitVec.ofNat 32 k) (if e then .sdram else .nor) r.offset second⟩ =
        .ok r := by decide
  have := hall r (Reg.mem_all r) kind.toNat hk (ent == .sdram) second
  have hk' : BitVec.ofNat 32 kind.toNat = kind := by simp
  rw [hk'] at this
  cases ent <;> exact this

/-- A bus element. -/
theorem ContextReads.bus {i : Instr} {t : Txn} (h : i.action = .bus t) :
    ContextReads.Statement i := by
  have hc : encodeCode i =
      ⟨t.data, contextWord (if t.we then 0 else 1) i.entry t.reg.offset (i == .gateRdOn)⟩ := by
    simp [encodeCode, h]
  have := contextWord_reads (if t.we then 0 else 1) (by cases t.we <;> decide) i.entry t.reg
    (i == .gateRdOn) t.data
  refine ⟨by rw [hc]; exact this.1, by rw [hc]; exact this.2.1, fun u hu => ?_⟩
  rw [h] at hu; injection hu with hu; subst hu
  rw [hc]; exact this.2.2

namespace ContextReads

theorem norRdBcr (b : BitVec 2) : Statement (.norRdBcr b) := bus rfl

theorem norWrBcr (b : BitVec 2) (c : NorCtrl) (p : Word) : Statement (.norWrBcr b c p) := bus rfl

theorem norWrBtr (b : BitVec 2) (t : NorTiming) : Statement (.norWrBtr b t) := bus rfl

theorem norWrBwtr (b : BitVec 2) (t : NorWriteTiming) : Statement (.norWrBwtr b t) := bus rfl

theorem norWrBcrEn (b : BitVec 2) (c : NorCtrl) (p : Word) : Statement (.norWrBcrEn b c p) := bus rfl

theorem gateRdOff : Statement .gateRdOff := bus rfl

theorem gateWrOff (v : BitVec 31) : Statement (.gateWrOff v) := bus rfl

theorem sdWrSdcr1 (c : SdramCtrl) : Statement (.sdWrSdcr1 c) := bus rfl

theorem sdWrSdcr2 (c : SdramReduced) : Statement (.sdWrSdcr2 c) := bus rfl

theorem sdWrSdtr1 (t : SdramTiming) : Statement (.sdWrSdtr1 t) := bus rfl

theorem sdWrSdtr2 (t : SdramTiming) : Statement (.sdWrSdtr2 t) := bus rfl

theorem cmdStartClock (l : Slot) : Statement (.cmdStartClock l) := bus rfl

theorem cmdPrecharge (l : Slot) : Statement (.cmdPrecharge l) := bus rfl

theorem cmdAutoRefresh (l : Slot) : Statement (.cmdAutoRefresh l) := bus rfl

theorem cmdWriteMode (l : Slot) (c : BitVec 2) : Statement (.cmdWriteMode l c) := bus rfl

theorem cmdNormal (l : Slot) : Statement (.cmdNormal l) := bus rfl

theorem delay (us : Nat) : Statement (.delay us) :=
  ⟨(by decide : Code.entry ⟨0, contextWord 2 .sdram 0 false⟩ = .sdram),
    (by decide : bitsAt (contextWord 2 .sdram 0 false) 20 12 = 0), by intro t h; cases h⟩

theorem barrier : Statement .barrier :=
  ⟨by decide, by decide, by intro t h; cases h⟩

theorem sdRdSdsr : Statement .sdRdSdsr := bus rfl

theorem sdWrSdrtr (v : BitVec 31) : Statement (.sdWrSdrtr v) := bus rfl

theorem gateRdOn : Statement .gateRdOn := bus rfl

theorem gateWrOn (v : BitVec 31) : Statement (.gateWrOn v) := bus rfl

end ContextReads

end Sys2Proof.Laws
end

