-- ==== Sys2Proof/Tests/Slice0.lean ====
section
/-! SUPPORT. Tests of one step or one word each, with expected values from the spec's own tables
(95_test_vectors.md, cited as TV), and for every statement with hypotheses a witness that meets them. -/

namespace Sys2Proof.Tests

open Sys2Proof Sys2Proof.Machine

/-! ### The configurations of TV -/

/-- NOR16 of TV. -/
def nor16 : NorCtrl := { memType := 2, dataWidth := 1, writeEn := 1 }

/-- TN of TV. -/
def tn : NorTiming :=
  { addrSetup := 2, addrHold := 1, dataSetup := 5, busTurnaround := 1, clkDiv := 2, dataLatency := 2 }

/-- TMAX of TV. -/
def tmax : NorTiming :=
  { addrSetup := 15, addrHold := 15, dataSetup := 255, busTurnaround := 15, clkDiv := 16,
    dataLatency := 17, accessMode := 3 }

/-- The control record of entry A of TV. -/
def ctrlA : SdramCtrl :=
  { sdclk := 2, casLatency := 3, noBanks := 1, memoryWidth := 1, noRows := 2, noColumns := 2,
    rdBurst := 1 }

/-- The control record of entry B of TV. -/
def ctrlB : SdramCtrl :=
  { sdclk := 3, casLatency := 2, memoryWidth := 2, noRows := 1, rdPipeDelay := 1 }

/-- The timing record of entry A of TV. -/
def timingA : SdramTiming := { tmrd := 1, txsr := 6, tras := 3, trc := 5, twr := 1, trp := 1, trcd := 1 }

/-- The timing record of entry B of TV. -/
def timingB : SdramTiming := { tmrd := 1, txsr := 7, tras := 4, trc := 6, twr := 2, trp := 2, trcd := 2 }

/-- Entry A of TV in a slot. -/
def entryA (slot : Slot) : SdEntry :=
  { slot := slot, ctrlPresent := true, timingPresent := true, refPresent := true, ctrl := ctrlA,
    timing := timingA, refCount := 1386 }

/-- Entry B of TV in a slot. -/
def entryB (slot : Slot) : SdEntry :=
  { slot := slot, ctrlPresent := true, timingPresent := true, refPresent := true, ctrl := ctrlB,
    timing := timingB, refCount := 1539 }

/-- A valid NOR entry. -/
def norEntryOf (b : BitVec 3) : NorEntry :=
  { bankIdx := b, ctrlPresent := true, timingPresent := true, ctrl := nor16, timing := tn }

/-- Four NOR banks, of which `n` are used. -/
def norCfg (n : BitVec 3) : Cfg :=
  { base := 0xA0000000, norCount := n, nor0 := norEntryOf 0, nor1 := norEntryOf 1,
    nor2 := norEntryOf 2, nor3 := norEntryOf 3 }

/-- Entry A in slot 1 and entry B in slot 2, of which `n` are used. -/
def sdCfg (family n : BitVec 2) : Cfg :=
  { base := 0xA0000000, family := family, sdCount := n, sd0 := entryA .slot1, sd1 := entryB .slot2 }

/-- Entry B in slot 2 alone. -/
def slot2Cfg : Cfg := { base := 0xA0000000, sdCount := 1, sd0 := entryB .slot2 }

/-- HOST does nothing, CTRL acknowledges in the first cycle and answers `v`. -/
def inState (t : Fsm) (e : Entry) (c : Cfg) (v : Word) : State :=
  { st := t, ent := e, i := 0, k := 0, dcnt := 0, pcnt := 0, rmw := 0, err := .ok, cfg := c, mem := [], era := 0,
    par := { cyclesPerUs := 1, pollTimeout := 0 },
    hostIn := { items := [], rest := some {} },
    busIn := { items := [], rest := some { ack := true, rdata := v } }, now := 0, trace := [] }

/-- The same, with no acknowledge. -/
def waiting (s : State) : State := { s with busIn := { items := [], rest := some {} } }

/-- HOST drives `p` in the next cycle. -/
def driven (p : HostPins) (s : State) : State := { s with hostIn := s.hostIn.push p }

/-- Something about the next state, none where there is none. -/
def see {α : Type} (f : State → α) : Result → Option α
  | .next t => some (f t)
  | .fault _ => none
  | .refused _ => none

/-! ### WellFormed: each check refuses a term -/

theorem test_wf_accepts : (Instr.norWrBcr 0 nor16 0xFF000080).wellFormed = true ∧
    (Instr.norWrBtr 0 tmax).wellFormed = true ∧ (Instr.delay 100).wellFormed = true := by decide

theorem test_wf_preserved_bit_0 : (Instr.norWrBcr 0 nor16 0x00000001).wellFormed = false := by decide

theorem test_wf_preserved_bit_23 : (Instr.norWrBcrEn 0 nor16 0x00800000).wellFormed = false := by decide

theorem test_wf_divisor_0 : (Instr.norWrBtr 0 { tn with clkDiv := 0 }).wellFormed = false := by decide

theorem test_wf_divisor_17 : (Instr.norWrBtr 0 { tn with clkDiv := 17 }).wellFormed = false := by decide

theorem test_wf_latency_1 : (Instr.norWrBtr 0 { tn with dataLatency := 1 }).wellFormed = false := by decide

theorem test_wf_latency_18 : (Instr.norWrBtr 0 { tn with dataLatency := 18 }).wellFormed = false := by decide

theorem test_wf_delay_50 : (Instr.delay 50).wellFormed = false := by decide

/-! ### Decoding: one word written out for every row (TV 2.1 to 2.9; second words as log 9 says) -/

/-- The word `d` with the second word `x` decodes to `i`. -/
abbrev Decodes (d x : Word) (i : Instr) : Prop := (decodeCode { data := d, ctx := x }).toOption = some i

theorem test_decode_norRdBcr : Decodes 0 0x00010010 (.norRdBcr 2) := by decide

theorem test_decode_norWrBcr : Decodes 0xFF0010D8 0x00000018 (.norWrBcr 3 nor16 0xFF000080) := by decide

theorem test_decode_norWrBtr : Decodes 0x3FFFFFFF 0x00000014 (.norWrBtr 2 tmax) := by decide

theorem test_decode_norWrBwtr : Decodes 0x300FFFFF 0x00000114 (.norWrBwtr 2 tmax.toWrite) := by decide

theorem test_decode_norWrBcrEn : Decodes 0x000010D9 0 (.norWrBcrEn 0 nor16 0x00000080) := by decide

theorem test_decode_gateRdOff : Decodes 0 0x00050000 .gateRdOff := by decide

theorem test_decode_gateWrOff : Decodes 0x7FFFFFFF 0x00040000 (.gateWrOff 0x7FFFFFFF) := by decide

theorem test_decode_sdWrSdcr1 : Decodes 0x000019DA 0x00040140 (.sdWrSdcr1 ctrlA) := by decide

theorem test_decode_sdWrSdcr2 : Decodes 0x00000124 0x00040144 (.sdWrSdcr2 ctrlB.toReduced) := by decide

theorem test_decode_sdWrSdtr1 : Decodes 0x01115361 0x00040148 (.sdWrSdtr1 timingA) := by decide

theorem test_decode_sdWrSdtr2 : Decodes 0x02226471 0x0004014C (.sdWrSdtr2 timingB) := by decide

theorem test_decode_startClock : Decodes 0x00000011 0x00040150 (.cmdStartClock .slot1) := by decide

theorem test_decode_precharge : Decodes 0x0000000A 0x00040150 (.cmdPrecharge .slot2) := by decide

theorem test_decode_autoRefresh : Decodes 0x000000F3 0x00040150 (.cmdAutoRefresh .slot1) := by decide

theorem test_decode_writeMode : Decodes 0x0000400C 0x00040150 (.cmdWriteMode .slot2 2) := by decide

theorem test_decode_normal : Decodes 0x00000010 0x00040150 (.cmdNormal .slot1) := by decide

theorem test_decode_delay : Decodes 200 0x00060000 (.delay 200) := by decide

theorem test_decode_barrier : Decodes 0 0x00070000 .barrier := by decide

theorem test_decode_sdRdSdsr : Decodes 0x00000026 0x00050158 .sdRdSdsr := by decide

theorem test_decode_sdWrSdrtr : Decodes 0xFFFFFFFE 0x00040154 (.sdWrSdrtr 0x7FFFFFFF) := by decide

theorem test_decode_gateRdOn : Decodes 0 0x000D0000 .gateRdOn := by decide

theorem test_decode_gateWrOn : Decodes 0x800030DB 0x00040000 (.gateWrOn 0x000030DB) := by decide

/-- Bytes, the least significant first, and what follows them. -/
theorem test_decode_bytes : (decode [0xD4, 0x0A, 0x00, 0x00, 0x54, 0x01, 0x04, 0x00, 0x77]).toOption =
    some (.sdWrSdrtr 1386, [0x77]) := by decide

theorem test_encode_bytes :
    encode (.cmdWriteMode .slot1 3) = [0x14, 0x60, 0x00, 0x00, 0x50, 0x01, 0x04, 0x00] := by decide

/-- Refusals: MODE 5, both target bits, an odd offset, a NOR bank's register in an SDRAM run, bit 0 of
a refresh word, a delay of 50, seven bytes. -/
theorem test_decode_refuses :
    ([⟨0x15, 0x00040150⟩, ⟨0x19, 0x00040150⟩, ⟨0, 0x00000002⟩, ⟨0, 0x00040004⟩, ⟨1, 0x00040154⟩,
      ⟨50, 0x00060000⟩] : List Code).all (fun c => (decodeCode c).toOption.isNone) = true ∧
    (decode [0, 0, 0, 0, 0, 0, 0]).toOption = none := by decide

/-- A table word alone says a write of BCR1 in a NOR run (log 11). -/
theorem test_table_word : decodeTableWord 32 0x000010D9 = some (.norWrBcrEn 0 nor16 0x00000080) := by
  decide

/-! ### One step (TV Part 2; 2.2 and the programs of Part 3 give the words) -/

theorem test_norRdBcr : see (fun t => (t.st, t.rmw))
    (step (inState .nRdBcr .nor (norCfg 1) 0x800030DB)) = some (.nWrBcr, 0x800030DB) := by decide

theorem test_norWrBcr : see (fun t => (t.st, readWord t 0xA0000000))
    (step { inState .nWrBcr .nor (norCfg 1) 0 with rmw := 0xFFFFFFFF }) =
    some (.nWrBtr, 0xFF0010D8) := by decide

theorem test_norWrBtr : see (fun t => (t.st, readWord t 0xA000001C))
    (step { inState .nWrBtr .nor (norCfg 4) 0 with i := 3 }) = some (.nWrBwtr, 0x00110512) := by decide

theorem test_norWrBwtr : see (fun t => (t.st, readWord t 0xA000011C))
    (step { inState .nWrBwtr .nor (norCfg 4) 0 with i := 3 }) =
    some (.nWrBcrEn, 0x00010512) := by decide

theorem test_norWrBcrEn : see (fun t => (t.st, readWord t 0xA0000000))
    (step { inState .nWrBcrEn .nor (norCfg 1) 0 with rmw := 0x000030DB }) =
    some (.nNext, 0x000010D9) := by decide

theorem test_gateRdOff : see (fun t => (t.st, t.rmw))
    (step (inState .gRdOff .sdram (sdCfg 2 1) 0x800030DB)) = some (.gWrOff, 0x800030DB) := by decide

theorem test_gateWrOff : see (fun t => (t.st, readWord t 0xA0000000))
    (step { inState .gWrOff .sdram (sdCfg 2 1) 0 with rmw := 0x800030DB }) =
    some (.sWrSdcr1, 0x000030DB) := by decide

theorem test_sdWrSdcr1 : see (fun t => (t.st, readWord t 0xA0000140))
    (step (inState .sWrSdcr1 .sdram (sdCfg 0 1) 0)) = some (.sWrSdtr1, 0x000019DA) := by decide

theorem test_sdWrSdcr1_slot2 : see (fun t => (t.st, readWord t 0xA0000140))
    (step (inState .sWrSdcr1 .sdram slot2Cfg 0)) = some (.sWrSdcr2, 0x00002D24) := by decide

theorem test_sdWrSdcr2 : see (fun t => (t.st, readWord t 0xA0000144))
    (step (inState .sWrSdcr2 .sdram slot2Cfg 0)) = some (.sWrSdtr1, 0x00000124) := by decide

theorem test_sdWrSdtr1 : see (fun t => (t.st, t.k, readWord t 0xA0000148))
    (step { inState .sWrSdtr1 .sdram (sdCfg 0 1) 0 with k := 4 }) =
    some (.sWrCmd, 0, 0x01115361) := by decide

theorem test_sdWrSdtr1_slot2 : see (fun t => (t.st, t.k))
    (step { inState .sWrSdtr1 .sdram slot2Cfg 0 with k := 4 }) = some (.sWrSdtr2, 4) := by decide

theorem test_sdWrSdtr2 : see (fun t => (t.st, t.k, readWord t 0xA000014C))
    (step { inState .sWrSdtr2 .sdram slot2Cfg 0 with k := 4 }) =
    some (.sWrCmd, 0, 0x02226471) := by decide

theorem test_cmdStartClock : see (fun t => (t.st, t.dcnt, readWord t 0xA0000150))
    (step (inState .sWrCmd .sdram (sdCfg 0 1) 0)) = some (.sDelay, 200, 0x00000011) := by decide

theorem test_cmdPrecharge : see (fun t => (t.st, t.dcnt, readWord t 0xA0000150))
    (step { inState .sWrCmd .sdram slot2Cfg 0 with k := 1 }) = some (.sDelay, 100, 0x0000000A) := by decide

theorem test_cmdAutoRefresh : see (fun t => (t.st, t.dcnt, readWord t 0xA0000150))
    (step { inState .sWrCmd .sdram slot2Cfg 0 with k := 2 }) = some (.sDelay, 100, 0x000000EB) := by decide

theorem test_cmdWriteMode : see (fun t => (t.st, t.dcnt, readWord t 0xA0000150))
    (step { inState .sWrCmd .sdram (sdCfg 0 1) 0 with k := 3 }) =
    some (.sDelay, 100, 0x00006014) := by decide

theorem test_cmdNormal : see (fun t => (t.st, t.dcnt, readWord t 0xA0000150))
    (step { inState .sWrCmd .sdram (sdCfg 0 1) 0 with k := 4, dcnt := 9 }) =
    some (.sBarrier, 0, 0x00000010) := by decide

theorem test_delay_counts : see (fun t => (t.st, t.dcnt, t.trace))
    (step { inState .sDelay .sdram (sdCfg 0 1) 0 with dcnt := 2 }) = some (.sDelay, 1, []) := by decide

theorem test_delay_ends : see (fun t => (t.st, t.dcnt, t.trace))
    (step { inState .sDelay .sdram (sdCfg 0 1) 0 with dcnt := 1 }) =
    some (.sBarrier, 0, [.delay 200]) := by decide

theorem test_barrier : see (fun t => (t.st, t.pcnt, t.busIn))
    (step { inState .sBarrier .sdram (sdCfg 0 1) 0 with pcnt := 2 }) =
    some (.sPoll, 0, { items := [], rest := some { ack := true } }) := by decide

/-- TV 2.8: 0x1F has bit 5 clear; only bit 5 counts. -/
theorem test_poll_ready : see (fun t => (t.st, t.k))
    (step (inState .sPoll .sdram (sdCfg 0 1) 0xFFFFFFDF)) = some (.sWrCmd, 1) := by decide

/-- TV 2.8: the second busy answer of two. -/
theorem test_poll_times_out : see (fun t => (t.st, t.err, t.pcnt))
    (step { inState .sPoll .sdram (sdCfg 0 1) 0x20 with
            par := { cyclesPerUs := 1, pollTimeout := 2 }, pcnt := 1 }) =
    some (.fatal, .etimeout, 1) := by decide

theorem test_sdWrSdrtr : see (fun t => (t.st, readWord t 0xA0000154))
    (step (inState .sWrSdrtr .sdram { sdCfg 0 1 with sd0 := { entryA .slot1 with refCount := 0xFFFFFFFF } } 0)) =
    some (.sNext, 0xFFFFFFFE) := by decide

theorem test_gateRdOn : see (fun t => (t.st, t.rmw))
    (step (inState .gRdOn .sdram (sdCfg 2 1) 0x000030DB)) = some (.gWrOn, 0x000030DB) := by decide

theorem test_gateWrOn : see (fun t => (t.st, t.err, readWord t 0xA0000000))
    (step { inState .gWrOn .sdram (sdCfg 2 1) 0 with rmw := 1 }) =
    some (.done, .ok, 0x80000001) := by decide

/-- TV 2.11: both strobes start a NOR run. -/
theorem test_both_strobes : see (fun t => (t.st, t.ent, t.cfg))
    (step (driven { startNor := true, startSdram := true, cfg := norCfg 1 } (inState .idle .sdram {} 0))) =
    some (.validate, .nor, norCfg 1) := by decide

/-- TV 2.4: a duplicate bank, a bank index of 4, and a base that would wrap are invalid; the last base
that does not wrap is valid. -/
theorem test_nor_validation :
    norInvalid { norCfg 2 with nor1 := norEntryOf 0 } = true ∧
    norInvalid { norCfg 1 with nor0 := norEntryOf 4 } = true ∧
    norInvalid { norCfg 1 with base := 0xFFFFFEA8 } = true ∧
    norInvalid { norCfg 1 with base := 0xFFFFFEA4 } = false := by decide

/-- TV 2.10: two entries in one slot; family 3, which an empty run does not look at. -/
theorem test_sdram_validation :
    sdInvalid { sdCfg 0 2 with sd1 := entryB .slot1 } = true ∧ sdInvalid (sdCfg 3 1) = true ∧
    sdInvalid { sdCfg 3 0 with base := 0 } = false := by decide

/-! ### Witnesses: the hypotheses of each statement are met

`witness_<Name>` meets the hypotheses of `Obligations.<Name>`, clause by clause, at the ends of the
ranges a clause gives. -/

/-- Whether a step, or an element, has a next state. -/
def goesOn (r : Result) : Bool := (see (fun _ => ()) r).isSome

theorem witness_ResetLeaves :
    (pins (driven { rst := true } (inState .done .nor {} 0))).rst = true ∧
    busy (driven { rst := true } (inState .done .nor {} 0)) = false ∧
    (pins (driven { rst := true } (inState .sPoll .sdram {} 0))).rst = true := by decide

theorem witness_StartAccepted :
    (pins (inState .idle .nor {} 0)).rst = false ∧ (pins (inState .idle .nor {} 0)).startNor = false ∧
    (pins (inState .idle .nor {} 0)).startSdram = false ∧
    (pins (driven { startNor := true } (inState .done .nor {} 0))).startNor = true ∧
    (pins (driven { startSdram := true } (inState .done .nor {} 0))).startSdram = true ∧
    (pins (driven { startSdram := true } (inState .done .nor {} 0))).startNor = false := by decide

theorem witness_HostInputsIgnoredInRun :
    (pins (inState .sPoll .sdram (sdCfg 0 1) 0)).rst = false ∧
    (pins (driven { startNor := true, cfg := norCfg 1 } (inState .sPoll .sdram (sdCfg 0 1) 0))).rst =
      false ∧
    goesOn (step (inState .sPoll .sdram (sdCfg 0 1) 0)) = true := by decide

/-- The last bank, and a latch that differs outside the preserved bits only. -/
theorem witness_NorReadControl :
    (norEntry { inState .nRdBcr .nor (norCfg 4) 0 with i := 3 }).bankIdx.toNat < 4 ∧
    (reply (inState .nRdBcr .nor (norCfg 4) 0)).ack = true ∧
    (0x00FFFF7F : Word) &&& 0xFF000080 =
      (inState .nWrBcr .nor (norCfg 4) 0).rmw &&& 0xFF000080 := by decide

/-- For NorWriteControl, NorWriteTimings and NorWriteEnable, at the last bank. -/
theorem witness_NorWrites :
    (∀ t ∈ [Fsm.nWrBcr, .nWrBtr, .nWrBwtr, .nWrBcrEn],
      (norEntry { inState t .nor (norCfg 4) 0 with i := 3 }).bankIdx.toNat < 4 ∧
      (reply (inState t .nor (norCfg 4) 0)).ack = true) := by decide

theorem witness_NextEntryStates :
    ({ inState .nNext .nor (norCfg 4) 0 with i := 2 }.i.toNat + 1 < (norCfg 4).norCount.toNat) ∧
    ((norCfg 4).norCount.toNat ≤ { inState .nNext .nor (norCfg 4) 0 with i := 3 }.i.toNat + 1) ∧
    ({ inState .sNext .sdram (sdCfg 2 2) 0 with i := 0 }.i.toNat + 1 < (sdCfg 2 2).sdCount.toNat) ∧
    ((sdCfg 2 2).sdCount.toNat ≤ { inState .sNext .sdram (sdCfg 2 2) 0 with i := 1 }.i.toNat + 1) ∧
    (sdCfg 2 2).family = 2 ∧ (sdCfg 1 2).family ≠ 2 ∧
    (pins (inState .sNext .sdram (sdCfg 2 2) 0)).rst = false := by decide

theorem witness_NorValidation :
    norInvalid (norCfg 5) = true ∧ (norCfg 0).norCount = 0 ∧ norInvalid (norCfg 4) = false ∧
    (norCfg 4).norCount ≠ 0 ∧ (pins (inState .validate .nor (norCfg 4) 0)).rst = false := by decide

theorem witness_SdramValidation :
    sdInvalid (sdCfg 0 3) = true ∧ (sdCfg 3 0).sdCount = 0 ∧ sdInvalid (sdCfg 2 2) = false ∧
    sdInvalid (sdCfg 1 2) = false ∧ (sdCfg 2 2).sdCount ≠ 0 ∧ (sdCfg 2 2).family = 2 ∧
    (sdCfg 1 2).family ≠ 2 ∧ (pins (inState .validate .sdram (sdCfg 2 2) 0)).rst = false := by decide

theorem witness_GateOff :
    (reply (inState .gRdOff .sdram (sdCfg 2 1) 0)).ack = true ∧
    see (·.st) (step (inState .validate .sdram (sdCfg 2 1) 0)) = some .gRdOff := by decide

theorem witness_GateOn :
    (reply (inState .gRdOn .sdram (sdCfg 2 1) 0)).ack = true ∧
    see (·.st) (step (inState .sNext .sdram (sdCfg 2 1) 0)) = some .gRdOn := by decide

/-- BCR1 holds the word that CTRL answers. -/
def gateReads : State :=
  { inState .gRdOn .sdram (sdCfg 2 1) 0x000030DB with mem := writeWord [] 0xA0000000 0x000030DB }

theorem witness_GateOnPlainRegister :
    (pins gateReads).rst = false ∧
    PlainAnswer (tick gateReads) ∧ (reply (tick gateReads)).ack = true ∧
    ∃ u t, step gateReads = .next u ∧ (pins u).rst = false ∧ (reply (tick u)).ack = true ∧
      step u = .next t := by
  refine ⟨by decide, ?_, by decide, _, _, rfl, by decide, by decide, rfl⟩
  intro b hq
  rcases index_cases b with rfl | rfl | rfl | rfl
  · decide
  all_goals exact absurd hq (by decide)

theorem witness_SdramWriteControl :
    sdEntry { inState .sWrSdcr1 .sdram (sdCfg 0 2) 0 with i := 1 } = some (entryB .slot2) ∧
    sdEntry (inState .sWrSdcr1 .sdram (sdCfg 0 2) 0) = some (entryA .slot1) ∧
    (reply (inState .sWrSdcr1 .sdram (sdCfg 0 2) 0)).ack = true ∧
    see (·.st) (step (inState .sWrSdcr1 .sdram slot2Cfg 0)) = some .sWrSdcr2 := by decide

theorem witness_SdramWriteTiming :
    sdEntry (inState .sWrSdtr1 .sdram slot2Cfg 0) = some (entryB .slot2) ∧
    sdEntry (inState .sWrSdtr1 .sdram (sdCfg 0 1) 0) = some (entryA .slot1) ∧
    sdEntry (inState .sWrSdtr2 .sdram slot2Cfg 0) = some (entryB .slot2) ∧
    (reply (inState .sWrSdtr2 .sdram slot2Cfg 0)).ack = true := by decide

theorem witness_SdramCommands :
    sdEntry { inState .sWrCmd .sdram (sdCfg 0 2) 0 with k := 4, i := 1 } = some (entryB .slot2) ∧
    (reply (inState .sWrCmd .sdram (sdCfg 0 2) 0)).ack = true ∧
    0 < (inState .sWrCmd .sdram (sdCfg 0 2) 0).par.cyclesPerUs := by decide

/-- The first and the last value of the counter, and the last command with a delay. -/
theorem witness_DelayCounts :
    (3 : BitVec 3).toNat < 4 ∧
    (∀ n ∈ [1, 2, 200], 0 < n ∧
      n ≤ 200 * { inState .sDelay .sdram (sdCfg 0 1) 0 with dcnt := n }.par.cyclesPerUs) := by decide

theorem witness_BarrierCycle :
    see (·.st) (step { inState .sWrCmd .sdram (sdCfg 0 1) 0 with k := 4 }) = some .sBarrier ∧
    see (·.st) (step { inState .sWrCmd .sdram (sdCfg 0 1) 0 with k := 3 }) = some .sDelay ∧
    see (·.st) (step { inState .sDelay .sdram (sdCfg 0 1) 0 with dcnt := 1 }) = some .sBarrier ∧
    0 < (inState .sWrCmd .sdram (sdCfg 0 1) 0).par.cyclesPerUs ∧
    (pins (inState .sWrCmd .sdram (sdCfg 0 1) 0)).rst = false ∧
    (reply (tick (inState .sWrCmd .sdram (sdCfg 0 1) 0))).ack = true := by decide

/-- In S_POLL with answer `v`, POLL_TIMEOUT `p`, `pcnt` = `n` and command `k`. -/
def polling (v : Word) (p n : Nat) (k : BitVec 3) : State :=
  { inState .sPoll .sdram (sdCfg 0 2) v with par := { cyclesPerUs := 1, pollTimeout := p }, pcnt := n, k := k }

theorem witness_PollAnswer :
    (reply (polling 0 0 0 3)).ack = true ∧ (reply (polling 0 0 0 3)).rdata.getLsbD 5 = false ∧
    (polling 0 0 0 3).k.toNat < 4 ∧ 4 ≤ (polling 0 0 0 4).k.toNat ∧
    (reply (polling 0x20 0 0 0)).rdata.getLsbD 5 = true ∧ (polling 0x20 0 0 0).par.pollTimeout = 0 ∧
    (polling 0x20 1 0 0).pcnt + 1 = (polling 0x20 1 0 0).par.pollTimeout ∧
    (polling 0x20 3 1 0).pcnt + 1 ≠ (polling 0x20 3 1 0).par.pollTimeout := by decide

theorem witness_RefreshTimer :
    sdEntry (inState .sWrSdrtr .sdram (sdCfg 0 1) 0) = some (entryA .slot1) ∧
    (reply (inState .sWrSdrtr .sdram (sdCfg 0 1) 0)).ack = true := by decide

/-- For an element that needs a current SDRAM entry, and for one of the fourth NOR entry. -/
theorem witness_TransactionWaits :
    sdEntry (waiting { inState .nWrBtr .nor (norCfg 4) 0 with i := 3 }) = none ∧
    (Instr.norWrBtr 3 tn).action = .bus { we := true, reg := .btr 3, data := btrWord tn } ∧
    (Instr.sdWrSdcr1 ctrlA).action = .bus { we := true, reg := .sdcr1, data := sdcrFull ctrlA } ∧
    sdEntry (waiting (inState .sWrSdcr1 .sdram (sdCfg 0 1) 0)) ≠ none ∧
    (reply (waiting (inState .sWrSdcr1 .sdram (sdCfg 0 1) 0))).ack = false := by decide

/-- One element of every row. -/
def oneEach : List Instr :=
  [.norRdBcr 3, .norWrBcr 3 nor16 0x80, .norWrBtr 3 tmax, .norWrBwtr 3 tmax.toWrite,
    .norWrBcrEn 3 nor16 0x80, .gateRdOff, .gateWrOff 5, .sdWrSdcr1 ctrlA, .sdWrSdcr2 ctrlB.toReduced,
    .sdWrSdtr1 timingA, .sdWrSdtr2 timingB] ++
  [.cmdStartClock .slot1, .cmdPrecharge .slot2, .cmdAutoRefresh .slot1, .cmdWriteMode .slot2 3,
    .cmdNormal .slot1, .delay 100, .barrier, .sdRdSdsr, .sdWrSdrtr 1386, .gateRdOn, .gateWrOn 5]

/-- For MemoryFrame and RegisterFrame. -/
theorem witness_Frames :
    (∀ i ∈ oneEach, goesOn (exec i (inState .idle .sdram (sdCfg 0 1) 0)) = true) ∧
    (Instr.sdWrSdrtr 1386).action = Action.write .sdrtr 0x00000AD4 ∧
    Instr.barrier.action = .barrier := by decide

theorem witness_NorTimingWordFields :
    (∀ d ∈ [1, 16], 1 ≤ d ∧ d ≤ 16 ∧ { tn with clkDiv := BitVec.ofNat 5 d }.clkDiv.toNat = d) ∧
    (∀ d ∈ [2, 17], 2 ≤ d ∧ d ≤ 17 ∧
      { tn with dataLatency := BitVec.ofNat 5 d }.dataLatency.toNat = d) := by decide

theorem witness_CommandWordFields : (0 : Nat) ≤ 4 ∧ (4 : Nat) ≤ 4 := by decide

/-- For WrittenWordsMatchRows, DecodeOfEncode and EncodeOfDecode. -/
theorem witness_Encoding :
    (∀ i ∈ oneEach, i.wellFormed = true) ∧
    (Instr.cmdNormal .slot1).action = Action.write .sdcmr 0x00000010 ∧
    (decodeCode { data := 0x00000010, ctx := 0x00040150 }).toOption = some (.cmdNormal .slot1) ∧
    bitsAt (0x00040150 : Word) 16 2 ≠ 1 ∧ bitsAt (0x00050158 : Word) 16 2 = 1 := by decide

theorem witness_NotEmittedRefused :
    ({ data := 0x15, ctx := 0x00040150 } : Code).reg.toOption = some .sdcmr ∧
    bitsAt (0x00040150 : Word) 16 2 = 0 ∧ 5 ≤ (bitsAt (0x15 : Word) 0 3).toNat ∧
    bitsAt (0x01 : Word) 3 2 = 0 ∧ bitsAt (0x19 : Word) 3 2 = 3 ∧
    (∀ r ∈ Reg.all, (bitsAt (0x00000020 : Word) 0 16).setWidth 32 ≠ r.offset) ∧
    ({ data := 0, ctx := 0x00050154 } : Code).reg.toOption = some .sdrtr ∧
    bitsAt (0x00050154 : Word) 16 2 = 1 := by decide

theorem witness_StepRunsElement :
    (pins (inState .sBarrier .sdram (sdCfg 0 1) 0)).rst = false ∧
    activity (inState .sBarrier .sdram (sdCfg 0 1) 0) = .issue .barrier ∧
    (decode (encode .barrier)).toOption = some (.barrier, []) ∧
    decodeTableWord 32 0x000010D9 = some (.norWrBcrEn 0 nor16 0x00000080) := by decide

/-- The registers' invariant from its parts. -/
theorem seqInv_of {s : State} (h : 0 < s.par.cyclesPerUs ∧ memWf s.mem = true ∧
    (inNorRun s.st = true →
      s.ent = .nor ∧ norInvalid s.cfg = false ∧ s.i.toNat < s.cfg.norCount.toNat) ∧
    (inSdEntry s.st = true ∨ inGate s.st = true →
      s.ent = .sdram ∧ sdInvalid s.cfg = false ∧ s.i.toNat < s.cfg.sdCount.toNat) ∧
    (inGate s.st = true → gateEn s.cfg = true) ∧
    (s.st = .sWrSdcr2 ∨ s.st = .sWrSdtr2 → (sdEntry s).map (·.slot) = some .slot2) ∧
    s.k.toNat ≤ 4 ∧
    (s.st = .sDelay → 0 < s.dcnt ∧ s.dcnt ≤ delayUs s.k.toNat * s.par.cyclesPerUs) ∧
    s.dcnt ≤ 200 * s.par.cyclesPerUs ∧ s.pcnt < max 1 s.par.pollTimeout ∧
    (s.err = .etimeout ↔ s.st = .fatal) ∧ (s.err = .einval → s.st = .done) ∧
    (s.st = .fatal → s.ent = .sdram ∧ 0 < s.par.pollTimeout)) : SeqInv s := by
  obtain ⟨h1, h2, h3, h4, h5, h6, h7, h8, h9, h10, h11, h12, h13⟩ := h
  exact ⟨h1, h2, h3, h4, h5, h6, h7, h8, h9, h10, h11, h12, h13⟩

/-- A base at the end of the range, so the last register at the end of the address space. -/
def lastBase : State := inState .sPoll .sdram { sdCfg 0 1 with base := 0xFFFFFEA4 } 0x20

/-- For IssuedElementsDecode, AddressesAligned, RegisterInvariantKept and NothingStops. -/
theorem witness_SeqInv : SeqInv lastBase ∧ activity lastBase = .issue .sdRdSdsr ∧
    busPort lastBase = some { we := false, addr := 0xFFFFFFFC, wdata := 0 } ∧
    goesOn (step lastBase) = true := ⟨seqInv_of (by decide), by decide, by decide, by decide⟩

theorem witness_RequestHeld :
    (busPort (waiting (inState .sWrSdrtr .sdram (sdCfg 0 1) 0))).isSome = true ∧
    (reply (tick (waiting (inState .sWrSdrtr .sdram (sdCfg 0 1) 0)))).ack = false ∧
    see (fun t => (pins t).rst) (step (waiting (inState .sWrSdrtr .sdram (sdCfg 0 1) 0))) =
      some false := by decide

/-- A write that changes a byte, and a reset during a run that begins a new era. -/
theorem witness_BlockChangesByWrites :
    readByte { inState .sWrSdrtr .sdram (sdCfg 0 1) 0 with mem := writeWord [] 0xA0000154 1 }
      0xA0000154 = 1 ∧
    see (fun t => readByte t 0xA0000154)
      (step { inState .sWrSdrtr .sdram (sdCfg 0 1) 0 with mem := writeWord [] 0xA0000154 1 }) =
      some 0xD4 ∧
    see (fun t => (t.mem, t.era))
      (step (driven { rst := true }
        { inState .sPoll .sdram (sdCfg 0 1) 0 with mem := writeWord [] 0xA0000154 1 })) =
      some ([], 1) := by decide

theorem witness_TraceIsPortHistory :
    (busPort (inState .sPoll .sdram (sdCfg 0 1) 0)).isSome = true ∧
    (reply (tick (inState .sPoll .sdram (sdCfg 0 1) 0))).ack = true ∧
    goesOn (step (inState .sPoll .sdram (sdCfg 0 1) 0)) = true ∧
    (reply (tick (waiting (inState .sPoll .sdram (sdCfg 0 1) 0)))).ack = false ∧
    busPort (inState .sBarrier .sdram (sdCfg 0 1) 0) = none := by decide

theorem witness_RegistersPerEntry :
    (∀ t ∈ [Fsm.nRdBcr, .nWrBcr, .nWrBtr, .nWrBwtr, .nWrBcrEn],
      inNorRun t = true ∧ (request (inState t .nor (norCfg 1) 0)).isSome = true) ∧
    (∀ t ∈ [Fsm.gRdOff, .gWrOff, .gRdOn, .gWrOn],
      inGate t = true ∧ (request (inState t .sdram (sdCfg 2 1) 0)).isSome = true) ∧
    (∀ t ∈ [Fsm.sWrSdcr1, .sWrSdcr2, .sWrSdtr1, .sWrSdtr2, .sWrCmd, .sPoll, .sWrSdrtr],
      inSdEntry t = true ∧ (request (inState t .sdram slot2Cfg 0)).isSome = true) := by decide

/-- DONE entered from VALIDATE (with EINVAL and without), N_NEXT, S_NEXT and G_WR_ON; FATAL. -/
theorem witness_OutcomesEntered :
    see (fun t => (t.st, t.err)) (step (inState .validate .nor (norCfg 5) 0)) = some (.done, .einval) ∧
    see (fun t => (t.st, t.err)) (step (inState .validate .sdram (sdCfg 3 1) 0)) =
      some (.done, .einval) ∧
    see (·.st) (step (inState .validate .nor (norCfg 0) 0)) = some .done ∧
    see (·.st) (step (inState .nNext .nor (norCfg 1) 0)) = some .done ∧
    see (·.st) (step (inState .sNext .sdram (sdCfg 0 1) 0)) = some .done ∧
    see (·.st) (step (inState .gWrOn .sdram (sdCfg 2 1) 0)) = some .done ∧
    see (fun t => (t.st, t.err)) (step (polling 0x20 1 0 0)) = some (.fatal, .etimeout) := by decide

theorem witness_RegisterWriters :
    see (fun t => (t.ent, t.st)) (step (driven { startSdram := true } (inState .idle .nor {} 0))) =
      some (.sdram, .validate) ∧
    see (·.rmw) (step (inState .gRdOn .sdram (sdCfg 2 1) 7)) = some 7 ∧
    see (·.dcnt) (step (inState .sWrCmd .sdram (sdCfg 0 1) 0)) = some 200 ∧
    see (·.pcnt) (step (polling 0x20 2 0 0)) = some 1 ∧
    see (·.k) (step (polling 0 0 0 3)) = some 4 ∧
    see (·.i) (step (inState .nNext .nor (norCfg 2) 0)) = some 1 ∧
    see (·.err) (step (inState .validate .nor (norCfg 5) 0)) = some .einval := by decide

/-- A run that ended in FATAL at its first poll, POLL_TIMEOUT = 1. -/
def failed : State :=
  { inState .fatal .sdram (sdCfg 2 1) 0x20 with
    par := { cyclesPerUs := 1, pollTimeout := 1 }
    err := .etimeout
    trace := [rdElem (sdCfg 2 1) (.bcr 0) 7, wrElem (sdCfg 2 1) (.bcr 0) (7 &&& 0x7FFFFFFF)] ++ [] ++
      (configFlow (sdCfg 2 1) (entryA .slot1) ++ stepsFrom (sdCfg 2 1) (entryA .slot1) 0 [] ++
        commandFlow (sdCfg 2 1) (entryA .slot1) 0 ++ .barrier :: pollReads (sdCfg 2 1) [0x20]) }

theorem witness_FatalSticky : failed.st = .fatal ∧ SeqInv failed ∧ (pins failed).rst = false ∧
    see (·.st) (step (driven { rst := true } failed)) = some .idle :=
  ⟨by decide, seqInv_of (by decide), by decide, by decide⟩

theorem witness_PlainFamiliesAlike :
    SeqInv (inState .sPoll .sdram (sdCfg 1 1) 0) ∧
    (inState .sPoll .sdram (sdCfg 1 1) 0).cfg.family ≠ 2 ∧
    busy (inState .sPoll .sdram (sdCfg 1 1) 0) = true ∧
    (request (inState .sPoll .sdram (sdCfg 1 1) 0)).isSome = true ∧
    (inState .sNext .sdram (sdCfg 0 1) 0).cfg.family = 0 ∧
    (pins (inState .sNext .sdram (sdCfg 0 1) 0)).rst = false ∧
    goesOn (step (inState .sNext .sdram (sdCfg 0 1) 0)) = true :=
  ⟨seqInv_of (by decide), by decide, by decide, by decide, by decide, by decide, by decide⟩

/-! ### Witnesses: traces -/

/-- Five polls that answer 0 at once. -/
def readyPolls : List Poll :=
  [⟨[], 0⟩, ⟨[], 0⟩, ⟨[], 0⟩, ⟨[], 0⟩, ⟨[], 0⟩]

theorem fivePolls_ready : FivePolls readyPolls := by
  refine ⟨rfl, fun p hp => ?_⟩
  have : p = ⟨[], 0⟩ := by simpa [readyPolls] using hp
  subst this
  exact ⟨rfl, rfl⟩

/-- The flow of both entries of `sdCfg`. -/
def bothFlow (c : Cfg) : List TraceElem :=
  [] ++ sdEntryFlow c (entryA .slot1) readyPolls ++ sdEntryFlow c (entryB .slot2) readyPolls

theorem sdFlow_both (c : Cfg) : SdFlow c ([] ++ [entryA .slot1] ++ [entryB .slot2]) (bothFlow c) :=
  .snoc _ _ _ _ (.snoc _ _ _ _ .nil fivePolls_ready) fivePolls_ready

/-- A successful NOR run of four entries. -/
def norSucceeded : State :=
  { inState .done .nor (norCfg 4) 0 with
    trace := norFlow (norCfg 4) (norUsed (norCfg 4)) [0, 1, 0x80, 0xFFFFFFFF] }

theorem witness_NorRunElements : SeqInv norSucceeded ∧ TraceFollowsFlow norSucceeded ∧
    success norSucceeded = true ∧ norSucceeded.ent = .nor ∧
    (3 : BitVec 2).toNat < norSucceeded.cfg.norCount.toNat :=
  ⟨seqInv_of (by decide), ⟨by decide, _, rfl, rfl⟩, by decide, rfl, by decide⟩

/-- A successful SDRAM run of two entries on FAM_GATED. -/
def sdSucceeded : State :=
  { inState .done .sdram (sdCfg 2 2) 0 with
    trace := [rdElem (sdCfg 2 2) (.bcr 0) 7, wrElem (sdCfg 2 2) (.bcr 0) (7 &&& 0x7FFFFFFF)] ++
      bothFlow (sdCfg 2 2) ++
      [rdElem (sdCfg 2 2) (.bcr 0) 7, wrElem (sdCfg 2 2) (.bcr 0) (7 ||| 0x80000000)] }

theorem witness_SdramRunWrites : SeqInv sdSucceeded ∧ TraceFollowsFlow sdSucceeded ∧
    success sdSucceeded = true ∧ sdSucceeded.ent = .sdram ∧ sdSucceeded.cfg.family = 2 ∧
    sdSucceeded.cfg.sdCount ≠ 0 :=
  ⟨seqInv_of (by decide), ⟨by decide, fun h => absurd h (by decide),
    fun _ => ⟨_, bothFlow (sdCfg 2 2), _, ⟨7, rfl⟩, sdFlow_both _, ⟨7, rfl⟩, rfl⟩⟩,
    by decide, rfl, rfl, by decide⟩

theorem witness_GateWrapsRun : SeqInv failed ∧ TraceFollowsFlow failed ∧ failed.ent = .sdram ∧
    failed.cfg.family = 2 ∧ fatal failed = true :=
  ⟨seqInv_of (by decide), ⟨_, [], _, entryA .slot1, ⟨7, rfl⟩, .nil, rfl,
    ⟨[], [0x20], rfl, by simp, by decide, rfl, rfl⟩, rfl⟩, rfl, rfl, by decide⟩

/-- A run on a plain family whose second command is next. -/
def secondCommand : State :=
  { inState .sWrCmd .sdram (sdCfg 0 1) 0 with
    k := 1
    trace := [] ++ [] ++ (configFlow (sdCfg 0 1) (entryA .slot1) ++
      stepsFrom (sdCfg 0 1) (entryA .slot1) 0 [⟨[0x20], 0⟩]) }

theorem witness_NoCommandWhileBusy : SeqInv secondCommand ∧ TraceFollowsFlow secondCommand ∧
    secondCommand.st = .sWrCmd ∧ 0 < secondCommand.k.toNat :=
  ⟨seqInv_of (by decide), ⟨[], [], _, entryA .slot1, by rfl, .nil, rfl,
    ⟨[⟨[0x20], 0⟩], rfl, by simp [Poll.Ok]; decide, rfl⟩, rfl⟩, rfl, by decide⟩

theorem witness_TraceFlowKept : SeqInv secondCommand ∧ TraceFollowsFlow secondCommand ∧
    goesOn (step secondCommand) = true :=
  ⟨witness_NoCommandWhileBusy.1, witness_NoCommandWhileBusy.2.1, by decide⟩

/-- A NOR run's first write is in the trace and in the block. -/
theorem witness_BlockHoldsTraceKept :
    BlockHoldsTrace (performWrite .sdcmr 0x11 (inState .sDelay .sdram (sdCfg 0 1) 0)) ∧
    goesOn (step (performWrite .sdcmr 0x11 (inState .sDelay .sdram (sdCfg 0 1) 0))) = true := by
  refine ⟨fun r w h => ?_, by decide⟩
  by_cases hr : r = .sdcmr
  · subst hr
    have hw : w = 0x11 := by
      have : some (0x11 : Word) = some w := h
      injection this with this; exact this.symm
    subst hw; decide
  · have : (wordsTo r [TraceElem.wr .sdcmr (addrOf (sdCfg 0 1) .sdcmr) 0x11]).getLast? = some w := h
    simp [wordsTo, Ne.symm hr] at this

/-! ### Witnesses: many cycles -/

/-- In S_DELAY at the start of a command's delay, and in its last cycle. -/
def delaying (n : Nat) : State := { inState .sDelay .sdram (sdCfg 0 1) 0 with dcnt := n }

theorem noReset_inState (t : Fsm) (e : Entry) (c : Cfg) (v : Word) : NoReset (inState t e c v) :=
  ⟨by simp [inState], _, rfl, rfl⟩

theorem promptWith_inState (P : Word → Prop) (t : Fsm) (e : Entry) (c : Cfg) (v : Word) (h : P v) :
    PromptWith P (inState t e c v) := ⟨by simp [inState], _, rfl, rfl, h⟩

theorem witness_DelayLastsExactly : (SeqInv (delaying 200) ∧ NoReset (delaying 200)) ∧
    (SeqInv (delaying 1) ∧ NoReset (delaying 1)) :=
  ⟨⟨seqInv_of (by decide), noReset_inState .sDelay .sdram (sdCfg 0 1) 0⟩,
    seqInv_of (by decide), noReset_inState .sDelay .sdram (sdCfg 0 1) 0⟩

/-- CTRL acknowledges the first read late, and every read busy. -/
theorem witness_PollHangs :
    NoReset { polling 0x20 0 0 0 with busIn := { items := [{}], rest := some { ack := true, rdata := 0x20 } } } ∧
    AnswersWith (fun v => v.getLsbD 5 = true)
      { polling 0x20 0 0 0 with busIn := { items := [{}], rest := some { ack := true, rdata := 0x20 } } } ∧
    PromptWith (fun _ => True) (polling 0x20 0 0 0) ∧
    (polling 0x20 0 0 0).st = .sPoll ∧ (polling 0x20 0 0 0).par.pollTimeout = 0 :=
  ⟨noReset_inState .sPoll .sdram (sdCfg 0 2) 0x20, ⟨by simp, _, rfl, fun _ => by decide⟩,
    promptWith_inState (fun _ => True) .sPoll .sdram (sdCfg 0 2) 0x20 trivial, rfl, rfl⟩

theorem witness_PollTimesOut : NoReset (polling 0x20 1 0 0) ∧
    PromptWith (fun v => v.getLsbD 5 = true) (polling 0x20 1 0 0) ∧ (polling 0x20 1 0 0).pcnt = 0 ∧
    0 < (polling 0x20 1 0 0).par.pollTimeout :=
  ⟨noReset_inState .sPoll .sdram (sdCfg 0 2) 0x20,
    promptWith_inState (fun v => v.getLsbD 5 = true) .sPoll .sdram (sdCfg 0 2) 0x20 (by decide), rfl, by decide⟩

theorem witness_NorRunLength : norInvalid (norCfg 1) = false ∧ norInvalid (norCfg 4) = false ∧
    NoReset (inState .validate .nor (norCfg 4) 0) ∧
    PromptWith (fun _ => True) (inState .validate .nor (norCfg 4) 0) :=
  ⟨by decide, by decide, noReset_inState _ _ _ _, promptWith_inState _ _ _ _ _ trivial⟩

/-- A run of two entries on FAM_GATED. -/
theorem witness_SdramRunLength :
    (SeqInv (inState .validate .sdram (sdCfg 2 2) 0) ∧
      TraceFollowsFlow (inState .validate .sdram (sdCfg 2 2) 0) ∧ sdInvalid (sdCfg 2 2) = false ∧
      1 ≤ (sdCfg 2 2).sdCount.toNat ∧ NoReset (inState .validate .sdram (sdCfg 2 2) 0) ∧
      PromptWith (fun _ => True) (inState .validate .sdram (sdCfg 2 2) 0)) ∧
    ((inState .validate .sdram (sdCfg 2 2) 0).par.pollTimeout = 0 ∧
      ReadyInTheEnd (inState .validate .sdram (sdCfg 2 2) 0)) ∧
    PromptWith (fun v => v.getLsbD 5 = false) (inState .validate .sdram (sdCfg 2 2) 0) :=
  ⟨⟨seqInv_of (by decide), rfl, by decide, by decide, noReset_inState _ _ _ _,
    promptWith_inState _ _ _ _ _ trivial⟩, ⟨rfl, _, rfl, by decide⟩,
    promptWith_inState _ _ _ _ _ (by decide)⟩

/-- CTRL acknowledges the first read in its third cycle. -/
def lateAck : State :=
  { polling 0x20 1 0 0 with busIn := { items := [{}, {}], rest := some { ack := true, rdata := 0x20 } } }

theorem witness_BoundedPollTerminates : SeqInv lateAck ∧ 0 < lateAck.par.pollTimeout ∧
    NoReset lateAck ∧ AcksInTheEnd lateAck ∧ busy lateAck = true :=
  ⟨seqInv_of (by decide), by decide, noReset_inState .sPoll .sdram (sdCfg 0 2) 0x20, ⟨_, rfl, rfl⟩,
    by decide⟩

end Sys2Proof.Tests
end

/-! Proofs of the statements about the sequencer's registers and the host port (spec/10_state.md). -/

namespace Sys2Proof

/-! ### Decoded elements are well formed -/

/-- A decoded divisor and latency are in range, since their fields have four bits (10_state.md R43). -/
theorem inRange_timingOfWord (w : Word) : (timingOfWord w).inRange = true := by
  have h : ∀ a b : BitVec 4, (1 ≤ (a.setWidth 5 + 1).toNat && (a.setWidth 5 + 1).toNat ≤ 16 &&
      2 ≤ (b.setWidth 5 + 2).toNat && (b.setWidth 5 + 2).toNat ≤ 17) = true := by decide
  exact h _ _

/-- What a NOR write preserves lies outside NOR_WRITABLE_MASK. -/
theorem preserveMask_writableMask (w : Word) :
    w &&& norPreserveMask &&& norWritableMask = 0 := by
  have hm : norPreserveMask &&& norWritableMask = 0 := by decide
  rw [BitVec.and_assoc, hm]
  exact BitVec.and_zero

theorem zeroIn_ok {mask w : Word} {i j : Instr} (h : zeroIn mask w j = .ok i) : i = j := by
  unfold zeroIn at h
  split at h <;> cases h
  rfl

theorem wellFormed_decodeBcr {b : BitVec 2} {w : Word} {i : Instr} (h : decodeBcr b w = .ok i) :
    i.wellFormed = true := by
  unfold decodeBcr at h
  repeat' split at h
  all_goals cases h
  all_goals simp [Instr.wellFormed, preserveMask_writableMask]

theorem wellFormed_decodeGate (w : Word) : (decodeGate w).wellFormed = true := by
  unfold decodeGate; split <;> rfl

theorem wellFormed_decodeCmd {w : Word} {i : Instr} (h : decodeCmd w = .ok i) :
    i.wellFormed = true := by
  unfold decodeCmd at h
  repeat' split at h
  all_goals cases h
  all_goals rfl

theorem wellFormed_decodeWrite {ent : Entry} {r : Reg} {w : Word} {i : Instr}
    (h : decodeWrite ent r w = .ok i) : i.wellFormed = true := by
  cases ent <;> cases r <;> simp only [decodeWrite, reduceCtorEq] at h
  case nor.bcr => exact wellFormed_decodeBcr h
  case nor.btr => rw [zeroIn_ok h]; exact inRange_timingOfWord w
  case sdram.bcr =>
    split at h <;> cases h
    exact wellFormed_decodeGate w
  case sdram.sdcmr => exact wellFormed_decodeCmd h
  all_goals rw [zeroIn_ok h]; rfl

theorem wellFormed_decodeRead {ent : Entry} {r : Reg} {second : Bool} {i : Instr}
    (h : decodeRead ent r second = .ok i) : i.wellFormed = true := by
  unfold decodeRead at h
  repeat' split at h
  all_goals cases h
  all_goals cases second <;> rfl

/-- The decoder gives well-formed elements alone (30_encoding.md R104). -/
theorem wellFormed_decodeCode {c : Code} {i : Instr} (h : decodeCode c = .ok i) :
    i.wellFormed = true := by
  unfold decodeCode at h
  split at h
  · cases h
  split at h
  · split at h
    · cases h
    · split at h
      · cases h
      · exact wellFormed_decodeWrite h
  split at h
  · split at h
    · cases h
    · exact wellFormed_decodeRead h
  split at h
  · split at h
    · rename_i hd
      cases h
      simp only [Bool.and_eq_true, Bool.or_eq_true, beq_iff_eq] at hd
      obtain ⟨-, hd | hd⟩ := hd <;> rw [hd] <;> rfl
    · cases h
  · split at h <;> cases h
    rfl

theorem decode_ok {bytes rest : List Byte} {i : Instr} (h : decode bytes = .ok (i, rest)) :
    ∃ c, decodeCode c = .ok i := by
  unfold decode at h
  repeat' split at h
  all_goals cases h
  exact ⟨_, by assumption⟩

theorem decodeTableWord_some {nbits w : Nat} {i : Instr} (h : decodeTableWord nbits w = some i) :
    ∃ c, decodeCode c = .ok i := by
  unfold decodeTableWord at h
  split at h <;> cases h
  exact decode_ok (by assumption)

end Sys2Proof

namespace Sys2Proof.Machine

/-! ### Reset and the host port -/

theorem step_rst {s : State} (hr : (pins s).rst = true) : step s = .next (resetCycle s) := by
  simp [step, hr]

theorem busPort_rst {s : State} (hr : (pins s).rst = true) : busPort s = none := by
  simp [busPort, hr]

theorem busPort_noRequest {s : State} (hx : request s = none) : busPort s = none := by
  simp [busPort, hx]

/-- IDLE and DONE request nothing (10_state.md R26). -/
theorem request_awaiting {s : State} (hs : s.st = .idle ∨ s.st = .done) : request s = none := by
  rcases hs with hs | hs <;> simp [request, activity, hs]

theorem req_awaiting {s : State} (hs : s.st = .idle ∨ s.st = .done) : req s = false := by
  simp [req, busPort_noRequest (request_awaiting hs)]

/-- Outside a run a reset leaves the register block (70_reset_and_hazards.md R252). -/
theorem blockKept_resetCycle {s : State} (hb : busy s = false) : BlockKept s (resetCycle s) :=
  readByte_congr (by simp [hb]) (by simp [hb])

/-- Settles O1: a reset cycle is `resetCycle`, whose registers are those of `State.reset`, and IDLE
requests nothing. -/
theorem resetLeaves : Obligations.ResetLeaves :=
  ⟨fun s hr => ⟨resetCycle s, step_rst hr, rfl, rfl, rfl, rfl, rfl, busPort_rst hr,
    req_awaiting (.inl rfl), blockKept_resetCycle⟩, rfl, rfl, rfl, rfl, rfl, req_awaiting (.inl rfl)⟩

/-- IDLE and DONE do what the strobes say (10_state.md R26). -/
theorem step_awaiting {s : State} (hr : (pins s).rst = false) (hs : s.st = .idle ∨ s.st = .done) :
    step s = .next (hostStart (pins s) (tick s)) := by
  rcases hs with hs | hs <;> simp [step, hr, activity, hs]

/-- Settles O2, by the three things a cycle in IDLE or DONE can do. -/
theorem startAccepted : Obligations.StartAccepted := by
  intro s hr hs
  refine ⟨_, step_awaiting hr hs, ?_⟩
  have hp : busPort s = none := busPort_noRequest (request_awaiting hs)
  rcases hostStart_cases (pins s) (tick s) with ⟨hn, ht⟩ | ⟨hn, hd, ht⟩ | ⟨hn, hd, ht⟩ <;> rw [ht]
  · exact ⟨readByte_congr rfl rfl, hp, fun _ => ⟨rfl, rfl⟩, by simp [hn], by simp [hn]⟩
  · exact ⟨readByte_congr rfl rfl, hp, by simp [hn], fun _ _ => ⟨rfl, rfl⟩, by simp [hd]⟩
  · exact ⟨readByte_congr rfl rfl, hp, by simp [hn], by simp [hd], fun _ _ => ⟨rfl, rfl⟩⟩

/-- The registers right after reset satisfy their invariant: IDLE is in no run, and both counters are 0. -/
theorem seqInv_reset : SeqInv State.reset where
  cycles := Nat.succ_pos _
  block := memWf_reset
  nor := nofun
  sdram := nofun
  gate := nofun
  slot2 := nofun
  kBound := by decide
  delay := nofun
  dcntFits := Nat.zero_le _
  pcntFits := by decide
  timeout := by decide
  invalid := nofun
  fatalRun := nofun

/-- Settles O46: the trace right after reset is empty, so it names no write. -/
theorem invariantsAtReset : Obligations.InvariantsAtReset :=
  ⟨seqInv_reset, rfl, fun _ _ h => nomatch h⟩

/-! ### Placed elements -/

theorem rst_promptCycle (v : Word) (s : State) : (pins (promptCycle v s)).rst = false := rfl

theorem activity_promptCycle (v : Word) (s : State) : activity (promptCycle v s) = activity s := rfl

/-- A bank survives the bank-index field it is placed in. -/
theorem bank_placed (b : BitVec 2) :
    (b.setWidth 3).toNat < 4 ∧ (b.setWidth 3).setWidth 2 = b := by
  revert b; decide

theorem issueNor_placeNor (t : Fsm) (b : BitVec 2) (f : NorEntry → NorEntry) (s : State)
    (g : NorEntry → BitVec 2 → Instr) :
    issueNor (placeNor t b f s) g =
      .issue (g { f s.cfg.nor0 with bankIdx := b.setWidth 3 } b) := by
  obtain ⟨hlt, hb⟩ := bank_placed b
  have he : norEntry (placeNor t b f s) = { f s.cfg.nor0 with bankIdx := b.setWidth 3 } := rfl
  rw [issueNor, he, if_pos hlt, hb]

/-- The preserved bits of a well-formed element survive the latch they are placed in. -/
theorem preserved_of_wellFormed {pres : Word} (h : (pres &&& norWritableMask == 0) = true) :
    pres &&& norPreserveMask = pres := by
  have hm : norPreserveMask ||| norWritableMask = BitVec.allOnes 32 := by decide
  have h0 : pres &&& norWritableMask = 0 := by simpa using h
  calc pres &&& norPreserveMask = pres &&& norPreserveMask ||| pres &&& norWritableMask := by
        rw [h0]; simp
    _ = pres := by rw [← BitVec.and_or_distrib_left, hm, BitVec.and_allOnes]

theorem setWidth_zext (v : BitVec 31) : (zext v).setWidth 31 = v :=
  BitVec.setWidth_setWidth_of_le v (by decide) |>.trans (by simp)

/-- A well-formed element is the one the FSM issues where it is placed (log 12). -/
theorem activity_placeInstr {i : Instr} (hi : i.wellFormed = true) (s : State) :
    activity (placeInstr i s) = .issue i := by
  cases i with
  | norRdBcr b => exact issueNor_placeNor _ b _ s fun _ b => .norRdBcr b
  | norWrBcr b c pres =>
    have hp : Activity.issue (.norWrBcr b c (pres &&& norPreserveMask)) = .issue (.norWrBcr b c pres) := by
      rw [preserved_of_wellFormed hi]
    exact (issueNor_placeNor _ b _ { s with rmw := pres }
      fun e b => .norWrBcr b e.ctrl (pres &&& norPreserveMask)).trans hp
  | norWrBtr b t => exact issueNor_placeNor _ b _ s fun e b => .norWrBtr b e.timing
  | norWrBwtr b t => exact issueNor_placeNor _ b _ s fun e b => .norWrBwtr b e.timing.toWrite
  | norWrBcrEn b c pres =>
    have hp : Activity.issue (.norWrBcrEn b c (pres &&& norPreserveMask)) =
        .issue (.norWrBcrEn b c pres) := by
      rw [preserved_of_wellFormed hi]
    exact (issueNor_placeNor _ b _ { s with rmw := pres }
      fun e b => .norWrBcrEn b e.ctrl (pres &&& norPreserveMask)).trans hp
  | gateWrOff kept => exact congrArg (fun v => Activity.issue (.gateWrOff v)) (setWidth_zext kept)
  | gateWrOn kept => exact congrArg (fun v => Activity.issue (.gateWrOn v)) (setWidth_zext kept)
  | delay us =>
    have hu : us = 200 ∨ us = 100 := by simpa [Instr.wellFormed] using hi
    rcases hu with rfl | rfl <;> rfl
  | sdWrSdrtr ref => exact congrArg (fun v => Activity.issue (.sdWrSdrtr v)) (setWidth_zext ref)
  | _ => rfl

theorem step_placeInstr {i : Instr} (hi : i.wellFormed = true) (v : Word) (s : State) :
    step (promptCycle v (placeInstr i s)) = exec i (tick (promptCycle v (placeInstr i s))) :=
  step_of_issue (rst_promptCycle v _) ((activity_promptCycle v _).trans (activity_placeInstr hi s))

theorem withFetchWord_some {nbits w : Nat} {i : Instr} (h : decodeTableWord nbits w = some i) (s : State) :
    s.withFetchWord nbits w = promptCycle (tableAnswer nbits w) (placeInstr i s) := by
  rw [State.withFetchWord, placeTableWord, h]

/-- Settles O35: a decoded element is well formed, and a well-formed element is issued once placed. -/
theorem stepRunsElement : Obligations.StepRunsElement := by
  refine ⟨fun s i hr ha => step_of_issue hr ha, fun bytes i rest s v h => ?_, fun nbits w i s h => ?_⟩
  · obtain ⟨c, hc⟩ := decode_ok h
    exact step_placeInstr (wellFormed_decodeCode hc) v s
  · obtain ⟨c, hc⟩ := decodeTableWord_some h
    rw [withFetchWord_some h]
    exact step_placeInstr (wellFormed_decodeCode hc) _ s

/-! ### HOST's inputs in a run -/

/-- The state with other HOST inputs to come. -/
def withHostIn (h : Script HostPins) (s : State) : State := { s with hostIn := h }

section
variable {h : Script HostPins} {s t : State}

/-- The FSM's choice of what to do does not look at HOST. -/
@[simp] theorem activity_withHostIn (h : Script HostPins) (s : State) :
    activity (withHostIn h s) = activity s := rfl

@[simp] theorem tick_withHostIn (h : Script HostPins) (s : State) :
    tick (withHostIn h s) = withHostIn h.tail (tick s) := rfl

theorem busWrite_withHostIn {r : Reg} {w : Word} {f : State → State}
    (ht : busWrite r w f s = .next t) (hf : ∀ u, f (withHostIn h u) = withHostIn h (f u)) :
    busWrite r w f (withHostIn h s) = .next (withHostIn h t) := by
  rcases busWrite_cases ht with ⟨ha, rfl⟩ | ⟨ha, rfl⟩
  · rw [← hf]; exact busWrite_ack (s := withHostIn h s) r w f ha
  · exact busWrite_wait (s := withHostIn h s) r w f ha

theorem busRead_withHostIn {r : Reg} {f : Word → State → State}
    (ht : busRead r f s = .next t) (hf : ∀ v u, f v (withHostIn h u) = withHostIn h (f v u)) :
    busRead r f (withHostIn h s) = .next (withHostIn h t) := by
  rcases busRead_cases ht with ⟨ha, rfl⟩ | ⟨ha, rfl⟩
  · rw [← hf]; exact busRead_ack (s := withHostIn h s) r f ha
  · exact busRead_wait (s := withHostIn h s) r f ha

theorem bySlot_withHostIn {f g : State → Result} (ht : bySlot s f g = .next t)
    (hf : f s = .next t → f (withHostIn h s) = .next (withHostIn h t))
    (hg : g s = .next t → g (withHostIn h s) = .next (withHostIn h t)) :
    bySlot (withHostIn h s) f g = .next (withHostIn h t) := by
  obtain ⟨e, he, hx⟩ := bySlot_cases ht
  have he' : sdEntry (withHostIn h s) = some e := he
  rcases hx with ⟨hs, ht⟩ | ⟨hs, ht⟩
  · simpa [bySlot, he', hs] using hf ht
  · simpa [bySlot, he', hs] using hg ht

theorem advance_withHostIn (u : State) : advance (withHostIn h u) = withHostIn h (advance u) := by
  rw [advance, advance, apply_ite (withHostIn h)]; rfl

theorem afterPoll_withHostIn (v : Word) (u : State) :
    afterPoll v (withHostIn h u) = withHostIn h (afterPoll v u) := by
  rw [afterPoll, afterPoll, advance_withHostIn]
  split
  · rw [apply_ite (withHostIn h), apply_ite (withHostIn h)]; rfl
  · rfl

theorem validate_withHostIn (u : State) :
    validate (withHostIn h u) = withHostIn h (validate u) := by
  have hn : validateNor (withHostIn h u) = withHostIn h (validateNor u) := by
    rw [validateNor, validateNor, apply_ite (withHostIn h), apply_ite (withHostIn h)]; rfl
  have hs : validateSdram (withHostIn h u) = withHostIn h (validateSdram u) := by
    rw [validateSdram, validateSdram, apply_ite (withHostIn h), apply_ite (withHostIn h),
      apply_ite (withHostIn h)]; rfl
  rw [validate, validate, hn, hs]
  have he : (withHostIn h u).ent = u.ent := rfl
  rw [he]
  cases u.ent <;> rfl

theorem norNext_withHostIn (u : State) : norNext (withHostIn h u) = withHostIn h (norNext u) := by
  rw [norNext, norNext, apply_ite (withHostIn h)]; rfl

theorem sdNext_withHostIn (u : State) : sdNext (withHostIn h u) = withHostIn h (sdNext u) := by
  rw [sdNext, sdNext, apply_ite (withHostIn h), apply_ite (withHostIn h)]; rfl

/-- No element looks at HOST's inputs. -/
theorem exec_withHostIn {i : Instr} (ht : exec i s = .next t) :
    exec i (withHostIn h s) = .next (withHostIn h t) := by
  cases i with
  | norRdBcr b =>
    exact busRead_withHostIn (f := fun v u => goto .nWrBcr (latch v u)) ht fun _ _ => rfl
  | gateRdOff =>
    exact busRead_withHostIn (f := fun v u => goto .gWrOff (latch v u)) ht fun _ _ => rfl
  | gateRdOn =>
    exact busRead_withHostIn (f := fun v u => goto .gWrOn (latch v u)) ht fun _ _ => rfl
  | sdRdSdsr => exact busRead_withHostIn ht afterPoll_withHostIn
  | gateWrOff kept =>
    exact busWrite_withHostIn (f := fun u => goto .sWrSdcr1 (firstEntry u)) ht fun _ => rfl
  | sdWrSdcr1 | sdWrSdtr1 =>
    exact bySlot_withHostIn ht (busWrite_withHostIn · fun _ => rfl) (busWrite_withHostIn · fun _ => rfl)
  | norWrBcr | norWrBtr | norWrBwtr | norWrBcrEn | sdWrSdcr2 | sdWrSdtr2 | cmdStartClock
  | cmdPrecharge | cmdAutoRefresh | cmdWriteMode | cmdNormal | sdWrSdrtr | gateWrOn =>
    exact busWrite_withHostIn ht fun _ => rfl
  | delay us =>
    simp only [exec, execDelay] at ht ⊢
    injection ht with ht
    rw [← ht, apply_ite (withHostIn h)]
    rfl
  | barrier => cases ht; rfl

end

theorem issueNor_ne_awaitStart (s : State) (f : NorEntry → BitVec 2 → Instr) :
    issueNor s f ≠ .awaitStart := by
  unfold issueNor; split <;> simp

theorem issueSd_ne_awaitStart (s : State) {f : SdEntry → Activity} (hf : ∀ e, f e ≠ .awaitStart) :
    issueSd s f ≠ .awaitStart := by
  unfold issueSd; split
  · exact hf _
  · simp

theorem commandAt_ne_awaitStart (k : Nat) (e : SdEntry) : commandAt k e ≠ .awaitStart := by
  unfold commandAt; split <;> simp

theorem delayAt_ne_awaitStart (k : Nat) : delayAt k ≠ .awaitStart := by
  unfold delayAt; split <;> simp

/-- Only IDLE and DONE wait for a start (10_state.md R26). -/
theorem activity_awaitStart {s : State} (ha : activity s = .awaitStart) :
    s.st = .idle ∨ s.st = .done := by
  cases hs : s.st <;> simp [activity, hs, issueNor_ne_awaitStart, issueSd_ne_awaitStart,
    commandAt_ne_awaitStart, delayAt_ne_awaitStart] at ha ⊢

/-- Settles O3: outside IDLE and DONE everything a step can do commutes with a change of HOST's inputs. -/
theorem hostInputsIgnoredInRun : Obligations.HostInputsIgnoredInRun := by
  intro s t h hi hd hr hr' ht
  change (pins (withHostIn h s)).rst = false at hr'
  change step (withHostIn h s) = .next (withHostIn h.tail t)
  rcases step_cases ht with
    ⟨hr₁, -⟩ | ⟨-, ⟨i, ha, hx⟩ | ⟨ha, -⟩ | ⟨ha, rfl⟩ | ⟨ha, rfl⟩ | ⟨ha, rfl⟩ | ⟨ha, rfl⟩⟩
  · simp [hr] at hr₁
  · rw [step_of_issue hr' ha]; exact exec_withHostIn hx
  · rcases activity_awaitStart ha with h | h <;> contradiction
  · simp [step, hr', ha, validate_withHostIn]
  · simp [step, hr', ha, norNext_withHostIn]
  · simp [step, hr', ha, sdNext_withHostIn]
  · simp [step, hr', ha]

/-! ### The registers each element writes -/

section
variable {s t : State} {r : Reg} {w : Word}

/-- A write whose state only moves on writes `st` alone. -/
theorem busWrite_goto_regs {u : Fsm} (h : busWrite r w (goto u) s = .next t) :
    regsOf t = { regsOf s with st := t.st } := by
  rcases busWrite_cases h with ⟨-, rfl⟩ | ⟨-, rfl⟩ <;> rfl

/-- A latching read writes `st` and `rmw` alone (10_state.md R40). -/
theorem busRead_latch_regs {u : Fsm} (h : busRead r (fun v x => goto u (latch v x)) s = .next t) :
    regsOf t = { regsOf s with st := t.st, rmw := t.rmw } := by
  rcases busRead_cases h with ⟨-, rfl⟩ | ⟨-, rfl⟩ <;> rfl

theorem busWrite_firstEntry_regs {u : Fsm}
    (h : busWrite r w (fun x => goto u (firstEntry x)) s = .next t) :
    regsOf t = { regsOf s with st := t.st, i := t.i } := by
  rcases busWrite_cases h with ⟨-, rfl⟩ | ⟨-, rfl⟩ <;> rfl

theorem busWrite_succeed_regs (h : busWrite r w succeed s = .next t) :
    regsOf t = { regsOf s with st := t.st, err := t.err } := by
  rcases busWrite_cases h with ⟨-, rfl⟩ | ⟨-, rfl⟩ <;> rfl

theorem busWrite_startCommands_regs (h : busWrite r w startCommands s = .next t) :
    regsOf t = { regsOf s with st := t.st, k := t.k } := by
  rcases busWrite_cases h with ⟨-, rfl⟩ | ⟨-, rfl⟩ <;> rfl

theorem issueCommand_regs {k : Nat} {slot : Slot} {cas : BitVec 2}
    (h : issueCommand k slot cas s = .next t) :
    regsOf t = { regsOf s with st := t.st, dcnt := t.dcnt } := by
  rcases busWrite_cases h with ⟨-, rfl⟩ | ⟨-, rfl⟩ <;> rfl

theorem execDelay_regs {us : Nat} (h : execDelay us s = .next t) :
    regsOf t = { regsOf s with st := t.st, dcnt := t.dcnt } := by
  unfold execDelay at h
  split at h <;> cases h <;> rfl

theorem execSdWrSdcr1_regs {c : SdramCtrl} (h : execSdWrSdcr1 c s = .next t) :
    regsOf t = { regsOf s with st := t.st } := by
  obtain ⟨e, -, ⟨-, h⟩ | ⟨-, h⟩⟩ := bySlot_cases h
  · exact busWrite_goto_regs h
  · exact busWrite_goto_regs h

theorem execSdWrSdtr1_regs {m : SdramTiming} (h : execSdWrSdtr1 m s = .next t) :
    regsOf t = { regsOf s with st := t.st, k := t.k } := by
  obtain ⟨e, -, ⟨-, h⟩ | ⟨-, h⟩⟩ := bySlot_cases h
  · exact busWrite_startCommands_regs h
  · rcases busWrite_cases h with ⟨-, rfl⟩ | ⟨-, rfl⟩ <;> rfl

theorem afterPoll_regs (v : Word) (u : State) :
    regsOf (afterPoll v u) = { regsOf u with
      st := (afterPoll v u).st, k := (afterPoll v u).k, pcnt := (afterPoll v u).pcnt,
      err := (afterPoll v u).err } := by
  rcases afterPoll_cases v u with
    ⟨-, -, h⟩ | ⟨-, -, h⟩ | ⟨-, -, h⟩ | ⟨-, -, -, h⟩ | ⟨-, -, -, h⟩ <;> rw [h] <;> rfl

theorem execSdRdSdsr_regs (h : execSdRdSdsr s = .next t) :
    regsOf t = { regsOf s with st := t.st, k := t.k, pcnt := t.pcnt, err := t.err } := by
  rcases busRead_cases h with ⟨-, rfl⟩ | ⟨-, rfl⟩
  · exact afterPoll_regs _ _
  · rfl

end

/-- Settles O25: each group of elements does one kind of transaction, whose frame is said above. -/
theorem registerFrame : Obligations.RegisterFrame := by
  intro s t
  refine ⟨?norWrites, ?bcrReads, fun _ => busWrite_firstEntry_regs, fun _ => busWrite_succeed_regs,
    ?sdWrites, ?sdTimings, ?commands, ?barrier, execSdRdSdsr_regs⟩
  case norWrites =>
    rintro b c pres m n (h | h | h | h) <;> exact busWrite_goto_regs h
  case bcrReads =>
    rintro b (h | h | h) <;> exact busRead_latch_regs h
  case sdWrites =>
    rintro c d ref (h | h | h)
    · exact execSdWrSdcr1_regs h
    · exact busWrite_goto_regs h
    · exact busWrite_goto_regs h
  case sdTimings =>
    rintro m (h | h)
    · exact execSdWrSdtr1_regs h
    · exact busWrite_startCommands_regs h
  case commands =>
    rintro slot cas us (h | h | h | h | h | h)
    exacts [issueCommand_regs h, issueCommand_regs h, issueCommand_regs h, issueCommand_regs h,
      issueCommand_regs h, execDelay_regs h]
  case barrier => rintro ⟨⟩; rfl

/-! ### The registers of the controller each state reaches -/

/-- A transaction is requested by an issued element alone. -/
theorem request_issue {s : State} {x : Txn} (h : request s = some x) :
    ∃ i, activity s = .issue i ∧ i.action = .bus x := by
  unfold request at h
  split at h
  · rename_i i ha
    refine ⟨i, ha, ?_⟩
    split at h <;> cases h
    assumption
  all_goals cases h

/-- Every command is a write to SDCMR (42_sdram_sequencer.md R178). -/
theorem commandAt_issue {k : Nat} {e : SdEntry} {i : Instr} (h : commandAt k e = .issue i) :
    ∃ w, i.action = Action.write .sdcmr w := by
  unfold commandAt at h
  split at h <;> cases h <;> exact ⟨_, rfl⟩

theorem delayAt_issue {k : Nat} {i : Instr} (h : delayAt k = .issue i) :
    i = .delay (delayUs k) := by
  unfold delayAt at h
  split at h <;> cases h
  rfl

/-- Settles O41, by the element each state issues. -/
theorem registersPerEntry : Obligations.RegistersPerEntry := by
  intro s x hx
  obtain ⟨i, ha, hi⟩ := request_issue hx
  cases hs : s.st <;> simp only [activity, hs, reduceCtorEq] at ha
  case nRdBcr | nWrBcr | nWrBtr | nWrBwtr | nWrBcrEn =>
    obtain ⟨-, rfl⟩ := issueNor_issue ha
    cases hi
    simp [inNorRun, inGate, inSdEntry]
  case gRdOff | gWrOff | gRdOn | gWrOn =>
    cases ha; cases hi
    simp [inNorRun, inGate, inSdEntry]
  case sWrSdcr1 | sWrSdcr2 | sWrSdtr1 | sWrSdtr2 | sWrSdrtr =>
    obtain ⟨e, -, he⟩ := issueSd_issue ha
    cases he; cases hi
    simp [inNorRun, inGate, inSdEntry, regOfNor]
  case sWrCmd =>
    obtain ⟨e, -, he⟩ := issueSd_issue ha
    obtain ⟨w, hw⟩ := commandAt_issue he
    cases hi.symm.trans hw
    simp [inNorRun, inGate, inSdEntry, regOfNor]
  case sDelay => cases delayAt_issue ha; cases hi
  case sBarrier => cases ha; cases hi
  case sPoll =>
    cases ha; cases hi
    simp [inNorRun, inGate, inSdEntry, regOfNor]

/-! ### The writers of each register -/

/-- Settles O43, by what one cycle does in each state of the FSM. -/
theorem registerWriters : Obligations.RegisterWriters := by
  intro s t hr h
  cases hs : s.st with
  | idle | done =>
    cases (step_awaiting hr (by simp [hs])).symm.trans h
    rcases hostStart_cases (pins s) (tick s) with ⟨-, ht⟩ | ⟨-, -, ht⟩ | ⟨-, -, ht⟩ <;> simp [ht]
  | fatal => simp [step_fatal hr hs h]
  | validate =>
    cases he : s.ent with
    | nor =>
      rcases step_validate_nor hr hs he h with ⟨-, rfl⟩ | ⟨-, -, rfl⟩ | ⟨-, -, rfl⟩ <;> simp [he]
    | sdram =>
      rcases step_validate_sdram hr hs he h with ⟨-, rfl⟩ | ⟨-, -, rfl⟩ | ⟨-, -, rfl⟩ <;> simp [he]
  | nNext =>
    rw [step_nNext hr hs h]
    rcases norNext_cases (tick s) with ⟨-, ht⟩ | ⟨-, ht⟩ <;> simp [ht]
  | sNext =>
    rw [step_sNext hr hs h]
    rcases sdNext_cases (tick s) with ⟨-, ht⟩ | ⟨-, -, ht⟩ | ⟨-, -, ht⟩ <;> simp [ht]
  | nRdBcr =>
    rcases step_nRdBcr hr hs h with ⟨ha, rfl⟩ | ⟨-, rfl⟩
    · simp [ha]
    · simp
  | nWrBcr => rcases step_nWrBcr hr hs h with ⟨-, rfl⟩ | ⟨-, rfl⟩ <;> simp
  | nWrBtr => rcases step_nWrBtr hr hs h with ⟨-, rfl⟩ | ⟨-, rfl⟩ <;> simp
  | nWrBwtr => rcases step_nWrBwtr hr hs h with ⟨-, rfl⟩ | ⟨-, rfl⟩ <;> simp
  | nWrBcrEn => rcases step_nWrBcrEn hr hs h with ⟨-, rfl⟩ | ⟨-, rfl⟩ <;> simp
  | gRdOff =>
    rcases step_gRdOff hr hs h with ⟨ha, rfl⟩ | ⟨-, rfl⟩
    · simp [ha]
    · simp
  | gWrOff => rcases step_gWrOff hr hs h with ⟨-, rfl⟩ | ⟨-, rfl⟩ <;> simp
  | gRdOn =>
    rcases step_gRdOn hr hs h with ⟨ha, rfl⟩ | ⟨-, rfl⟩
    · simp [ha]
    · simp
  | gWrOn => rcases step_gWrOn hr hs h with ⟨-, rfl⟩ | ⟨-, rfl⟩ <;> simp
  | sWrSdcr1 => obtain ⟨e, -, ⟨-, rfl⟩ | ⟨-, rfl⟩⟩ := step_sWrSdcr1 hr hs h <;> simp
  | sWrSdcr2 => obtain ⟨e, -, ⟨-, rfl⟩ | ⟨-, rfl⟩⟩ := step_sWrSdcr2 hr hs h <;> simp
  | sWrSdtr1 =>
    obtain ⟨e, -, ⟨-, rfl⟩ | ⟨-, rfl⟩⟩ := step_sWrSdtr1 hr hs h
    · cases e.slot <;> simp
    · simp
  | sWrSdtr2 => obtain ⟨e, -, ⟨-, rfl⟩ | ⟨-, rfl⟩⟩ := step_sWrSdtr2 hr hs h <;> simp
  | sWrCmd => obtain ⟨e, -, ⟨-, rfl⟩ | ⟨-, rfl⟩⟩ := step_sWrCmd hr hs h <;> simp
  | sDelay => obtain ⟨-, ⟨-, rfl⟩ | ⟨-, rfl⟩⟩ := step_sDelay hr hs h <;> simp
  | sBarrier => simp [step_sBarrier hr hs h]
  | sPoll =>
    rcases step_sPoll hr hs h with ⟨-, rfl⟩ | ⟨-, rfl⟩
    · rcases afterPoll_cases (stepReply s).rdata
        (emit (.rd .sdsr (addrOf s.cfg .sdsr) (stepReply s).rdata) (replied s)) with
        ⟨-, -, h⟩ | ⟨-, -, h⟩ | ⟨-, -, h⟩ | ⟨-, -, -, h⟩ | ⟨-, -, -, h⟩ <;> simp [h]
    · simp
  | sWrSdrtr => obtain ⟨e, -, ⟨-, rfl⟩ | ⟨-, rfl⟩⟩ := step_sWrSdrtr hr hs h <;> simp

end Sys2Proof.Machine

/-! Proofs of the statements about the register block and the bus port (spec/20_memory.md). -/

namespace Sys2Proof

/-! ### The places of the registers -/

/-- Registers stand at different offsets (20_memory.md R80). -/
theorem Reg.offset_injective : Function.Injective Reg.offset := fun r r' h => by
  simpa [Reg.ofOffset_offset] using congrArg Reg.ofOffset h

/-- Every offset is a multiple of 4, the last one that of SDSR (20_memory.md R80, R81). -/
theorem Reg.offset_bounds (r : Reg) : 4 ∣ r.offset.toNat ∧ r.offset.toNat ≤ 0x158 := by
  have h : ∀ r ∈ Reg.all, 4 ∣ r.offset.toNat ∧ r.offset.toNat ≤ 0x158 := by decide
  exact h r r.mem_all

end Sys2Proof

namespace Sys2Proof.Machine

/-- Words of different registers share no byte, wherever the base is and wherever the sum wraps. -/
theorem byteAddr_addrOf_ne (c : Cfg) {r r' : Reg} (hr : r' ≠ r) {m n : Nat} (hm : m < 4) (hn : n < 4) :
    byteAddr (addrOf c r') m ≠ byteAddr (addrOf c r) n := by
  have hne : r'.offset.toNat ≠ r.offset.toNat := fun h =>
    hr (Reg.offset_injective (BitVec.eq_of_toNat_eq h))
  obtain ⟨h4, hle⟩ := r.offset_bounds
  obtain ⟨h4', hle'⟩ := r'.offset_bounds
  simp only [byteAddr, addrOf, BitVec.toNat_add, BitVec.toNat_ofNat]
  omega

/-- A write to one register leaves what every other register reads as. -/
theorem readWord_writeWord_otherReg {s t : State} {c : Cfg} {r r' : Reg} {w : Word} (hr : r' ≠ r)
    (hm : t.mem = writeWord s.mem (addrOf c r) w) (he : t.era = s.era) :
    readWord t (addrOf c r') = readWord s (addrOf c r') := by
  have h : ∀ m < 4, readByte t (byteAddr (addrOf c r') m) = readByte s (byteAddr (addrOf c r') m) :=
    fun m hm4 => readByte_writeWord_other _ _ hm he fun _ hn => byteAddr_addrOf_ne c hr hm4 hn
  simp [readWord, h]

/-- A valid base leaves room for every register below the end of the address space (10_state.md R30). -/
theorem baseValid_bounds {base : Word} (h : baseValid base = true) :
    4 ∣ base.toNat ∧ base.toNat ≤ 0xFFFFFEA4 := by
  simp only [baseValid, Bool.and_eq_true, beq_iff_eq, decide_eq_true_eq] at h
  obtain ⟨⟨-, h3⟩, hle⟩ := h
  have h0 : base.toNat &&& 3 = 0 := by simpa using congrArg BitVec.toNat h3
  exact ⟨Nat.dvd_of_mod_eq_zero ((Nat.and_two_pow_sub_one_eq_mod base.toNat 2).symm.trans h0), hle⟩

/-! ### One transaction -/

/-- Settles O24, by what a transaction leaves of the block, and that DELAY and BARRIER are none. -/
theorem memoryFrame : Obligations.MemoryFrame := by
  refine ⟨fun i r w s t hi h => (exec_bus hi h).blockKeptOutside, fun i s t hi h => ?_⟩
  by_cases hx : ∃ x, i.action = .bus x
  · obtain ⟨⟨we, r, w⟩, hx⟩ := hx
    cases we with
    | true => exact absurd hx (hi r w)
    | false => exact (exec_bus hx h).blockKept (.inl rfl)
  · obtain ⟨hm, he, -⟩ := exec_internal (fun x hix => hx ⟨x, hix⟩) h
    exact readByte_congr hm he

/-- Where both slots give one result and there is a current entry, that is the result. -/
theorem bySlot_eq {s : State} {f g : State → Result} {y : Result} (he : sdEntry s ≠ none)
    (hf : f s = y) (hg : g s = y) : bySlot s f g = y := by
  obtain ⟨e, he⟩ := Option.ne_none_iff_exists'.1 he
  simp only [bySlot, he]
  cases e.slot
  · exact hf
  · exact hg

/-- A transaction without an acknowledge uses up CTRL's reply and does nothing else. -/
theorem exec_wait {i : Instr} {x : Txn} {s : State} (hi : i.action = .bus x)
    (he : (∃ c, i = .sdWrSdcr1 c) ∨ (∃ m, i = .sdWrSdtr1 m) → sdEntry s ≠ none)
    (ha : (reply s).ack = false) : exec i s = .next (takeReply s) := by
  cases i with
  | delay | barrier => cases hi
  | norRdBcr | gateRdOff | gateRdOn => exact busRead_wait _ (fun v u => goto _ (latch v u)) ha
  | sdRdSdsr => exact busRead_wait _ _ ha
  | gateWrOff => exact busWrite_wait _ _ (fun u => goto _ (firstEntry u)) ha
  | sdWrSdcr1 c => exact bySlot_eq (he (.inl ⟨c, rfl⟩)) (busWrite_wait _ _ _ ha) (busWrite_wait _ _ _ ha)
  | sdWrSdtr1 m => exact bySlot_eq (he (.inr ⟨m, rfl⟩)) (busWrite_wait _ _ _ ha) (busWrite_wait _ _ _ ha)
  | norWrBcr | norWrBtr | norWrBwtr | norWrBcrEn | sdWrSdcr2 | sdWrSdtr2 | cmdStartClock
  | cmdPrecharge | cmdAutoRefresh | cmdWriteMode | cmdNormal | sdWrSdrtr | gateWrOn =>
    exact busWrite_wait _ _ _ ha

/-- Settles O23: the state of a waiting transaction differs in CTRL's script alone. -/
theorem transactionWaits : Obligations.TransactionWaits := fun _ _ s hi he ha =>
  ⟨takeReply s, exec_wait hi he ha, rfl, readByte_congr rfl rfl, rfl, rfl⟩

/-! ### The bus port -/

/-- What the port shows of a transaction (20_memory.md R70). -/
def portOf (c : Cfg) (x : Txn) : BusPort := { we := x.we, addr := addrOf c x.reg, wdata := x.data }

/-- The port shows the transaction requested in a cycle without reset, and nothing else. -/
theorem busPort_eq_some {s : State} {p : BusPort} :
    busPort s = some p ↔ (pins s).rst = false ∧ ∃ x, request s = some x ∧ portOf s.cfg x = p := by
  unfold busPort portOf
  cases (pins s).rst <;> simp

/-- Settles O37: a transaction that waits leaves everything its request depends on. -/
theorem requestHeld : Obligations.RequestHeld := by
  intro s t p hp ha h
  obtain ⟨hr, x, hx, hp⟩ := busPort_eq_some.1 hp
  obtain ⟨ha', -⟩ | ⟨-, rfl⟩ := step_request hr hx h
  · simp [ha] at ha'
  · exact ⟨rfl, fun hr' => busPort_eq_some.2 ⟨hr', x, hx, hp⟩⟩

/-- A valid configuration with a NOR entry has a valid base (40_norsram_configurator.md R137). -/
theorem baseValid_of_nor {c : Cfg} (hv : norInvalid c = false) (hc : 1 ≤ c.norCount.toNat) :
    baseValid c.base = true := by
  simp only [norInvalid, Bool.or_eq_false_iff] at hv
  obtain ⟨⟨⟨-, hb⟩, -⟩, -⟩ := hv
  simpa [hc] using hb

/-- A valid configuration with an SDRAM entry has a valid base (42_sdram_sequencer.md R172). -/
theorem baseValid_of_sdram {c : Cfg} (hv : sdInvalid c = false) (hc : 1 ≤ c.sdCount.toNat) :
    baseValid c.base = true := by
  simp only [sdInvalid, Bool.or_eq_false_iff] at hv
  obtain ⟨⟨⟨⟨-, hb⟩, -⟩, -⟩, -⟩ := hv
  simpa [hc] using hb

/-- A transaction is requested in a run alone, and its current entry makes the base a valid one. -/
theorem baseValid_of_request {s : State} {x : Txn} (hs : SeqInv s) (hx : request s = some x) :
    baseValid s.cfg.base = true := by
  obtain ⟨-, -, -, hnor | hgate | hsd⟩ := registersPerEntry s x hx
  · obtain ⟨-, hv, hi⟩ := hs.nor hnor
    exact baseValid_of_nor hv (by omega)
  · obtain ⟨-, hv, hi⟩ := hs.sdram (.inr hgate)
    exact baseValid_of_sdram hv (by omega)
  · obtain ⟨-, hv, hi⟩ := hs.sdram (.inl hsd)
    exact baseValid_of_sdram hv (by omega)

/-- Settles O40: base and offset are multiples of 4 whose sum stays in the address space. -/
theorem addressesAligned : Obligations.AddressesAligned := by
  intro s p hs hp
  obtain ⟨-, x, hx, rfl⟩ := busPort_eq_some.1 hp
  obtain ⟨hb4, hb⟩ := baseValid_bounds (baseValid_of_request hs hx)
  obtain ⟨ho4, ho⟩ := x.reg.offset_bounds
  have hsum : (addrOf s.cfg x.reg).toNat = s.cfg.base.toNat + x.reg.offset.toNat := by
    rw [addrOf, BitVec.toNat_add, Nat.mod_eq_of_lt (by omega)]
  refine ⟨BitVec.eq_of_toNat_eq ?_, x.reg, hsum, ?_⟩
  · calc (addrOf s.cfg x.reg &&& 3).toNat = (addrOf s.cfg x.reg).toNat % 4 :=
          Nat.and_two_pow_sub_one_eq_mod _ 2
      _ = 0 := by omega
  · change (addrOf s.cfg x.reg).toNat ≤ _
    omega

/-! ### The register block over one step -/

/-- Settles O38: only an acknowledged write and a reset in a run do not keep the whole block. -/
theorem blockChangesByWrites : Obligations.BlockChangesByWrites := by
  intro s t x h hne
  cases hr : (pins s).rst with
  | true =>
    cases (step_rst hr).symm.trans h
    cases hb : busy s with
    | true => exact .inl ⟨rfl, rfl⟩
    | false => exact absurd (blockKept_resetCycle hb x) hne
  | false =>
    refine .inr ?_
    cases hx : request s with
    | none =>
      obtain ⟨hm, he, -⟩ := step_noRequest hr hx h
      exact absurd (readByte_congr hm he x) hne
    | some y =>
      have ho := step_request hr hx h
      have hkept : ¬ (y.we = false ∨ (stepReply s).ack = false) := fun hk => hne (ho.blockKept hk x)
      obtain ⟨hw, ha⟩ : y.we = true ∧ (stepReply s).ack = true := by simpa using hkept
      obtain ⟨n, hn, rfl⟩ : ∃ n < 4, x = byteAddr (addrOf s.cfg y.reg) n := by
        by_contra hout
        exact hne (ho.blockKeptOutside x fun n hn hxn => hout ⟨n, hn, hxn⟩)
      refine ⟨portOf s.cfg y, busPort_eq_some.2 ⟨hr, y, hx, rfl⟩, hw, ha, n, hn, rfl, ?_⟩
      obtain ⟨-, hm, -⟩ | ⟨ha', -⟩ := ho
      · rw [blockAfter, if_pos hw] at hm
        exact readByte_writeWord_same _ _ hn hm
      · simp [ha] at ha'

/-- The base moves only where a new run begins, whose trace is empty (10_state.md R29; log 8). -/
theorem step_cfg_or_trace_nil {s t : State} (hr : (pins s).rst = false) (h : step s = .next t) :
    t.cfg = s.cfg ∨ t.trace = [] := by
  by_cases hs : s.st = .idle ∨ s.st = .done
  · cases (step_awaiting hr hs).symm.trans h
    rcases hostStart_cases (pins s) (tick s) with ⟨-, ht⟩ | ⟨-, -, ht⟩ | ⟨-, -, ht⟩ <;> rw [ht]
    · exact .inr rfl
    · exact .inr rfl
    · exact .inl rfl
  · obtain ⟨-, hc, -⟩ := registerWriters s t hr h
    refine .inl (by_contra fun hne => hs ?_)
    exact (hc (.inl hne)).1

/-- An empty trace names no write. -/
theorem blockHoldsTrace_of_nil {t : State} (h : t.trace = []) : BlockHoldsTrace t := fun r w hw => by
  simp [h, wordsTo] at hw

/-- Elements that write nothing give the block no new word to hold. -/
theorem BlockHoldsTrace.of_block_eq {s t : State} {es : List TraceElem} (hs : BlockHoldsTrace s)
    (ht : t.trace = s.trace ++ es) (hes : ∀ r, wordsTo r es = []) (hm : t.mem = s.mem)
    (he : t.era = s.era) (hc : t.cfg = s.cfg) : BlockHoldsTrace t := by
  intro r w hw
  rw [ht, wordsTo_append, hes, List.append_nil] at hw
  rw [hc, readWord_congr hm he]
  exact hs r w hw

/-- A write puts its own word into its register and leaves the words of the others. -/
theorem BlockHoldsTrace.of_write {s t : State} {r : Reg} {w : Word} (hs : BlockHoldsTrace s)
    (ht : t.trace = s.trace ++ [.wr r (addrOf s.cfg r) w])
    (hm : t.mem = writeWord s.mem (addrOf s.cfg r) w) (he : t.era = s.era) (hc : t.cfg = s.cfg) :
    BlockHoldsTrace t := by
  intro r' w' hw
  rw [ht, wordsTo_append] at hw
  rw [hc]
  by_cases hr : r' = r
  · subst hr
    have hww : w = w' := by simpa [wordsTo] using hw
    rw [← hww]
    exact readWord_writeWord _ _ hm
  · rw [readWord_writeWord_otherReg hr hm he]
    exact hs r' w' (by simpa [wordsTo, Ne.symm hr] using hw)

/-- Settles O50: a write keeps it by the distance of the registers, a new run and a reset by an empty
trace, and every other cycle by leaving the block and the words. -/
theorem blockHoldsTraceKept : Obligations.BlockHoldsTraceKept := by
  intro s t hs h
  cases hr : (pins s).rst with
  | true =>
    cases (step_rst hr).symm.trans h
    exact blockHoldsTrace_of_nil rfl
  | false =>
    cases hx : request s with
    | none =>
      obtain ⟨hm, he, -, htr⟩ := step_noRequest hr hx h
      rcases step_cfg_or_trace_nil hr h with hc | hnil
      · rcases htr with ht | ht | ht | ⟨us, ht⟩
        · exact blockHoldsTrace_of_nil ht
        · exact hs.of_block_eq (es := []) (by simpa using ht) (fun _ => rfl) hm he hc
        · exact hs.of_block_eq ht (fun _ => rfl) hm he hc
        · exact hs.of_block_eq ht (fun _ => rfl) hm he hc
      · exact blockHoldsTrace_of_nil hnil
    | some y =>
      obtain ⟨we, r, w⟩ := y
      obtain ⟨-, hm, he, ht, hc, -⟩ | ⟨-, rfl⟩ := step_request hr hx h
      · cases we with
        | true => exact hs.of_write ht hm he hc
        | false => exact hs.of_block_eq ht (fun _ => rfl) hm he hc
      · exact hs

end Sys2Proof.Machine

/-! Proofs of the statements about the codes of elements and about the trace (spec/30_encoding.md). -/

namespace Sys2Proof

/-! ### Fields of a word -/

theorem bit_cases (b : BitVec 1) : b = 0 ∨ b = 1 := by revert b; decide

/-- The bits of a word that `field` can set (00_scope.md R12). -/
def fieldMask (shift width : Nat) : Word := BitVec.ofNat 32 (2 ^ width - 1) <<< shift

@[simp] theorem bitsAt_or (a b : Word) (lo len : Nat) :
    bitsAt (a ||| b) lo len = bitsAt a lo len ||| bitsAt b lo len := BitVec.extractLsb'_or

/-- A field reads back. -/
@[simp] theorem bitsAt_field_same (v : Word) {lo len : Nat} (h : lo + len ≤ 32) :
    bitsAt (field v lo len) lo len = v.setWidth len := by
  apply BitVec.eq_of_getLsbD_eq
  intro n hn
  simp only [bitsAt, BitVec.getLsbD_extractLsb', BitVec.getLsbD_setWidth,
    getLsbD_field v lo len (lo + n) (by omega)]
  simp [hn, show lo + n < 32 by omega]

/-- A field leaves the bits of every other field at 0. -/
@[simp] theorem bitsAt_field_other (v : Word) {lo len shift width : Nat} (hw : width ≤ 32)
    (h : lo + len ≤ shift ∨ shift + width ≤ lo) : bitsAt (field v shift width) lo len = 0 := by
  apply BitVec.eq_of_getLsbD_eq
  intro n hn
  simp only [bitsAt, BitVec.getLsbD_extractLsb', getLsbD_field v shift width (lo + n) hw]
  have hout : ¬ (shift ≤ lo + n ∧ lo + n < shift + width) := by omega
  by_cases h1 : shift ≤ lo + n
  · simp [show ¬ lo + n < shift + width from fun h2 => hout ⟨h1, h2⟩]
  · simp [h1]

/-- Putting a field of a word back at its place gives the word under the field's mask. -/
@[simp] theorem field_bitsAt (w : Word) {lo len : Nat} (h : lo + len ≤ 32) :
    field (zext (bitsAt w lo len)) lo len = w &&& fieldMask lo len := by
  have hlen : len ≤ 32 := by omega
  apply BitVec.eq_of_getLsbD_eq
  intro n hn
  have hm : (fieldMask lo len).getLsbD n = (decide (lo ≤ n) && decide (n < lo + len)) := by
    have hones : fieldMask lo len = field (BitVec.allOnes 32) lo len := by
      rw [fieldMask, field, BitVec.allOnes_and]
    rw [hones, getLsbD_field _ _ _ _ hlen, BitVec.getLsbD_allOnes]
    simp [hn, show n - lo < 32 by omega]
  rw [getLsbD_field _ _ _ _ hlen, BitVec.getLsbD_and, hm]
  by_cases h1 : lo ≤ n
  · by_cases h2 : n < lo + len
    · simp [bitsAt, hn, h1, h2, show n - lo < 32 by omega,
        show n - lo < len by omega, show lo + (n - lo) = n by omega]
    · simp [h2]
  · simp [h1]

/-- Bits that a mask covers are 0 where the word is 0 under the mask. -/
theorem bitsAt_eq_zero {w m : Word} {lo len : Nat} (h : w &&& m = 0)
    (hm : bitsAt m lo len = BitVec.allOnes len) : bitsAt w lo len = 0 := by
  calc bitsAt w lo len = bitsAt w lo len &&& bitsAt m lo len := by rw [hm, BitVec.and_allOnes]
    _ = bitsAt (w &&& m) lo len := BitVec.extractLsb'_and.symm
    _ = 0 := by rw [h]; exact BitVec.extractLsb'_zero

/-- What a word is under the mask of a field whose value is known. -/
theorem and_of_bitsAt {w m f : Word} {lo len : Nat} {v : BitVec len} (hv : bitsAt w lo len = v)
    (h : lo + len ≤ 32 ∧ fieldMask lo len = m ∧ field (zext v) lo len = f) : w &&& m = f := by
  obtain ⟨hle, hm, hf⟩ := h
  rw [← hm, ← hf, ← hv, field_bitsAt w hle]

/-- A value as wide as its field is not cut by it. -/
theorem zext_shiftLeft_eq_field {n : Nat} (v : BitVec n) (shift : Nat) :
    zext v <<< shift = field (zext v) shift n := by
  have hv : zext v &&& BitVec.ofNat 32 (2 ^ n - 1) = zext v := by
    apply BitVec.eq_of_getLsbD_eq
    intro j hj
    rw [BitVec.getLsbD_and, BitVec.getLsbD_ofNat, Nat.testBit_two_pow_sub_one]
    by_cases h : j < n
    · simp [hj, h]
    · simp [h, BitVec.getLsbD_of_ge v j (by omega)]
  rw [field, hv]

theorem zext_eq_field {n : Nat} (v : BitVec n) : zext v = field (zext v) 0 n := by
  rw [← zext_shiftLeft_eq_field, BitVec.shiftLeft_zero]

/-- A word whose bits lie in `m` is 0 under a mask disjoint from `m`. -/
theorem and_eq_zero_of_masked {w m n : Word} (hw : w &&& m = w) (h : m &&& n = 0) : w &&& n = 0 := by
  rw [← hw, BitVec.and_assoc, h]
  exact BitVec.and_zero

/-- A word is its parts under two masks that cover it. -/
theorem and_or_and_of_cover (w : Word) {m n : Word} (h : m ||| n = BitVec.allOnes 32) :
    w &&& m ||| w &&& n = w := by
  rw [← BitVec.and_or_distrib_left, h, BitVec.and_allOnes]

/-- A word that is 0 under one of the two masks is its part under the other. -/
theorem and_eq_self_of_cover {w m n : Word} (h : m ||| n = BitVec.allOnes 32) (h0 : w &&& n = 0) :
    w &&& m = w := by
  simpa [h0] using and_or_and_of_cover w h

/-! ### The words of the registers and their fields, in both directions -/

theorem btrWord_timingOfWord (w : Word) : btrWord (timingOfWord w) = w &&& 0x3FFFFFFF := by
  simp [btrWord, clkdivField, datlatField, timingOfWord, fieldMask, ← BitVec.and_or_distrib_left]

theorem bwtrWord_writeTimingOfWord (w : Word) :
    bwtrWord (writeTimingOfWord w) = w &&& 0x300FFFFF := by
  simp [bwtrWord, writeTimingOfWord, fieldMask, ← BitVec.and_or_distrib_left]

theorem sdcrFull_sdramCtrlOfWord (w : Word) : sdcrFull (sdramCtrlOfWord w) = w &&& 0x00007DFF := by
  simp [sdcrFull, sdramCtrlOfWord, fieldMask, ← BitVec.and_or_distrib_left]

theorem sdcrReduced_sdramCtrlOfWord (w : Word) :
    sdcrReduced (sdramCtrlOfWord w).toReduced = w &&& 0x000001FF := by
  simp [sdcrReduced, SdramCtrl.toReduced, sdramCtrlOfWord, fieldMask,
    ← BitVec.and_or_distrib_left]

theorem sdtrWord_sdramTimingOfWord (w : Word) :
    sdtrWord (sdramTimingOfWord w) = w &&& 0x0FFFFFFF := by
  simp [sdtrWord, sdramTimingOfWord, fieldMask, ← BitVec.and_or_distrib_left]

/-- FACCEN is put back from its own bit where the word has it right (R120). -/
theorem ctrlWord_ctrlOfWord {w : Word} (h : bitsAt w 6 1 = faccen (ctrlOfWord w)) :
    ctrlWord (ctrlOfWord w) = w &&& 0x000FFF7E := by
  rw [ctrlWord, ← h]
  simp [ctrlOfWord, fieldMask, ← BitVec.and_or_distrib_left]

/-- Divisor and latency survive the four bits of their fields where they are in range (R122, R123). -/
theorem value_of_field {t : NorTiming} (h : t.inRange = true) :
    ((clkdivField t).setWidth 4).setWidth 5 + 1#5 = t.clkDiv ∧
    ((datlatField t).setWidth 4).setWidth 5 + 2#5 = t.dataLatency := by
  have hall : ∀ d l : BitVec 5,
      (1 ≤ d.toNat && d.toNat ≤ 16 && 2 ≤ l.toNat && l.toNat ≤ 17) = true →
      ((d - 1).setWidth 4).setWidth 5 + 1 = d ∧ ((l - 2).setWidth 4).setWidth 5 + 2 = l := by
    decide
  exact hall _ _ h

theorem timingOfWord_btrWord {t : NorTiming} (h : t.inRange = true) :
    timingOfWord (btrWord t) = t := by
  obtain ⟨hd, hl⟩ := value_of_field h
  simp [timingOfWord, btrWord, hd, hl]

theorem writeTimingOfWord_bwtrWord (t : NorWriteTiming) : writeTimingOfWord (bwtrWord t) = t := by
  simp [writeTimingOfWord, bwtrWord]

theorem sdramCtrlOfWord_sdcrFull (c : SdramCtrl) : sdramCtrlOfWord (sdcrFull c) = c := by
  simp [sdramCtrlOfWord, sdcrFull]

theorem sdramCtrlOfWord_sdcrReduced (c : SdramReduced) :
    (sdramCtrlOfWord (sdcrReduced c)).toReduced = c := by
  simp [sdramCtrlOfWord, SdramCtrl.toReduced, sdcrReduced]

theorem sdramTimingOfWord_sdtrWord (t : SdramTiming) : sdramTimingOfWord (sdtrWord t) = t := by
  simp [sdramTimingOfWord, sdtrWord]

theorem ctrlOfWord_ctrlWord (c : NorCtrl) : ctrlOfWord (ctrlWord c) = c := by
  simp [ctrlOfWord, ctrlWord]

/-! ### Words made of fields alone -/

/-- `enc` and `dec` turn a record into a word and back: `dec` undoes `enc` on the records that satisfy
`ok`, and `enc` undoes `dec` on the bits of `m`, which are all that `enc` uses. -/
structure WordLayout {α : Type} (enc : α → Word) (dec : Word → α) (ok : α → Prop)
    (m : Word) : Prop where
  dec_enc : ∀ x, ok x → dec (enc x) = x
  enc_dec : ∀ w, enc (dec w) = w &&& m

section
variable {α : Type} {enc : α → Word} {dec : Word → α} {ok : α → Prop} {m : Word}

/-- The bits outside the layout are 0 in every word of it. -/
theorem WordLayout.and_eq_zero (l : WordLayout enc dec ok m) {x : α} (hx : ok x) {n : Word}
    (h : m &&& n = 0) : enc x &&& n = 0 :=
  and_eq_zero_of_masked ((l.enc_dec (enc x)).symm.trans (congrArg enc (l.dec_enc x hx))) h

/-- A row with this layout decodes each of its words. -/
theorem WordLayout.zeroIn_enc (l : WordLayout enc dec ok m) {x : α} (hx : ok x) {n : Word}
    (h : m &&& n = 0) (f : α → Instr) : zeroIn n (enc x) (f (dec (enc x))) = .ok (f x) := by
  rw [zeroIn, if_pos (l.and_eq_zero hx h), l.dec_enc x hx]

/-- A word that a row with this layout decodes is the word of what it decodes to. -/
theorem WordLayout.of_zeroIn (l : WordLayout enc dec ok m) {n w : Word} {f : α → Instr} {i : Instr}
    (h : m ||| n = BitVec.allOnes 32) (hz : zeroIn n w (f (dec w)) = .ok i) :
    i = f (dec w) ∧ enc (dec w) = w := by
  unfold zeroIn at hz
  split at hz
  next h0 =>
    cases hz
    exact ⟨rfl, (l.enc_dec w).trans (and_eq_self_of_cover h h0)⟩
  next => cases hz

end

theorem btrLayout : WordLayout btrWord timingOfWord (·.inRange = true) 0x3FFFFFFF :=
  ⟨fun _ => timingOfWord_btrWord, btrWord_timingOfWord⟩

theorem bwtrLayout : WordLayout bwtrWord writeTimingOfWord (fun _ => True) 0x300FFFFF :=
  ⟨fun t _ => writeTimingOfWord_bwtrWord t, bwtrWord_writeTimingOfWord⟩

theorem sdcr1Layout : WordLayout sdcrFull sdramCtrlOfWord (fun _ => True) 0x00007DFF :=
  ⟨fun c _ => sdramCtrlOfWord_sdcrFull c, sdcrFull_sdramCtrlOfWord⟩

theorem sdcr2Layout : WordLayout sdcrReduced (fun w => (sdramCtrlOfWord w).toReduced) (fun _ => True)
    0x000001FF :=
  ⟨fun c _ => sdramCtrlOfWord_sdcrReduced c, sdcrReduced_sdramCtrlOfWord⟩

theorem sdtrLayout : WordLayout sdtrWord sdramTimingOfWord (fun _ => True) 0x0FFFFFFF :=
  ⟨fun t _ => sdramTimingOfWord_sdtrWord t, sdtrWord_sdramTimingOfWord⟩

theorem sdrtrLayout : WordLayout (fun ref : BitVec 31 => sdrtrWord (zext ref)) (fun w => bitsAt w 1 31)
    (fun _ => True) 0xFFFFFFFE := by
  have hf (ref : BitVec 31) : sdrtrWord (zext ref) = field (zext ref) 1 31 :=
    zext_shiftLeft_eq_field ref 1
  refine ⟨fun ref _ => ?_, fun w => ?_⟩
  · simp [hf]
  · rw [hf]
    exact field_bitsAt w (by decide)

/-! ### BCR words of a NOR run -/

theorem bitsAt_ctrlWord_faccen (c : NorCtrl) : bitsAt (ctrlWord c) 6 1 = faccen c := by
  simp [ctrlWord]

/-- A control word lies in bits 19:8 and 6:1 (R41). -/
theorem ctrlWord_and_self (c : NorCtrl) : ctrlWord c &&& 0x000FFF7E = ctrlWord c := by
  rw [← ctrlWord_ctrlOfWord, ctrlOfWord_ctrlWord]
  rw [ctrlOfWord_ctrlWord, bitsAt_ctrlWord_faccen]

/-- Bits outside the fields do not change what the fields read. -/
theorem ctrlOfWord_or {x : Word} (hx : x &&& 0x000FFF7E = 0) (w : Word) :
    ctrlOfWord (x ||| w) = ctrlOfWord w := by
  simp (disch := decide) [ctrlOfWord, bitsAt_eq_zero hx]

/-- A control word beside preserved bits and MBKEN decodes to its row, which MBKEN selects (R104). -/
theorem decodeBcr_or_ctrlWord (b : BitVec 2) (c : NorCtrl) {x : Word} (hx : x &&& 0xFF000081 = x) :
    decodeBcr b (x ||| ctrlWord c) =
      if bitsAt x 0 1 = 0 then .ok (.norWrBcr b c (x &&& norPreserveMask))
      else .ok (.norWrBcrEn b c (x &&& norPreserveMask)) := by
  have hx' : x &&& 0x000FFF7E = 0 := and_eq_zero_of_masked hx (by decide)
  have hfix : (x ||| ctrlWord c) &&& 0x00F00000 = 0 := by
    rw [BitVec.and_or_distrib_right, and_eq_zero_of_masked hx (by decide),
      and_eq_zero_of_masked (ctrlWord_and_self c) (by decide)]
    rfl
  have hpres : (x ||| ctrlWord c) &&& norPreserveMask = x &&& norPreserveMask := by
    rw [BitVec.and_or_distrib_right, and_eq_zero_of_masked (ctrlWord_and_self c) (by decide)]
    exact BitVec.or_zero
  have hctrl : ctrlOfWord (x ||| ctrlWord c) = c := by
    rw [ctrlOfWord_or hx', ctrlOfWord_ctrlWord]
  have hacc : bitsAt (x ||| ctrlWord c) 6 1 = faccen c := by
    rw [bitsAt_or, bitsAt_eq_zero hx' (by decide), bitsAt_ctrlWord_faccen]
    exact BitVec.zero_or
  have hen : bitsAt (x ||| ctrlWord c) 0 1 = bitsAt x 0 1 := by
    have h0 : ctrlWord c &&& 1 = 0 := and_eq_zero_of_masked (ctrlWord_and_self c) (by decide)
    rw [bitsAt_or, bitsAt_eq_zero h0 (by decide)]
    exact BitVec.or_zero
  rw [decodeBcr, hfix, hctrl, hacc, hen, hpres]
  simp

theorem decodeBcr_norWrBcr (b : BitVec 2) (c : NorCtrl) {pres : Word}
    (hp : pres &&& norPreserveMask = pres) :
    decodeBcr b (pres ||| ctrlWord c) = .ok (.norWrBcr b c pres) := by
  have h1 : pres &&& 1 = 0 := and_eq_zero_of_masked hp (by decide)
  have hx : pres &&& 0xFF000081 = pres := by
    rw [← hp, BitVec.and_assoc]; rfl
  rw [decodeBcr_or_ctrlWord b c hx, if_pos (bitsAt_eq_zero h1 (by decide)), hp]

theorem decodeBcr_norWrBcrEn (b : BitVec 2) (c : NorCtrl) {pres : Word}
    (hp : pres &&& norPreserveMask = pres) :
    decodeBcr b (pres ||| ctrlWord c ||| mbken) = .ok (.norWrBcrEn b c pres) := by
  have h1 : pres &&& 1 = 0 := and_eq_zero_of_masked hp (by decide)
  have hx : (pres ||| mbken) &&& 0xFF000081 = pres ||| mbken := by
    rw [← hp, BitVec.and_or_distrib_right, BitVec.and_assoc]; rfl
  have hen : bitsAt (pres ||| mbken) 0 1 ≠ 0 := by
    rw [bitsAt_or, bitsAt_eq_zero h1 (by decide)]; decide
  have hpm : (pres ||| mbken) &&& norPreserveMask = pres := by
    rw [BitVec.and_or_distrib_right, hp]
    exact BitVec.or_zero
  rw [BitVec.or_assoc, BitVec.or_comm (ctrlWord c), ← BitVec.or_assoc, decodeBcr_or_ctrlWord b c hx,
    if_neg hen, hpm]

/-- A decoded BCR word is its preserved bits, its control word and its bit 0 (R41, R126). -/
theorem bcrWord_of_fields {w : Word} (hfix : w &&& 0x00F00000 = 0)
    (hacc : bitsAt w 6 1 = faccen (ctrlOfWord w)) :
    w &&& norPreserveMask ||| ctrlWord (ctrlOfWord w) ||| w &&& 1 = w := by
  rw [ctrlWord_ctrlOfWord hacc, ← BitVec.and_or_distrib_left, ← BitVec.and_or_distrib_left]
  exact and_eq_self_of_cover (n := 0x00F00000) (by decide) hfix

theorem decodeBcr_ok {b : BitVec 2} {w : Word} {i : Instr} (h : decodeBcr b w = .ok i) :
    i.entry = .nor ∧ i.action = Action.write (.bcr b) w := by
  unfold decodeBcr at h
  split at h
  · cases h
  next hfix =>
  split at h
  · cases h
  next hacc =>
  have hw := bcrWord_of_fields (by simpa using hfix) (by simpa using hacc)
  split at h <;> cases h <;> refine ⟨rfl, congrArg (Action.write (.bcr b)) ?_⟩
  next h0 =>
    have h1 : w &&& 1 = 0 := and_of_bitsAt h0 (by decide)
    rw [h1] at hw
    simpa using hw
  next h0 =>
    have h1 : w &&& 1 = mbken := and_of_bitsAt ((bit_cases _).resolve_left h0) (by decide)
    rwa [h1] at hw

/-! ### BCR1 words of the gate -/

/-- A word is its low 31 bits beside FMCEN (43_enable_gate.md R212, R214). -/
theorem gateWord_of_fields (w : Word) : zext (bitsAt w 0 31) ||| w &&& fmcen = w := by
  rw [zext_eq_field, field_bitsAt w (by decide)]
  exact and_or_and_of_cover w (by decide)

theorem bitsAt_kept (kept : BitVec 31) :
    bitsAt (zext kept) 0 31 = kept ∧ bitsAt (zext kept) 31 1 = 0 := by
  rw [zext_eq_field]
  exact ⟨by simp, bitsAt_field_other _ (by decide) (by decide)⟩

theorem decodeGate_gateWrOff (kept : BitVec 31) : decodeGate (zext kept) = .gateWrOff kept := by
  obtain ⟨hk, h31⟩ := bitsAt_kept kept
  rw [decodeGate, if_pos h31, hk]

theorem decodeGate_gateWrOn (kept : BitVec 31) :
    decodeGate (zext kept ||| fmcen) = .gateWrOn kept := by
  obtain ⟨hk, h31⟩ := bitsAt_kept kept
  have hk' : bitsAt (zext kept ||| fmcen) 0 31 = kept := by
    have hf : bitsAt fmcen 0 31 = 0 := by decide
    rw [bitsAt_or, hk, hf]
    exact BitVec.or_zero
  have h31' : bitsAt (zext kept ||| fmcen) 31 1 ≠ 0 := by
    rw [bitsAt_or, h31]; decide
  rw [decodeGate, if_neg h31', hk']

/-- Every word is one of the gate's two writes, which FMCEN selects (R104). -/
theorem decodeGate_action (w : Word) :
    (decodeGate w).entry = .sdram ∧ (decodeGate w).action = Action.write (.bcr 0) w := by
  have hw := gateWord_of_fields w
  unfold decodeGate
  split <;> refine ⟨rfl, congrArg (Action.write (.bcr 0)) ?_⟩
  next h0 =>
    have h1 : w &&& fmcen = 0 := and_of_bitsAt h0 (by decide)
    simpa [h1] using hw
  next h0 =>
    have h1 : w &&& fmcen = fmcen := and_of_bitsAt ((bit_cases _).resolve_left h0) (by decide)
    rwa [h1] at hw

/-! ### Command words -/

/-- The word of a command has a MODE code of R97 and one target bit (R98, R102). -/
theorem cmdWord_mode_target {k : Nat} (hk : k < 5) (slot : Slot) (cas : BitVec 2) :
    (bitsAt (cmdWord k slot cas) 0 3).toNat ≤ 4 ∧
    (bitsAt (cmdWord k slot cas) 3 2 = 1 ∨ bitsAt (cmdWord k slot cas) 3 2 = 2) := by
  revert k cas
  cases slot <;> decide

theorem decodeCmd_cmdWriteMode (slot : Slot) (cas : BitVec 2) :
    decodeCmd (cmdWord 3 slot cas) = .ok (.cmdWriteMode slot cas) := by
  rcases Machine.index_cases cas with rfl | rfl | rfl | rfl <;> cases slot <;> rfl

/-- The target bits of a word are those of the slot it decodes to (R98). -/
theorem targetOfWord_ok {w : Word} {slot : Slot} (h : targetOfWord w = .ok slot) :
    w &&& 0x18 = ctb slot := by
  unfold targetOfWord at h
  split at h
  next h2 =>
    cases h
    exact and_of_bitsAt h2 (by decide)
  next =>
    split at h
    next h1 =>
      cases h
      exact and_of_bitsAt h1 (by decide)
    next => cases h

/-- A word with the fixed bits of a command that has no operand but its slot is that command's word. -/
theorem word_of_target {w f : Word} {slot : Slot} (ht : w &&& 0x18 = ctb slot)
    (hf : w &&& 0xFFFFFFE7 = f) : f ||| ctb slot = w := by
  rw [← hf, ← ht]
  exact and_or_and_of_cover w (by decide)

theorem cmdWord_writeMode (slot : Slot) (cas : BitVec 2) :
    4 ||| ctb slot ||| field (zext cas) 13 2 = cmdWord 3 slot cas := by
  revert cas
  cases slot <;> decide

theorem word_of_writeMode {w : Word} {slot : Slot} (ht : w &&& 0x18 = ctb slot)
    (hf : w &&& 0xFFFF9FE7 = 4) : cmdWord 3 slot (bitsAt w 13 2) = w := by
  rw [← cmdWord_writeMode, ← hf, ← ht, field_bitsAt w (by decide), ← BitVec.and_or_distrib_left]
  exact and_or_and_of_cover w (by decide)

theorem decodeCmd_ok {w : Word} {i : Instr} (h : decodeCmd w = .ok i) :
    i.entry = .sdram ∧ i.action = Action.write .sdcmr w := by
  unfold decodeCmd at h
  split at h
  · cases h
  next slot hslot =>
  have ht := targetOfWord_ok hslot
  have hcmd {f : Word} (hf : w &&& 0xFFFFFFE7 = f) :
      Action.write .sdcmr (f ||| ctb slot) = Action.write .sdcmr w :=
    congrArg (Action.write .sdcmr) (word_of_target ht hf)
  split at h
  next hf => cases h; cases slot <;> exact ⟨rfl, hcmd hf⟩
  split at h
  next hf => cases h; cases slot <;> exact ⟨rfl, hcmd hf⟩
  split at h
  next hf => cases h; cases slot <;> exact ⟨rfl, hcmd hf⟩
  split at h
  next hf => cases h; exact ⟨rfl, congrArg (Action.write .sdcmr) (word_of_writeMode ht hf)⟩
  split at h
  next hf => cases h; cases slot <;> exact ⟨rfl, hcmd hf⟩
  split at h <;> cases h

/-! ### Transactions -/

/-- The decoder gives a written element back from its register and its word. -/
theorem decodeWrite_of_action {i : Instr} {r : Reg} {w : Word} (hi : i.wellFormed = true)
    (ha : i.action = Action.write r w) : decodeWrite i.entry r w = .ok i := by
  cases i <;> cases ha
  case norWrBcr b c pres => exact decodeBcr_norWrBcr b c (Machine.preserved_of_wellFormed hi)
  case norWrBcrEn b c pres => exact decodeBcr_norWrBcrEn b c (Machine.preserved_of_wellFormed hi)
  case norWrBtr b t => exact btrLayout.zeroIn_enc hi (by decide) (.norWrBtr b)
  case norWrBwtr b t => exact bwtrLayout.zeroIn_enc trivial (by decide) (.norWrBwtr b)
  case gateWrOff kept => exact congrArg Except.ok (decodeGate_gateWrOff kept)
  case gateWrOn kept => exact congrArg Except.ok (decodeGate_gateWrOn kept)
  case sdWrSdcr1 c => exact sdcr1Layout.zeroIn_enc trivial (by decide) .sdWrSdcr1
  case sdWrSdcr2 c => exact sdcr2Layout.zeroIn_enc trivial (by decide) .sdWrSdcr2
  case sdWrSdtr1 t => exact sdtrLayout.zeroIn_enc trivial (by decide) .sdWrSdtr1
  case sdWrSdtr2 t => exact sdtrLayout.zeroIn_enc trivial (by decide) .sdWrSdtr2
  case sdWrSdrtr ref => exact sdrtrLayout.zeroIn_enc trivial (by decide) .sdWrSdrtr
  case cmdWriteMode slot cas => exact decodeCmd_cmdWriteMode slot cas
  case cmdStartClock slot | cmdPrecharge slot | cmdAutoRefresh slot | cmdNormal slot =>
    cases slot <;> rfl

/-- A write that decodes is the write of the element it stands for, in a run of its entry. -/
theorem decodeWrite_ok {ent : Entry} {r : Reg} {w : Word} {i : Instr}
    (h : decodeWrite ent r w = .ok i) : i.entry = ent ∧ i.action = Action.write r w := by
  cases ent <;> cases r <;> simp only [decodeWrite, reduceCtorEq] at h
  case nor.bcr b => exact decodeBcr_ok h
  case nor.btr b =>
    obtain ⟨rfl, hw⟩ := btrLayout.of_zeroIn (f := .norWrBtr b) (by decide) h
    exact ⟨rfl, congrArg (Action.write (.btr b)) hw⟩
  case nor.bwtr b =>
    obtain ⟨rfl, hw⟩ := bwtrLayout.of_zeroIn (f := .norWrBwtr b) (by decide) h
    exact ⟨rfl, congrArg (Action.write (.bwtr b)) hw⟩
  case sdram.bcr b =>
    split at h <;> cases h
    next hb => rw [hb]; exact decodeGate_action w
  case sdram.sdcr1 =>
    obtain ⟨rfl, hw⟩ := sdcr1Layout.of_zeroIn (f := .sdWrSdcr1) (by decide) h
    exact ⟨rfl, congrArg (Action.write .sdcr1) hw⟩
  case sdram.sdcr2 =>
    obtain ⟨rfl, hw⟩ := sdcr2Layout.of_zeroIn (f := .sdWrSdcr2) (by decide) h
    exact ⟨rfl, congrArg (Action.write .sdcr2) hw⟩
  case sdram.sdtr1 =>
    obtain ⟨rfl, hw⟩ := sdtrLayout.of_zeroIn (f := .sdWrSdtr1) (by decide) h
    exact ⟨rfl, congrArg (Action.write .sdtr1) hw⟩
  case sdram.sdtr2 =>
    obtain ⟨rfl, hw⟩ := sdtrLayout.of_zeroIn (f := .sdWrSdtr2) (by decide) h
    exact ⟨rfl, congrArg (Action.write .sdtr2) hw⟩
  case sdram.sdcmr => exact decodeCmd_ok h
  case sdram.sdrtr =>
    obtain ⟨rfl, hw⟩ := sdrtrLayout.of_zeroIn (f := .sdWrSdrtr) (by decide) h
    exact ⟨rfl, congrArg (Action.write .sdrtr) hw⟩

/-- The decoder gives a reading element back from its register and the mark of the second gate read. -/
theorem decodeRead_of_action {i : Instr} {r : Reg} (ha : i.action = Action.read r) :
    decodeRead i.entry r (i == .gateRdOn) = .ok i := by
  cases i <;> cases ha <;> rfl

/-- A read that decodes is the read of the element it stands for, in a run of its entry. -/
theorem decodeRead_ok {ent : Entry} {r : Reg} {second : Bool} {i : Instr}
    (h : decodeRead ent r second = .ok i) :
    i.entry = ent ∧ i.action = Action.read r ∧ (i == .gateRdOn) = second := by
  cases ent <;> cases r <;> simp only [decodeRead, reduceCtorEq] at h
  case nor.bcr b => cases second <;> cases h; exact ⟨rfl, rfl, rfl⟩
  case sdram.bcr b =>
    split at h <;> cases h
    next hb => subst hb; cases second <;> exact ⟨rfl, rfl, rfl⟩
  case sdram.sdsr => cases second <;> cases h; exact ⟨rfl, rfl, rfl⟩

/-! ### The second word of a code (log 9) -/

/-- The kind and the mark of the second gate read come back from the second word. -/
theorem contextWord_kind_second (we : Bool) (ent : Entry) (r : Reg) (second : Bool) :
    bitsAt (contextWord (if we then 0 else 1) ent r.offset second) 16 2 = (if we then 0 else 1) ∧
    (bitsAt (contextWord (if we then 0 else 1) ent r.offset second) 19 1 != 0) = second := by
  have hall : ∀ r ∈ Reg.all, ∀ we second : Bool, ∀ ent ∈ [Entry.nor, .sdram],
      bitsAt (contextWord (if we then 0 else 1) ent r.offset second) 16 2 = (if we then 0 else 1) ∧
      (bitsAt (contextWord (if we then 0 else 1) ent r.offset second) 19 1 != 0) = second := by decide
  exact hall r r.mem_all we second ent (by cases ent <;> decide)

/-- The second word as its four fields. -/
theorem contextWord_eq_fields (kind off : Word) (e g : BitVec 1) :
    contextWord kind (if e = 0 then .nor else .sdram) off (g != 0) =
      off ||| kind <<< 16 ||| field (zext e) 18 1 ||| field (zext g) 19 1 := by
  rcases bit_cases e with rfl | rfl <;> rcases bit_cases g with rfl | rfl <;> rfl

theorem Code.reg_ok {c : Code} {r : Reg} (h : c.reg = .ok r) : r.offset = zext (bitsAt c.ctx 0 16) := by
  unfold Code.reg at h
  split at h <;> cases h
  next hr => exact Reg.offset_of_ofOffset hr

/-- A second word without reserved bits is put back from what the decoder reads of it. -/
theorem contextWord_of_code {c : Code} {r : Reg} (hz : bitsAt c.ctx 20 12 = 0) (hr : c.reg = .ok r) :
    contextWord (zext (bitsAt c.ctx 16 2)) c.entry r.offset c.second = c.ctx := by
  have hz' : c.ctx &&& 0xFFF00000 = 0 := and_of_bitsAt hz (by decide)
  rw [Code.entry, Code.second, contextWord_eq_fields, Code.reg_ok hr, zext_eq_field (bitsAt c.ctx 0 16),
    zext_shiftLeft_eq_field, field_bitsAt _ (by decide), field_bitsAt _ (by decide),
    field_bitsAt _ (by decide), field_bitsAt _ (by decide), ← BitVec.and_or_distrib_left,
    ← BitVec.and_or_distrib_left, ← BitVec.and_or_distrib_left]
  exact and_eq_self_of_cover (by decide) hz'

/-! ### What the decoder does with a code -/

section
variable {c : Code} {r : Reg} {i : Instr}

theorem decodeCode_write (hz : bitsAt c.ctx 20 12 = 0) (hk : bitsAt c.ctx 16 2 = 0)
    (hs : c.second = false) (hr : c.reg = .ok r) : decodeCode c = decodeWrite c.entry r c.data := by
  simp [decodeCode, hz, hk, hs, hr]

theorem decodeCode_read (hz : bitsAt c.ctx 20 12 = 0) (hk : bitsAt c.ctx 16 2 = 1)
    (hr : c.reg = .ok r) : decodeCode c = decodeRead c.entry r c.second := by
  simp [decodeCode, hz, hk, hr]

/-- Everything that decodes: a write, a read, a delay of R97, or the barrier. -/
theorem decodeCode_ok (h : decodeCode c = .ok i) :
    (bitsAt c.ctx 20 12 = 0 ∧ ∃ r, c.reg = .ok r ∧
      ((bitsAt c.ctx 16 2 = 0 ∧ c.second = false ∧ decodeWrite c.entry r c.data = .ok i) ∨
       (bitsAt c.ctx 16 2 = 1 ∧ decodeRead c.entry r c.second = .ok i))) ∨
    (c.ctx = contextWord 2 .sdram 0 false ∧ (c.data = 200 ∨ c.data = 100) ∧
      i = .delay c.data.toNat) ∨
    (c.ctx = contextWord 3 .sdram 0 false ∧ c.data = 0 ∧ i = .barrier) := by
  unfold decodeCode at h
  split at h
  · cases h
  next hz =>
  have hz' : bitsAt c.ctx 20 12 = 0 := by simpa using hz
  split at h
  next hk =>
    split at h
    · cases h
    next hs =>
    split at h
    · cases h
    next r hr => exact .inl ⟨hz', r, hr, .inl ⟨hk, by simpa using hs, h⟩⟩
  split at h
  next hk =>
    split at h
    · cases h
    next r hr => exact .inl ⟨hz', r, hr, .inr ⟨hk, h⟩⟩
  split at h
  · split at h <;> cases h
    next hd => exact .inr (.inl (by simpa using hd))
  · split at h <;> cases h
    next hd => exact .inr (.inr (by simpa using hd))

end

/-- The code of an element that is a transaction (log 9). -/
theorem encodeCode_bus {i : Instr} {x : Txn} (ha : i.action = .bus x) : encodeCode i =
    ⟨x.data, contextWord (if x.we then 0 else 1) i.entry x.reg.offset (i == .gateRdOn)⟩ := by
  rw [encodeCode, ha]

/-- The second gate read is no write. -/
theorem beq_gateRdOn_of_write {i : Instr} {r : Reg} {w : Word} (ha : i.action = Action.write r w) :
    (i == .gateRdOn) = false := by
  cases i <;> cases ha <;> rfl

/-- A well-formed element is what its own code decodes to (R104). -/
theorem decodeCode_encodeCode {i : Instr} (hi : i.wellFormed = true) :
    decodeCode (encodeCode i) = .ok i := by
  cases ha : i.action with
  | bus x =>
    obtain ⟨hent, hz, hreg⟩ := Laws.ContextReads.bus ha
    obtain ⟨hkind, hsecond⟩ := contextWord_kind_second x.we i.entry x.reg (i == .gateRdOn)
    have hc := encodeCode_bus ha
    have hk : bitsAt (encodeCode i).ctx 16 2 = if x.we then 0 else 1 := by rw [hc]; exact hkind
    have hs : (encodeCode i).second = (i == .gateRdOn) := by rw [hc]; exact hsecond
    obtain ⟨we, r, w⟩ := x
    cases we with
    | true =>
      rw [decodeCode_write hz hk (hs.trans (beq_gateRdOn_of_write ha)) (hreg _ ha), hent, hc]
      exact decodeWrite_of_action hi ha
    | false =>
      have hw : i.action = Action.read r := by cases i <;> cases ha <;> rfl
      rw [decodeCode_read hz hk (hreg _ ha), hent, hs]
      exact decodeRead_of_action hw
  | delay us =>
    cases i <;> cases ha
    have hu : us = 200 ∨ us = 100 := by simpa [Instr.wellFormed] using hi
    rcases hu with rfl | rfl <;> rfl
  | barrier => cases i <;> cases ha; rfl

/-- A code that decodes is the code of its element, but for the data word of a read (log 21). -/
theorem encodeCode_of_decodeCode {c : Code} {i : Instr} (h : decodeCode c = .ok i) :
    (encodeCode i).ctx = c.ctx ∧ (bitsAt c.ctx 16 2 ≠ 1 → (encodeCode i).data = c.data) := by
  rcases decodeCode_ok h with
    ⟨hz, r, hr, ⟨hk, hs, h⟩ | ⟨hk, h⟩⟩ | ⟨hc, hd, rfl⟩ | ⟨hc, hd, rfl⟩
  · obtain ⟨hent, ha⟩ := decodeWrite_ok h
    have hctx := contextWord_of_code hz hr
    rw [hk, hs] at hctx
    rw [encodeCode_bus ha, hent, beq_gateRdOn_of_write ha]
    exact ⟨hctx, fun _ => rfl⟩
  · obtain ⟨hent, ha, hs⟩ := decodeRead_ok h
    have hctx := contextWord_of_code hz hr
    rw [hk] at hctx
    rw [encodeCode_bus ha, hent, hs]
    exact ⟨hctx, fun hne => absurd hk hne⟩
  · exact ⟨hc.symm, fun _ => BitVec.ofNat_toNat ..⟩
  · exact ⟨hc.symm, fun _ => hd.symm⟩

/-- Settles O32: the bytes of an element are those of its code, whose two words decode to it. -/
theorem decodeOfEncode : Obligations.DecodeOfEncode := by
  intro i rest hi
  rw [encode, Machine.decode_bytesOfWord, decodeCode_encodeCode hi]
  rfl

/-- Settles O33: what decodes is well formed, and each of its two words is put back from its fields. -/
theorem encodeOfDecode : Obligations.EncodeOfDecode := fun _ _ h =>
  ⟨wellFormed_decodeCode h, encodeCode_of_decodeCode h⟩

/-! ### The words that are written -/

theorem bcrWord_row {pres : Word} (hp : (pres &&& norWritableMask == 0) = true) (c : NorCtrl) :
    (pres ||| ctrlWord c) &&& 0x00F00001 = 0 := by
  rw [BitVec.and_or_distrib_right,
    and_eq_zero_of_masked (Machine.preserved_of_wellFormed hp) (by decide),
    and_eq_zero_of_masked (ctrlWord_and_self c) (by decide)]
  rfl

/-- A written word has the fixed bits of its element's row (R105). -/
theorem row_of_written {i : Instr} {r : Reg} {w : Word} (hi : i.wellFormed = true)
    (ha : i.action = Action.write r w) : w &&& i.rowMask.1 = i.rowMask.2 := by
  cases i <;> cases ha <;> dsimp only [Instr.rowMask]
  case norWrBcr b c pres => exact bcrWord_row hi c
  case norWrBcrEn b c pres => rw [BitVec.and_or_distrib_right, bcrWord_row hi c]; rfl
  case norWrBtr b t => exact btrLayout.and_eq_zero hi (by decide)
  case norWrBwtr b t => exact bwtrLayout.and_eq_zero trivial (by decide)
  case sdWrSdcr1 c => exact sdcr1Layout.and_eq_zero trivial (by decide)
  case sdWrSdcr2 c => exact sdcr2Layout.and_eq_zero trivial (by decide)
  case sdWrSdtr1 t => exact sdtrLayout.and_eq_zero trivial (by decide)
  case sdWrSdtr2 t => exact sdtrLayout.and_eq_zero trivial (by decide)
  case sdWrSdrtr ref => exact sdrtrLayout.and_eq_zero trivial (by decide)
  case gateWrOff kept => exact and_of_bitsAt (bitsAt_kept kept).2 (by decide)
  case gateWrOn kept =>
    have hk : zext kept &&& 0x80000000 = 0 := and_of_bitsAt (bitsAt_kept kept).2 (by decide)
    rw [BitVec.and_or_distrib_right, hk]
    rfl
  case cmdWriteMode slot cas =>
    rcases Machine.index_cases cas with rfl | rfl | rfl | rfl <;> cases slot <;> rfl
  case cmdStartClock slot | cmdPrecharge slot | cmdAutoRefresh slot | cmdNormal slot =>
    cases slot <;> rfl

/-- Every word written to SDCMR has a MODE code of R97 and one target bit (R98, R102). -/
theorem command_mode_target {i : Instr} {w : Word} (ha : i.action = Action.write .sdcmr w) :
    (bitsAt w 0 3).toNat ≤ 4 ∧ (bitsAt w 3 2 = 1 ∨ bitsAt w 3 2 = 2) := by
  cases i <;> cases ha
  case cmdStartClock | cmdPrecharge | cmdAutoRefresh | cmdWriteMode | cmdNormal =>
    exact cmdWord_mode_target (by decide) _ _

/-- Settles O30, by the layout of each row's words and the word of each command. -/
theorem writtenWordsMatchRows : Obligations.WrittenWordsMatchRows := by
  intro i r w hi ha
  refine ⟨row_of_written hi ha, fun hr => ?_⟩
  subst hr
  exact (command_mode_target ha).2

/-! ### What is refused -/

theorem refused_of_not_ok {c : Code} (h : ∀ i, decodeCode c ≠ .ok i) :
    ∃ e, decodeCode c = .error e := by
  cases hc : decodeCode c with
  | ok i => exact absurd hc (h i)
  | error e => exact ⟨e, rfl⟩

/-- What decodes with the kind of a transaction is one on the register of the code (R104). -/
theorem action_of_decodeCode {c : Code} {i : Instr} (hk : (bitsAt c.ctx 16 2).toNat ≤ 1)
    (h : decodeCode c = .ok i) : ∃ r, c.reg = .ok r ∧
      ((bitsAt c.ctx 16 2 = 0 ∧ i.action = Action.write r c.data) ∨
       (bitsAt c.ctx 16 2 = 1 ∧ i.action = Action.read r)) := by
  rcases decodeCode_ok h with
    ⟨-, r, hr, ⟨hk0, -, h⟩ | ⟨hk1, h⟩⟩ | ⟨hc, -⟩ | ⟨hc, -⟩
  · exact ⟨r, hr, .inl ⟨hk0, (decodeWrite_ok h).2⟩⟩
  · exact ⟨r, hr, .inr ⟨hk1, (decodeRead_ok h).2.1⟩⟩
  · rw [hc] at hk; exact absurd hk (by decide)
  · rw [hc] at hk; exact absurd hk (by decide)

/-- The sequencer reads BCRx and SDSR alone (R51). -/
theorem reg_of_read {i : Instr} {r : Reg} (ha : i.action = Action.read r) :
    (∃ b, r = .bcr b) ∨ r = .sdsr := by
  cases i <;> cases ha
  case sdRdSdsr => exact .inr rfl
  all_goals exact .inl ⟨_, rfl⟩

/-- Settles O31: what decodes is an element, and no element has such a word, offset or read. -/
theorem notEmittedRefused : Obligations.NotEmittedRefused := by
  refine ⟨fun c r hr hk hreg hbad => refused_of_not_ok fun i h => ?_,
    fun c hk hoff => refused_of_not_ok fun i h => ?_,
    fun c r hr hk hbcr hsdsr => refused_of_not_ok fun i h => ?_⟩
  · obtain ⟨r', hr', ⟨-, ha⟩ | ⟨hk', -⟩⟩ := action_of_decodeCode (by rw [hk]; decide) h
    · cases hr.symm.trans hr'
      subst hreg
      obtain ⟨hmode, htarget⟩ := command_mode_target ha
      rcases hbad with hb | hb | hb
      · omega
      · simp [hb] at htarget
      · simp [hb] at htarget
    · simp [hk] at hk'
  · obtain ⟨r, hr, -⟩ := action_of_decodeCode hk h
    exact hoff r (Code.reg_ok hr).symm
  · obtain ⟨r', hr', ⟨hk', -⟩ | ⟨-, ha⟩⟩ := action_of_decodeCode (by rw [hk]; decide) h
    · simp [hk] at hk'
    · cases hr.symm.trans hr'
      rcases reg_of_read ha with ⟨b, hb⟩ | hs
      · exact hbcr b hb
      · exact hsdsr hs

end Sys2Proof

namespace Sys2Proof.Machine

/-! ### Elements that a state issues -/

theorem delayAt_wellFormed {k : Nat} {i : Instr} (h : delayAt k = .issue i) : i.wellFormed = true := by
  have hk : k < 4 := by
    by_contra hk
    have h0 : delayUs k = 0 := Nat.eq_zero_of_not_pos (mt delayUs_pos.1 hk)
    simp [delayAt, h0] at h
  rw [delayAt_issue h]
  interval_cases k <;> rfl

/-- A command has no operand to check. -/
theorem commandAt_wellFormed {k : Nat} {e : SdEntry} {i : Instr} (h : commandAt k e = .issue i) :
    i.wellFormed = true := by
  unfold commandAt at h
  split at h <;> cases h <;> rfl

/-- Validation puts the timing of the current entry in range (40_norsram_configurator.md R137). -/
theorem timing_inRange {c : Cfg} {j : BitVec 2} (hv : norInvalid c = false)
    (h : j.toNat < c.norCount.toNat) : (norAt c j).timing.inRange = true := by
  have he := norEntry_valid hv h
  simp only [norEntryInvalid, Bool.or_eq_false_iff, Bool.not_eq_false'] at he
  exact he.2

/-- Under the invariant of the registers a state issues well-formed elements alone (R104). -/
theorem wellFormed_of_issue {s : State} {i : Instr} (hs : SeqInv s) (ha : activity s = .issue i) :
    i.wellFormed = true := by
  cases hst : s.st <;> simp only [activity, hst, reduceCtorEq] at ha
  case nWrBtr =>
    obtain ⟨-, rfl⟩ := issueNor_issue ha
    obtain ⟨-, hv, hi⟩ := hs.nor (by rw [hst]; rfl)
    exact timing_inRange hv hi
  case nWrBcr | nWrBcrEn =>
    obtain ⟨-, rfl⟩ := issueNor_issue ha
    exact beq_iff_eq.2 (preserveMask_writableMask s.rmw)
  case nRdBcr | nWrBwtr =>
    obtain ⟨-, rfl⟩ := issueNor_issue ha
    rfl
  case sWrSdcr1 | sWrSdcr2 | sWrSdtr1 | sWrSdtr2 | sWrSdrtr =>
    obtain ⟨e, -, he⟩ := issueSd_issue ha
    cases he
    rfl
  case sWrCmd =>
    obtain ⟨e, -, he⟩ := issueSd_issue ha
    exact commandAt_wellFormed he
  case sDelay => exact delayAt_wellFormed ha
  case gRdOff | gWrOff | gRdOn | gWrOn | sBarrier | sPoll => cases ha; rfl

/-- Settles O36: an issued element is well formed, and so its code decodes to it (O32). -/
theorem issuedElementsDecode : Obligations.IssuedElementsDecode := by
  intro s i hs ha
  have hi := wellFormed_of_issue hs ha
  exact ⟨hi, by simpa using decodeOfEncode i [] hi⟩

/-! ### The trace -/

/-- Settles O39, by what a requested transaction does and what a cycle without one does. -/
theorem traceIsPortHistory : Obligations.TraceIsPortHistory := by
  intro s t hr h
  refine ⟨fun p hp => ?_, fun hp => ?_⟩
  · obtain ⟨-, x, hx, rfl⟩ := busPort_eq_some.1 hp
    obtain ⟨ha, -, -, ht, -⟩ | ⟨ha, rfl⟩ := step_request hr hx h
    · exact ⟨fun _ => ⟨x.reg, rfl, ht⟩, by simp [ha]⟩
    · exact ⟨by simp [ha], fun _ => rfl⟩
  · have hx : request s = none := by simpa [busPort, hr] using hp
    obtain ⟨-, -, -, ht⟩ := step_noRequest hr hx h
    exact ht

end Sys2Proof.Machine

/-! Proofs of the statements about the NOR/SRAM configurator (spec/40_norsram_configurator.md) and of the
two invariants that every step keeps. -/

namespace Sys2Proof.Machine

/-! ### The invariant of the registers, by the part of the FSM -/

/-- The part of `SeqInv` that does not mention the FSM's state, over the fields it mentions. -/
structure CountersOk (par : Params) (mem : List Host.Cell) (k : BitVec 3) (dcnt pcnt : Nat) : Prop where
  cycles   : 0 < par.cyclesPerUs
  block    : memWf mem = true
  kBound   : k.toNat ≤ 4
  dcntFits : dcnt ≤ 200 * par.cyclesPerUs
  pcntFits : pcnt < max 1 par.pollTimeout

section
variable {s t : State}

theorem SeqInv.counters (hs : SeqInv s) : CountersOk s.par s.mem s.k s.dcnt s.pcnt :=
  ⟨hs.cycles, hs.block, hs.kBound, hs.dcntFits, hs.pcntFits⟩

/-- Every outcome but OK is left in DONE or FATAL (R220). -/
theorem SeqInv.err_ok (hs : SeqInv s) (hd : s.st ≠ .done) (hf : s.st ≠ .fatal) : s.err = .ok := by
  cases he : s.err with
  | ok => rfl
  | einval => exact absurd (hs.invalid he) hd
  | etimeout => exact absurd (hs.timeout.1 he) hf

/-- IDLE, VALIDATE and DONE ask nothing of the configuration. -/
theorem seqInv_of_outside (hc : CountersOk t.par t.mem t.k t.dcnt t.pcnt)
    (hst : t.st = .idle ∨ t.st = .validate ∨ t.st = .done)
    (he : t.err = .ok ∨ t.err = .einval ∧ t.st = .done) : SeqInv t where
  cycles := hc.cycles
  block := hc.block
  nor := by rcases hst with h | h | h <;> rw [h] <;> nofun
  sdram := by rcases hst with h | h | h <;> rw [h] <;> nofun
  gate := by rcases hst with h | h | h <;> rw [h] <;> nofun
  slot2 := by rcases hst with h | h | h <;> rw [h] <;> nofun
  kBound := hc.kBound
  delay := by rcases hst with h | h | h <;> rw [h] <;> nofun
  dcntFits := hc.dcntFits
  pcntFits := hc.pcntFits
  timeout := by
    rcases hst with h | h | h <;> rcases he with he | ⟨he, -⟩ <;> simp [h, he]
  invalid := by
    rcases he with he | ⟨-, h⟩
    · simp [he]
    · exact fun _ => h
  fatalRun := by rcases hst with h | h | h <;> rw [h] <;> nofun

/-- FATAL asks for a bounded poll of an SDRAM run (R224). -/
theorem seqInv_of_fatal (hc : CountersOk t.par t.mem t.k t.dcnt t.pcnt) (hst : t.st = .fatal)
    (he : t.err = .etimeout) (hrun : t.ent = .sdram ∧ 0 < t.par.pollTimeout) : SeqInv t where
  cycles := hc.cycles
  block := hc.block
  nor := by rw [hst]; nofun
  sdram := by rw [hst]; nofun
  gate := by rw [hst]; nofun
  slot2 := by rw [hst]; nofun
  kBound := hc.kBound
  delay := by rw [hst]; nofun
  dcntFits := hc.dcntFits
  pcntFits := hc.pcntFits
  timeout := iff_of_true he hst
  invalid := by rw [he]; nofun
  fatalRun := fun _ => hrun

theorem inNorRun_excludes {u : Fsm} (h : inNorRun u = true) : inSdEntry u = false ∧ inGate u = false ∧
    u ≠ .sWrSdcr2 ∧ u ≠ .sWrSdtr2 ∧ u ≠ .sDelay ∧ u ≠ .fatal := by
  revert h; cases u <;> decide

theorem inSdRun_excludes {u : Fsm} (h : inSdEntry u = true ∨ inGate u = true) :
    inNorRun u = false ∧ u ≠ .fatal := by
  revert h; cases u <;> decide

/-- A state of a NOR run asks for a valid configuration and a current entry. -/
theorem seqInv_of_norRun (hc : CountersOk t.par t.mem t.k t.dcnt t.pcnt) (he : t.err = .ok)
    (hst : inNorRun t.st = true)
    (hrun : t.ent = .nor ∧ norInvalid t.cfg = false ∧ t.i.toNat < t.cfg.norCount.toNat) : SeqInv t := by
  obtain ⟨hsd, hg, hcr, htr, hd, hf⟩ := inNorRun_excludes hst
  exact
    { cycles := hc.cycles, block := hc.block, nor := fun _ => hrun,
      sdram := by simp [hsd, hg], gate := by simp [hg], slot2 := by simp [hcr, htr],
      kBound := hc.kBound, delay := by simp [hd], dcntFits := hc.dcntFits, pcntFits := hc.pcntFits,
      timeout := by simp [he, hf], invalid := by simp [he], fatalRun := by simp [hf] }

/-- A state of an SDRAM run asks for a valid configuration and a current entry, and more in the gate, in
the writes of the secondary registers and in S_DELAY. -/
theorem seqInv_of_sdRun (hc : CountersOk t.par t.mem t.k t.dcnt t.pcnt) (he : t.err = .ok)
    (hst : inSdEntry t.st = true ∨ inGate t.st = true)
    (hrun : t.ent = .sdram ∧ sdInvalid t.cfg = false ∧ t.i.toNat < t.cfg.sdCount.toNat)
    (hgate : inGate t.st = true → gateEn t.cfg = true)
    (hslot : t.st = .sWrSdcr2 ∨ t.st = .sWrSdtr2 → (sdEntry t).map (·.slot) = some .slot2)
    (hdelay : t.st = .sDelay → 0 < t.dcnt ∧ t.dcnt ≤ delayUs t.k.toNat * t.par.cyclesPerUs) :
    SeqInv t := by
  obtain ⟨hn, hf⟩ := inSdRun_excludes hst
  exact
    { cycles := hc.cycles, block := hc.block, nor := by simp [hn], sdram := fun _ => hrun,
      gate := hgate, slot2 := hslot, kBound := hc.kBound, delay := hdelay, dcntFits := hc.dcntFits,
      pcntFits := hc.pcntFits, timeout := by simp [he, hf], invalid := by simp [he],
      fatalRun := by simp [hf] }

/-! ### Each operation keeps the invariant of the registers -/

/-- `pcnt` = 0 is in range, bounded poll or not (10_state.md R25). -/
theorem zero_lt_max_one (n : Nat) : 0 < max 1 n := Nat.lt_of_lt_of_le Nat.one_pos (le_max_left 1 n)

theorem i_succ_lt {i : BitVec 2} {n : Nat} (h : i.toNat + 1 < n) (hn : n ≤ 4) : (i + 1).toNat < n :=
  (i_succ (by omega)).trans_lt h

theorem SeqInv.resetCycle (hs : SeqInv s) : SeqInv (resetCycle s) := by
  refine seqInv_of_outside ⟨hs.cycles, ?_, Nat.zero_le _, Nat.zero_le _, zero_lt_max_one _⟩ (.inl rfl)
    (.inl rfl)
  rw [resetCycle_mem]
  split
  · rfl
  · exact hs.block

theorem SeqInv.tick (hs : SeqInv s) : SeqInv (tick s) := { hs with }

theorem SeqInv.emit (hs : SeqInv s) (e : TraceElem) : SeqInv (emit e s) := { hs with }

theorem SeqInv.latch (hs : SeqInv s) (v : Word) : SeqInv (latch v s) := { hs with }

theorem SeqInv.performWrite (hs : SeqInv s) (r : Reg) (w : Word) : SeqInv (performWrite r w s) :=
  { hs with block := memWf_performWrite r w hs.block }

theorem SeqInv.succeed (hs : SeqInv s) : SeqInv (succeed s) :=
  seqInv_of_outside hs.counters (.inr (.inr rfl)) (.inl rfl)

theorem SeqInv.raiseEinval (hs : SeqInv s) : SeqInv (raiseEinval s) :=
  seqInv_of_outside hs.counters (.inr (.inr rfl)) (.inr ⟨rfl, rfl⟩)

theorem SeqInv.acceptStart (hs : SeqInv s) (e : Entry) (c : Cfg) : SeqInv (acceptStart e c s) :=
  seqInv_of_outside { hs.counters with kBound := Nat.zero_le _ } (.inr (.inl rfl)) (.inl rfl)

theorem SeqInv.hostStart (hs : SeqInv s) (p : HostPins) : SeqInv (hostStart p s) := by
  rcases hostStart_cases p s with ⟨-, ht⟩ | ⟨-, -, ht⟩ | ⟨-, -, ht⟩ <;> rw [ht]
  · exact hs.acceptStart _ _
  · exact hs.acceptStart _ _
  · exact hs

/-- `err` is OK in every run (R220). -/
theorem SeqInv.norRun_err (hs : SeqInv s) (hst : inNorRun s.st = true) : s.err = .ok :=
  hs.err_ok (fun h => by simp [h, inNorRun] at hst) (fun h => by simp [h, inNorRun] at hst)

theorem SeqInv.sdRun_err (hs : SeqInv s) (hst : inSdEntry s.st = true ∨ inGate s.st = true) :
    s.err = .ok :=
  hs.err_ok (fun h => by simp [h, inSdEntry, inGate] at hst)
    (fun h => by simp [h, inSdEntry, inGate] at hst)

/-- A NOR run goes on with the same entry. -/
theorem SeqInv.gotoNor (hs : SeqInv s) (hst : inNorRun s.st = true) {u : Fsm} (hu : inNorRun u = true) :
    SeqInv (goto u s) :=
  seqInv_of_norRun hs.counters (hs.norRun_err hst) hu (hs.nor hst)

/-- N_NEXT takes the next entry only where there is one (R135). -/
theorem SeqInv.norNext (hs : SeqInv s) (hst : s.st = .nNext) : SeqInv (norNext s) := by
  have hrun : inNorRun s.st = true := by rw [hst]; rfl
  obtain ⟨he, hv, -⟩ := hs.nor hrun
  rcases norNext_cases s with ⟨hlt, ht⟩ | ⟨-, ht⟩ <;> rw [ht]
  · exact seqInv_of_norRun hs.counters (hs.norRun_err hrun) rfl ⟨he, hv, i_succ_lt hlt (norCount_le hv)⟩
  · exact hs.succeed

/-- An SDRAM run goes on with the same entry. -/
theorem SeqInv.gotoSd (hs : SeqInv s) (hst : inSdEntry s.st = true ∨ inGate s.st = true) {u : Fsm}
    (hu : inSdEntry u = true ∨ inGate u = true) (hgate : inGate u = true → gateEn s.cfg = true)
    (hslot : u = .sWrSdcr2 ∨ u = .sWrSdtr2 → (sdEntry s).map (·.slot) = some .slot2)
    (hd : u ≠ .sDelay) : SeqInv (goto u s) :=
  seqInv_of_sdRun hs.counters (hs.sdRun_err hst) hu (hs.sdram hst) hgate hslot fun h => absurd h hd

/-- G_WR_OFF starts with the first entry, and there is one (43_enable_gate.md R212). -/
theorem SeqInv.firstSdEntry (hs : SeqInv s) (hst : inGate s.st = true) :
    SeqInv (goto .sWrSdcr1 (firstEntry s)) := by
  obtain ⟨he, hv, hi⟩ := hs.sdram (.inr hst)
  exact seqInv_of_sdRun hs.counters (hs.sdRun_err (.inr hst)) (.inl rfl)
    ⟨he, hv, Nat.zero_lt_of_lt hi⟩ nofun nofun nofun

theorem SeqInv.startCommands (hs : SeqInv s) (hst : inSdEntry s.st = true) : SeqInv (startCommands s) :=
  seqInv_of_sdRun { hs.counters with kBound := Nat.zero_le _ } (hs.sdRun_err (.inl hst)) (.inl rfl)
    (hs.sdram (.inl hst)) nofun nofun nofun

/-- A command loads a delay of its own, which fits `dcnt` (42_sdram_sequencer.md R178; 60_exceptions.md
R236). -/
theorem SeqInv.afterCommand (hs : SeqInv s) (hst : inSdEntry s.st = true) :
    SeqInv (afterCommand s.k.toNat s) := by
  have herr := hs.sdRun_err (.inl hst)
  have hrun := hs.sdram (.inl hst)
  rcases afterCommand_cases s.k.toNat s with ⟨hpos, ht⟩ | ⟨-, ht⟩ <;> rw [ht]
  · exact seqInv_of_sdRun { hs.counters with dcntFits := Nat.mul_le_mul_right _ (delayUs_le _) } herr
      (.inl rfl) hrun nofun nofun fun _ => ⟨hpos, le_rfl⟩
  · exact seqInv_of_sdRun { hs.counters with dcntFits := Nat.zero_le _ } herr (.inl rfl) hrun
      nofun nofun nofun

/-- One cycle of a delay stays in range (R179). -/
theorem SeqInv.countDown (hs : SeqInv s) (hst : s.st = .sDelay) (hne : dcntLess s ≠ 0) :
    SeqInv { s with dcnt := dcntLess s } := by
  obtain ⟨hpos, hle⟩ := hs.delay hst
  have hfit := hs.dcntFits
  have hless := dcntLess_eq hpos hfit
  exact
    { hs with
      delay := fun _ => ⟨Nat.pos_of_ne_zero hne, by simp only; omega⟩
      dcntFits := by simp only; omega }

theorem SeqInv.endDelay (hs : SeqInv s) (hst : inSdEntry s.st = true) :
    SeqInv (goto .sBarrier { s with dcnt := 0 }) :=
  seqInv_of_sdRun { hs.counters with dcntFits := Nat.zero_le _ } (hs.sdRun_err (.inl hst)) (.inl rfl)
    (hs.sdram (.inl hst)) nofun nofun nofun

theorem SeqInv.startPoll (hs : SeqInv s) (hst : inSdEntry s.st = true) :
    SeqInv (goto .sPoll { s with pcnt := 0 }) :=
  seqInv_of_sdRun { hs.counters with pcntFits := zero_lt_max_one _ } (hs.sdRun_err (.inl hst)) (.inl rfl)
    (hs.sdram (.inl hst)) nofun nofun nofun

/-- An answer in S_POLL ends the poll, counts, or is the last that a bounded poll allows (R181, R224). -/
theorem SeqInv.afterPoll (hs : SeqInv s) (hst : inSdEntry s.st = true) (v : Word) :
    SeqInv (afterPoll v s) := by
  have hc := hs.counters
  have herr := hs.sdRun_err (.inl hst)
  have hrun := hs.sdram (.inl hst)
  rcases afterPoll_cases v s with
    ⟨-, hk, ht⟩ | ⟨-, -, ht⟩ | ⟨-, -, ht⟩ | ⟨-, hp, -, ht⟩ | ⟨-, hp, hne, ht⟩ <;> rw [ht]
  · exact seqInv_of_sdRun { hc with kBound := (k_succ hk).trans_le hk } herr (.inl rfl) hrun
      nofun nofun nofun
  · exact seqInv_of_sdRun hc herr (.inl rfl) hrun nofun nofun nofun
  · exact seqInv_of_sdRun hc herr (.inl rfl) hrun nofun nofun nofun
  · exact seqInv_of_fatal hc rfl rfl ⟨hrun.1, hp⟩
  · have hlt : s.pcnt + 1 < max 1 s.par.pollTimeout := by
      have hfit := hs.pcntFits
      omega
    exact seqInv_of_sdRun { hc with pcntFits := hlt } herr (.inl rfl) hrun nofun nofun nofun

/-- S_NEXT takes the next entry only where there is one, and the gate only on FAM_GATED (R184). -/
theorem SeqInv.sdNext (hs : SeqInv s) (hst : inSdEntry s.st = true) : SeqInv (sdNext s) := by
  have herr := hs.sdRun_err (.inl hst)
  obtain ⟨he, hv, hi⟩ := hs.sdram (.inl hst)
  rcases sdNext_cases s with ⟨hlt, ht⟩ | ⟨-, hg, ht⟩ | ⟨-, -, ht⟩ <;> rw [ht]
  · have hle : s.cfg.sdCount.toNat ≤ 4 := (sdCount_le hv).trans (by decide)
    exact seqInv_of_sdRun hs.counters herr (.inl rfl) ⟨he, hv, i_succ_lt hlt hle⟩ nofun nofun nofun
  · exact seqInv_of_sdRun hs.counters herr (.inr rfl) ⟨he, hv, hi⟩ (fun _ => hg) nofun nofun
  · exact hs.succeed

/-! ### Every step keeps the invariant of the registers -/

/-- A cycle with a transaction reaches one of two states: the acknowledged one, or the one that waits. -/
theorem of_busCycle {P : State → Prop} {b : Bool} {u : State}
    (h : (b = true ∧ t = u) ∨ (b = false ∧ t = replied s)) (hu : P u) (hw : P (replied s)) : P t := by
  rcases h with ⟨-, rfl⟩ | ⟨-, rfl⟩
  · exact hu
  · exact hw

section
variable (hs : SeqInv s) (hr : (pins s).rst = false) (h : step s = .next t)
include hs hr h

/-- VALIDATE lets a run go on with a valid configuration and a first entry alone (R136, R171). -/
theorem seqInv_step_validate (hst : s.st = .validate) : SeqInv t := by
  have herr : s.err = .ok := hs.err_ok (by simp [hst]) (by simp [hst])
  cases he : s.ent with
  | nor =>
    rcases step_validate_nor hr hst he h with ⟨-, rfl⟩ | ⟨-, -, rfl⟩ | ⟨hv, hn, rfl⟩
    · exact hs.tick.raiseEinval
    · exact hs.tick.succeed
    · exact seqInv_of_norRun hs.counters herr rfl ⟨he, hv, hn⟩
  | sdram =>
    rcases step_validate_sdram hr hst he h with ⟨-, rfl⟩ | ⟨-, -, rfl⟩ | ⟨hv, hn, rfl⟩
    · exact hs.tick.raiseEinval
    · exact hs.tick.succeed
    · cases hg : gateEn s.cfg with
      | false => exact seqInv_of_sdRun hs.counters herr (.inl rfl) ⟨he, hv, hn⟩ nofun nofun nofun
      | true => exact seqInv_of_sdRun hs.counters herr (.inr rfl) ⟨he, hv, hn⟩ (fun _ => hg) nofun nofun

theorem seqInv_step_norRun (hst : inNorRun s.st = true) : SeqInv t := by
  have hw (r : Reg) (w : Word) {u : Fsm} (hu : inNorRun u = true) :
      SeqInv (goto u (performWrite r w (replied s))) := (hs.replied.performWrite r w).gotoNor hst hu
  cases hst' : s.st <;> simp only [hst'] at hst
  case nRdBcr =>
    exact of_busCycle (step_nRdBcr hr hst' h)
      (((hs.replied.emit _).latch _).gotoNor (by simp [hst', inNorRun]) rfl) hs.replied
  case nWrBcr => exact of_busCycle (step_nWrBcr hr hst' h) (hw _ _ rfl) hs.replied
  case nWrBtr => exact of_busCycle (step_nWrBtr hr hst' h) (hw _ _ rfl) hs.replied
  case nWrBwtr => exact of_busCycle (step_nWrBwtr hr hst' h) (hw _ _ rfl) hs.replied
  case nWrBcrEn => exact of_busCycle (step_nWrBcrEn hr hst' h) (hw _ _ rfl) hs.replied
  case nNext =>
    rw [step_nNext hr hst' h]
    exact hs.tick.norNext hst'
  all_goals cases hst

theorem seqInv_step_gate (hst : inGate s.st = true) : SeqInv t := by
  have hg := hs.gate hst
  cases hst' : s.st <;> simp only [hst'] at hst
  case gRdOff =>
    exact of_busCycle (step_gRdOff hr hst' h) (((hs.replied.emit _).latch _).gotoSd
      (by simp [hst', inGate]) (.inr rfl) (fun _ => hg) nofun nofun) hs.replied
  case gWrOff =>
    exact of_busCycle (step_gWrOff hr hst' h)
      ((hs.replied.performWrite _ _).firstSdEntry (by simp [hst', inGate])) hs.replied
  case gRdOn =>
    exact of_busCycle (step_gRdOn hr hst' h) (((hs.replied.emit _).latch _).gotoSd
      (by simp [hst', inGate]) (.inr rfl) (fun _ => hg) nofun nofun) hs.replied
  case gWrOn =>
    exact of_busCycle (step_gWrOn hr hst' h) (hs.replied.performWrite _ _).succeed hs.replied
  all_goals cases hst

theorem seqInv_step_sdEntry (hst : inSdEntry s.st = true) : SeqInv t := by
  have hrun : inSdEntry (tick s).st = true := hst
  have hp (r : Reg) (w : Word) : SeqInv (performWrite r w (replied s)) := hs.replied.performWrite r w
  have hw (r : Reg) (w : Word) {u : Fsm} (hu : inSdEntry u = true) (hg : inGate u = false)
      (hsl : u = .sWrSdcr2 ∨ u = .sWrSdtr2 → (sdEntry s).map (·.slot) = some .slot2)
      (hd : u ≠ .sDelay) : SeqInv (goto u (performWrite r w (replied s))) :=
    (hp r w).gotoSd (.inl hst) (.inl hu) (by simp [hg]) hsl hd
  cases hst' : s.st <;> simp only [hst'] at hst
  case sWrSdcr1 =>
    obtain ⟨e, he, hcyc⟩ := step_sWrSdcr1 hr hst' h
    refine of_busCycle hcyc ?_ hs.replied
    cases hsl : e.slot with
    | slot1 => exact hw _ _ rfl rfl nofun nofun
    | slot2 => exact hw _ _ rfl rfl (by simp [he, hsl]) nofun
  case sWrSdcr2 =>
    obtain ⟨e, -, hcyc⟩ := step_sWrSdcr2 hr hst' h
    exact of_busCycle hcyc (hw _ _ rfl rfl nofun nofun) hs.replied
  case sWrSdtr1 =>
    obtain ⟨e, he, hcyc⟩ := step_sWrSdtr1 hr hst' h
    refine of_busCycle hcyc ?_ hs.replied
    cases hsl : e.slot with
    | slot1 => exact (hp _ _).startCommands hrun
    | slot2 => exact hw _ _ rfl rfl (by simp [he, hsl]) nofun
  case sWrSdtr2 =>
    obtain ⟨e, -, hcyc⟩ := step_sWrSdtr2 hr hst' h
    exact of_busCycle hcyc ((hp _ _).startCommands hrun) hs.replied
  case sWrCmd =>
    obtain ⟨e, -, hcyc⟩ := step_sWrCmd hr hst' h
    exact of_busCycle hcyc ((hp _ _).afterCommand hrun) hs.replied
  case sDelay =>
    rcases (step_sDelay hr hst' h).2 with ⟨-, rfl⟩ | ⟨hne, rfl⟩
    · exact (hs.tick.endDelay hrun).emit _
    · exact hs.tick.countDown hst' hne
  case sBarrier =>
    rw [step_sBarrier hr hst' h]
    exact (hs.tick.startPoll hrun).emit _
  case sPoll =>
    exact of_busCycle (step_sPoll hr hst' h) ((hs.replied.emit _).afterPoll hrun _) hs.replied
  case sWrSdrtr =>
    obtain ⟨e, -, hcyc⟩ := step_sWrSdrtr hr hst' h
    exact of_busCycle hcyc (hw _ _ rfl rfl nofun nofun) hs.replied
  case sNext =>
    rw [step_sNext hr hst' h]
    exact hs.tick.sdNext hrun
  all_goals cases hst

end
end

/-- Settles O47, by the part of the FSM the step starts in. -/
theorem registerInvariantKept : Obligations.RegisterInvariantKept := by
  intro s t hs h
  cases hr : (pins s).rst with
  | true =>
    cases (step_rst hr).symm.trans h
    exact hs.resetCycle
  | false =>
    cases hst : s.st with
    | idle | done =>
      cases (step_awaiting hr (by simp [hst])).symm.trans h
      exact hs.tick.hostStart _
    | validate => exact seqInv_step_validate hs hr h hst
    | nRdBcr | nWrBcr | nWrBtr | nWrBwtr | nWrBcrEn | nNext =>
      exact seqInv_step_norRun hs hr h (by rw [hst]; rfl)
    | gRdOff | gWrOff | gRdOn | gWrOn => exact seqInv_step_gate hs hr h (by rw [hst]; rfl)
    | sWrSdcr1 | sWrSdcr2 | sWrSdtr1 | sWrSdtr2 | sWrCmd | sDelay | sBarrier | sPoll | sWrSdrtr | sNext =>
      exact seqInv_step_sdEntry hs hr h (by rw [hst]; rfl)
    | fatal =>
      rw [step_fatal hr hst h]
      exact hs.tick

end Sys2Proof.Machine


namespace Sys2Proof.Machine

/-! ### The flow of a NOR run, operation by operation -/

theorem norUsed_take_succ {c : Cfg} {j : BitVec 2} (h : j.toNat < c.norCount.toNat) :
    (norUsed c).take (j.toNat + 1) = (norUsed c).take j.toNat ++ [norAt c j] := by
  rw [List.take_add_one, norAt_used h]; rfl

section
variable {s t : State}

theorem traceFollowsFlow_norRun (hst : inNorRun s.st = true) : TraceFollowsFlow s ↔ NorFollows s := by
  unfold TraceFollowsFlow
  cases hu : s.st
  case nRdBcr | nWrBcr | nWrBtr | nWrBwtr | nWrBcrEn | nNext => exact Iff.rfl
  all_goals rw [hu] at hst; cases hst

theorem traceFollowsFlow_sdEntry (hst : inSdEntry s.st = true ∨ s.st = .fatal) :
    TraceFollowsFlow s ↔ SdFollows s := by
  unfold TraceFollowsFlow
  cases hu : s.st
  case sWrSdcr1 | sWrSdcr2 | sWrSdtr1 | sWrSdtr2 | sWrCmd | sDelay | sBarrier | sPoll | sWrSdrtr |
    sNext | fatal => exact Iff.rfl
  all_goals simp [hu, inSdEntry] at hst

theorem traceFollowsFlow_done (hst : s.st = .done) : TraceFollowsFlow s ↔ DoneTrace s := by
  simp only [TraceFollowsFlow, hst]

theorem TraceFollowsFlow.tick (hf : TraceFollowsFlow s) : TraceFollowsFlow (tick s) := hf

theorem TraceFollowsFlow.replied (hf : TraceFollowsFlow s) : TraceFollowsFlow (replied s) := hf

/-- One more of the five elements of the current entry (40_norsram_configurator.md R127). The first of
them is the read, before which the flow does not depend on `rmw`. -/
theorem NorFollows.next (hf : NorFollows s) {x : TraceElem} (hc : t.cfg = s.cfg) (hi : t.i = s.i)
    (hm : norProgress s.st = 0 ∨ t.rmw = s.rmw) (ht : t.trace = s.trace ++ [x])
    (hn : norProgress t.st = norProgress s.st + 1)
    (hx : (norEntryFlow s.cfg (norEntry s) t.rmw)[norProgress s.st]? = some x) : NorFollows t := by
  obtain ⟨vs, hl, htr⟩ := hf
  have he : norEntry t = norEntry s := by rw [norEntry, hc, hi]; rfl
  have htake : (norEntryFlow s.cfg (norEntry s) s.rmw).take (norProgress s.st) =
      (norEntryFlow s.cfg (norEntry s) t.rmw).take (norProgress s.st) := by
    rcases hm with h0 | hm
    · rw [h0]; rfl
    · rw [hm]
  refine ⟨vs, by rw [hl, hi], ?_⟩
  rw [ht, htr, hc, hi, he, hn, List.take_add_one, hx, htake, List.append_assoc]
  rfl

theorem NorFollows.write (hf : NorFollows s) {r : Reg} {w : Word} {u : Fsm}
    (hn : norProgress u = norProgress s.st + 1)
    (hx : (norEntryFlow s.cfg (norEntry s) s.rmw)[norProgress s.st]? = some (wrElem s.cfg r w)) :
    NorFollows (goto u (performWrite r w (Machine.replied s))) :=
  hf.next rfl rfl (.inr rfl) rfl hn hx

/-- In N_NEXT the flow of the current entry is whole. -/
theorem NorFollows.entryDone (hf : NorFollows s) (hst : s.st = .nNext)
    (hv : norInvalid s.cfg = false) (hi : s.i.toNat < s.cfg.norCount.toNat) :
    ∃ vs, vs.length = s.i.toNat + 1 ∧
      s.trace = norFlow s.cfg ((norUsed s.cfg).take (s.i.toNat + 1)) vs := by
  obtain ⟨vs, hl, htr⟩ := hf
  have hlen : vs.length = ((norUsed s.cfg).take s.i.toNat).length := by
    rw [List.length_take, norUsed_length hv]; omega
  refine ⟨vs ++ [s.rmw], by simp [hl], ?_⟩
  rw [norUsed_take_succ hi, norFlow_snoc _ _ _ _ _ hlen, htr, hst]
  rfl

/-- The trace of a NOR run before its first element. -/
theorem norFollows_first (hst : t.st = .nRdBcr) (hi : t.i = 0) (ht : t.trace = []) : NorFollows t :=
  ⟨[], by rw [hi]; rfl, by rw [ht, hi, hst]; rfl⟩

theorem doneTrace_nor (he : t.err = .ok) (hn : t.ent = .nor) (hv : norInvalid t.cfg = false)
    (hc : NorComplete t) : DoneTrace t := by
  simp only [DoneTrace, he, hn]
  exact ⟨hv, hc⟩

theorem doneTrace_einval (he : t.err = .einval) (ht : t.trace = []) : DoneTrace t := by
  simp only [DoneTrace, he]
  exact ht

/-- N_NEXT goes on with the next entry or ends the flow (R135). -/
theorem NorFollows.norNext (hs : SeqInv s) (hf : NorFollows s) (hst : s.st = .nNext) :
    TraceFollowsFlow (norNext s) := by
  obtain ⟨he, hv, hi⟩ := hs.nor (by rw [hst]; rfl)
  obtain ⟨vs, hl, htr⟩ := hf.entryDone hst hv hi
  rcases norNext_cases s with ⟨hlt, ht⟩ | ⟨hle, ht⟩ <;> rw [ht]
  · have hsucc : (s.i + 1).toNat = s.i.toNat + 1 := i_succ (by have := norCount_le hv; omega)
    refine (traceFollowsFlow_norRun rfl).2 ⟨vs, hl.trans hsucc.symm, ?_⟩
    simp only [goto_trace, goto_cfg, goto_i, goto_st, hsucc, htr, norProgress, List.take_zero,
      List.append_nil]
  · refine (traceFollowsFlow_done rfl).2 (doneTrace_nor rfl he hv ⟨vs, by rw [hl, succeed_cfg]; omega, ?_⟩)
    rw [succeed_trace, succeed_cfg, htr, List.take_of_length_le (by rw [norUsed_length hv]; exact hle)]

/-! ### The flow of an SDRAM run, operation by operation -/

theorem sdUsed_take_succ {c : Cfg} {j : BitVec 2} {e : SdEntry} (hv : sdInvalid c = false)
    (h : j.toNat < c.sdCount.toNat) (he : sdAt c j = some e) :
    (sdUsed c).take (j.toNat + 1) = (sdUsed c).take j.toNat ++ [e] := by
  obtain ⟨e', he', hu⟩ := sdAt_used hv h
  cases he.symm.trans he'
  rw [List.take_add_one, hu]; rfl

/-- The elements `es` join the part of the trace that belongs to the current entry. -/
theorem SdFollows.extend (hf : SdFollows s) {es : List TraceElem} (hc : t.cfg = s.cfg) (hi : t.i = s.i)
    (ht : t.trace = s.trace ++ es) (hst : inSdEntry t.st = true ∨ t.st = .fatal)
    (hp : ∀ e tr, sdEntry s = some e → SdPartial s e tr → SdPartial t e (tr ++ es)) :
    TraceFollowsFlow t := by
  obtain ⟨o, b, tr, e, ho, hb, he, htr, hs⟩ := hf
  refine (traceFollowsFlow_sdEntry hst).2
    ⟨o, b, tr ++ es, e, by rwa [hc], by rwa [hc, hi], ?_, hp e tr he htr, ?_⟩
  · rw [sdEntry, hc, hi]; exact he
  · rw [ht, hs, List.append_assoc (o ++ b)]

/-- The same, where the current entry is known. -/
theorem SdFollows.extendEntry (hf : SdFollows s) {e : SdEntry} (he : sdEntry s = some e)
    {es : List TraceElem} (hc : t.cfg = s.cfg) (hi : t.i = s.i) (ht : t.trace = s.trace ++ es)
    (hst : inSdEntry t.st = true) (hp : ∀ tr, SdPartial s e tr → SdPartial t e (tr ++ es)) :
    TraceFollowsFlow t :=
  hf.extend hc hi ht (.inl hst) fun _ tr he' htr => by
    cases he.symm.trans he'
    exact hp tr htr

/-- The trace of an SDRAM run before its first entry. -/
theorem sdFollows_first (hst : t.st = .sWrSdcr1) (hi : t.i = 0) (hv : sdInvalid t.cfg = false)
    (hn : 0 < t.cfg.sdCount.toNat) (ho : Opening t.cfg t.trace) : SdFollows t := by
  obtain ⟨e, he, -⟩ := sdAt_used (j := 0) hv hn
  refine ⟨t.trace, [], [], e, ho, ?_, by rw [sdEntry, hi]; exact he, ?_, by simp⟩
  · rw [hi]; exact .nil
  · simp [SdPartial, hst]

theorem opening_plain {c : Cfg} (hg : gateEn c = false) : Opening c [] := by simp [Opening, hg]

theorem opening_gated {c : Cfg} (hg : gateEn c = true) (v : Word) :
    Opening c [rdElem c (.bcr 0) v, wrElem c (.bcr 0) (v &&& 0x7FFFFFFF)] := by
  rw [Opening, if_pos hg]
  exact ⟨v, rfl⟩

theorem closing_plain {c : Cfg} (hg : gateEn c = false) : Closing c [] := by simp [Closing, hg]

theorem closing_gated {c : Cfg} (hg : gateEn c = true) (v : Word) :
    Closing c [rdElem c (.bcr 0) v, wrElem c (.bcr 0) (v ||| 0x80000000)] := by
  rw [Closing, if_pos hg]
  exact ⟨v, rfl⟩

/-- An acknowledged write of the current entry, after which the FSM goes on in state `u`. -/
theorem SdFollows.write (hf : SdFollows s) {e : SdEntry} (he : sdEntry s = some e) {r : Reg} {w : Word}
    {u : Fsm} (hu : inSdEntry u = true) (hp : ∀ tr, SdPartial s e tr →
      SdPartial (goto u (performWrite r w (Machine.replied s))) e (tr ++ [wrElem s.cfg r w])) :
    TraceFollowsFlow (goto u (performWrite r w (Machine.replied s))) :=
  hf.extendEntry he rfl rfl rfl hu hp

/-- The write that completes the configuration of the entry, after which the commands begin (R176, R177). -/
theorem SdFollows.startCommands (hf : SdFollows s) {e : SdEntry} (he : sdEntry s = some e) {r : Reg}
    {w : Word} (hp : ∀ tr, SdPartial s e tr → tr ++ [wrElem s.cfg r w] = configFlow s.cfg e) :
    TraceFollowsFlow (startCommands (performWrite r w (Machine.replied s))) :=
  hf.extendEntry he rfl rfl rfl rfl fun tr htr =>
    ⟨[], rfl, nofun, (hp tr htr).trans (List.append_nil _).symm⟩

/-- The write of command `k`, which its delay follows, or its barrier where it has none (R178). -/
theorem SdFollows.afterCommand (hs : SeqInv s) (hf : SdFollows s) (hst : s.st = .sWrCmd) {e : SdEntry}
    (he : sdEntry s = some e) : TraceFollowsFlow (afterCommand s.k.toNat
      (performWrite .sdcmr (cmdWord s.k.toNat e.slot e.ctrl.casLatency) (Machine.replied s))) := by
  have hcmd (tr : List TraceElem) (htr : SdPartial s e tr) : ∃ ps : List Poll, ps.length = s.k.toNat ∧
      (∀ p ∈ ps, p.Ok) ∧ tr = configFlow s.cfg e ++ stepsFrom s.cfg e 0 ps := by
    simpa only [SdPartial, hst] using htr
  rcases afterCommand_cases s.k.toNat
    (performWrite .sdcmr (cmdWord s.k.toNat e.slot e.ctrl.casLatency) (Machine.replied s)) with
    ⟨-, ht⟩ | ⟨h0, ht⟩ <;> rw [ht]
  · refine hf.extendEntry he rfl rfl rfl rfl fun tr htr => ?_
    obtain ⟨ps, hl, hok, rfl⟩ := hcmd tr htr
    exact ⟨ps, hl, hok, rfl⟩
  · have hd : delayUs s.k.toNat = 0 := (Nat.mul_eq_zero.1 h0).resolve_right hs.cycles.ne'
    refine hf.extendEntry he rfl rfl rfl rfl fun tr htr => ?_
    obtain ⟨ps, hl, hok, rfl⟩ := hcmd tr htr
    exact ⟨ps, hl, hok, by simp [commandFlow, hd, wrElem]⟩

theorem pollReads_snoc (c : Cfg) (vs : List Word) (v : Word) :
    pollReads c (vs ++ [v]) = pollReads c vs ++ [rdElem c .sdsr v] := by simp [pollReads]

/-- The answer with BUSY = 0 completes the poll of command `k` (42_sdram_sequencer.md R181). -/
theorem SdPartial.pollDone {e : SdEntry} {tr : List TraceElem} {v : Word} (hp : SdPartial s e tr)
    (hst : s.st = .sPoll) (hv : busyBit v = false) :
    ∃ ps : List Poll, ps.length = s.k.toNat + 1 ∧ (∀ p ∈ ps, p.Ok) ∧
      tr ++ [rdElem s.cfg .sdsr v] = configFlow s.cfg e ++ stepsFrom s.cfg e 0 ps := by
  simp only [SdPartial, hst] at hp
  obtain ⟨ps, vs, hl, hok, hbusy, -, rfl⟩ := hp
  have hlast : Poll.Ok { busyAnswers := vs, last := v } := ⟨hbusy, hv⟩
  refine ⟨ps ++ [{ busyAnswers := vs, last := v }], by simp [hl], ?_, ?_⟩
  · intro p hp
    rcases List.mem_append.1 hp with hp | hp
    · exact hok p hp
    · rwa [List.mem_singleton.1 hp]
  · rw [stepsFrom_snoc, hl, Nat.zero_add, stepFlow, pollReads_snoc]
    simp

/-- An answer with BUSY = 1 is one more of the poll's (R181). -/
theorem SdPartial.pollBusy {e : SdEntry} {tr : List TraceElem} {v : Word} (hp : SdPartial s e tr)
    (hst : s.st = .sPoll) (hv : busyBit v = true) :
    ∃ (ps : List Poll) (vs : List Word), ps.length = s.k.toNat ∧ (∀ p ∈ ps, p.Ok) ∧
      vs.all busyBit = true ∧ (0 < s.par.pollTimeout → vs.length = s.pcnt + 1) ∧
      tr ++ [rdElem s.cfg .sdsr v] = configFlow s.cfg e ++ stepsFrom s.cfg e 0 ps ++
        commandFlow s.cfg e s.k.toNat ++ .barrier :: pollReads s.cfg vs := by
  simp only [SdPartial, hst] at hp
  obtain ⟨ps, vs, hl, hok, hbusy, hlen, rfl⟩ := hp
  refine ⟨ps, vs ++ [v], hl, hok, by simp [hbusy, hv], fun h => by simp [hlen h], ?_⟩
  rw [pollReads_snoc]
  simp

/-- What an answer in S_POLL does to the flow (R181, R182, R224). -/
theorem SdFollows.afterPoll (hs : SeqInv s) (hf : SdFollows s) (hst : s.st = .sPoll) (v : Word) :
    TraceFollowsFlow (afterPoll v (emit (rdElem s.cfg .sdsr v) (Machine.replied s))) := by
  rcases afterPoll_cases v (emit (rdElem s.cfg .sdsr v) (Machine.replied s)) with
    ⟨hb, hk, ht⟩ | ⟨hb, hk, ht⟩ | ⟨hb, hp, ht⟩ | ⟨hb, hp, heq, ht⟩ | ⟨hb, hp, -, ht⟩ <;> rw [ht]
  · have hsucc : (s.k + 1).toNat = s.k.toNat + 1 := k_succ hk
    refine hf.extend rfl rfl rfl (.inl rfl) fun e tr _ htr => ?_
    obtain ⟨ps, hl, hok, hps⟩ := htr.pollDone hst hb
    exact ⟨ps, hl.trans hsucc.symm, hok, hps⟩
  · have hfour : s.k.toNat = 4 := Nat.le_antisymm hs.kBound hk
    refine hf.extend rfl rfl rfl (.inl rfl) fun e tr _ htr => ?_
    obtain ⟨ps, hl, hok, hps⟩ := htr.pollDone hst hb
    exact ⟨ps, ⟨by rw [hl, hfour], hok⟩, hps⟩
  · refine hf.extend rfl rfl rfl (.inl rfl) fun e tr _ htr => ?_
    obtain ⟨ps, vs, hl, hok, hbusy, -, hps⟩ := htr.pollBusy hst hb
    exact ⟨ps, vs, hl, hok, hbusy, fun h => absurd hp h.ne', hps⟩
  · refine hf.extend rfl rfl rfl (.inr rfl) fun e tr _ htr => ?_
    obtain ⟨ps, vs, hl, hok, hbusy, hlen, hps⟩ := htr.pollBusy hst hb
    exact ⟨ps, vs, hl, hok, hbusy, (hlen hp).trans heq, hps⟩
  · refine hf.extend rfl rfl rfl (.inl rfl) fun e tr _ htr => ?_
    obtain ⟨ps, vs, hl, hok, hbusy, hlen, hps⟩ := htr.pollBusy hst hb
    exact ⟨ps, vs, hl, hok, hbusy, hlen, hps⟩

/-- In S_NEXT the flow of the current entry is whole. -/
theorem SdFollows.entryDone (hf : SdFollows s) (hst : s.st = .sNext) (hv : sdInvalid s.cfg = false)
    (hi : s.i.toNat < s.cfg.sdCount.toNat) :
    ∃ o b, Opening s.cfg o ∧ SdFlow s.cfg ((sdUsed s.cfg).take (s.i.toNat + 1)) b ∧
      s.trace = o ++ b := by
  obtain ⟨o, b, tr, e, ho, hb, he, htr, hs⟩ := hf
  simp only [SdPartial, hst] at htr
  obtain ⟨ps, hps, rfl⟩ := htr
  refine ⟨o, b ++ sdEntryFlow s.cfg e ps, ho, ?_, by rw [hs, List.append_assoc]⟩
  rw [sdUsed_take_succ hv hi he]
  exact .snoc _ _ _ _ hb hps

theorem doneTrace_sdram (he : t.err = .ok) (hn : t.ent = .sdram) (hv : sdInvalid t.cfg = false)
    (hz : t.cfg.sdCount = 0 → t.trace = []) (hc : t.cfg.sdCount ≠ 0 → SdComplete t) : DoneTrace t := by
  simp only [DoneTrace, he, hn]
  exact ⟨hv, hz, hc⟩

theorem count_ne_zero {n : Nat} {i j : BitVec n} (h : i.toNat < j.toNat) : j ≠ 0 := by
  rintro rfl
  simp at h

/-- S_NEXT goes on with the next entry, with the gate's end, or ends the flow (R184). -/
theorem SdFollows.sdNext (hs : SeqInv s) (hf : SdFollows s) (hst : s.st = .sNext) :
    TraceFollowsFlow (sdNext s) := by
  obtain ⟨he, hv, hi⟩ := hs.sdram (.inl (by rw [hst]; rfl))
  obtain ⟨o, b, ho, hb, htr⟩ := hf.entryDone hst hv hi
  have hall (hle : s.cfg.sdCount.toNat ≤ s.i.toNat + 1) : SdFlow s.cfg (sdUsed s.cfg) b := by
    rwa [List.take_of_length_le (by rw [sdUsed_length hv]; exact hle)] at hb
  rcases sdNext_cases s with ⟨hlt, ht⟩ | ⟨hle, hg, ht⟩ | ⟨hle, hg, ht⟩ <;> rw [ht]
  · have hsucc : (s.i + 1).toNat = s.i.toNat + 1 := i_succ (by have := sdCount_le hv; omega)
    obtain ⟨e, hnext, -⟩ := sdAt_used (j := s.i + 1) hv (hsucc.trans_lt hlt)
    refine (traceFollowsFlow_sdEntry (.inl rfl)).2 ⟨o, b, [], e, ho, ?_, hnext, rfl, by simpa using htr⟩
    simpa only [goto_i, goto_cfg, hsucc] using hb
  · exact ⟨o, b, ho, hall hle, by simpa using htr⟩
  · refine (traceFollowsFlow_done rfl).2 (doneTrace_sdram rfl he hv
      (fun h0 => absurd h0 (count_ne_zero hi)) fun _ =>
        ⟨o, b, [], ho, hall hle, closing_plain hg, by simpa using htr⟩)

/-! ### Every step keeps the flow -/

section
variable (hs : SeqInv s) (hf : TraceFollowsFlow s) (hr : (pins s).rst = false) (h : step s = .next t)
include hf hr h

theorem traceFlow_step_awaiting (hst : s.st = .idle ∨ s.st = .done) : TraceFollowsFlow t := by
  cases (step_awaiting hr hst).symm.trans h
  rcases hostStart_cases (pins s) (tick s) with ⟨-, ht⟩ | ⟨-, -, ht⟩ | ⟨-, -, ht⟩ <;> rw [ht]
  · rfl
  · rfl
  · exact hf.tick

/-- VALIDATE leaves an empty trace, which is the whole flow where the run ends there (R138, R173, R223). -/
theorem traceFlow_step_validate (hst : s.st = .validate) : TraceFollowsFlow t := by
  have h0 : s.trace = [] := by simpa only [TraceFollowsFlow, hst] using hf
  cases he : s.ent with
  | nor =>
    rcases step_validate_nor hr hst he h with ⟨-, rfl⟩ | ⟨hv, hn, rfl⟩ | ⟨-, -, rfl⟩
    · exact (traceFollowsFlow_done rfl).2 (doneTrace_einval rfl h0)
    · refine (traceFollowsFlow_done rfl).2 (doneTrace_nor rfl he hv ⟨[], ?_, ?_⟩)
      · simp [hn]
      · simp [h0, norFlow]
    · exact (traceFollowsFlow_norRun rfl).2 (norFollows_first rfl rfl h0)
  | sdram =>
    rcases step_validate_sdram hr hst he h with ⟨-, rfl⟩ | ⟨hv, hn, rfl⟩ | ⟨hv, hn, rfl⟩
    · exact (traceFollowsFlow_done rfl).2 (doneTrace_einval rfl h0)
    · exact (traceFollowsFlow_done rfl).2
        (doneTrace_sdram rfl he hv (fun _ => h0) fun hne => absurd hn hne)
    · cases hg : gateEn s.cfg with
      | false =>
        have ho : Opening s.cfg s.trace := by rw [h0]; exact opening_plain hg
        exact (traceFollowsFlow_sdEntry (.inl rfl)).2 (sdFollows_first rfl rfl hv hn ho)
      | true => exact h0

include hs

theorem traceFlow_step_norRun (hst : inNorRun s.st = true) : TraceFollowsFlow t := by
  have hn : NorFollows s := (traceFollowsFlow_norRun hst).1 hf
  have hw := hf.replied
  cases hst' : s.st <;> simp only [hst'] at hst
  case nRdBcr =>
    exact of_busCycle (step_nRdBcr hr hst' h) ((traceFollowsFlow_norRun rfl).2
      (hn.next rfl rfl (.inl (by rw [hst']; rfl)) rfl (by rw [hst']; rfl) (by rw [hst']; rfl))) hw
  case nWrBcr =>
    exact of_busCycle (step_nWrBcr hr hst' h) ((traceFollowsFlow_norRun rfl).2
      (hn.write (by rw [hst']; rfl) (by rw [hst']; rfl))) hw
  case nWrBtr =>
    exact of_busCycle (step_nWrBtr hr hst' h) ((traceFollowsFlow_norRun rfl).2
      (hn.write (by rw [hst']; rfl) (by rw [hst']; rfl))) hw
  case nWrBwtr =>
    exact of_busCycle (step_nWrBwtr hr hst' h) ((traceFollowsFlow_norRun rfl).2
      (hn.write (by rw [hst']; rfl) (by rw [hst']; rfl))) hw
  case nWrBcrEn =>
    exact of_busCycle (step_nWrBcrEn hr hst' h) ((traceFollowsFlow_norRun rfl).2
      (hn.write (by rw [hst']; rfl) (by rw [hst']; rfl))) hw
  case nNext =>
    rw [step_nNext hr hst' h]
    exact NorFollows.norNext hs.tick hn hst'
  all_goals cases hst

theorem traceFlow_step_gate (hst : inGate s.st = true) : TraceFollowsFlow t := by
  have hg : gateEn s.cfg = true := hs.gate hst
  obtain ⟨he, hv, hi⟩ := hs.sdram (.inr hst)
  have hw := hf.replied
  cases hst' : s.st <;> simp only [hst'] at hst
  case gRdOff =>
    have h0 : s.trace = [] := by simpa only [TraceFollowsFlow, hst'] using hf
    refine of_busCycle (step_gRdOff hr hst' h) ?_ hw
    simp [TraceFollowsFlow, h0, rdElem]
  case gWrOff =>
    have h1 : s.trace = [rdElem s.cfg (.bcr 0) s.rmw] := by
      simpa only [TraceFollowsFlow, hst'] using hf
    refine of_busCycle (step_gWrOff hr hst' h) ((traceFollowsFlow_sdEntry (.inl rfl)).2
      (sdFollows_first rfl rfl hv (Nat.zero_lt_of_lt hi) ?_)) hw
    simpa [h1, wrElem, kept, zext_kept] using opening_gated hg s.rmw
  case gRdOn =>
    obtain ⟨o, b, ho, hb, htr⟩ : ClosingFollows s := by simpa only [TraceFollowsFlow, hst'] using hf
    have htr' : s.trace = o ++ b := by simpa [hst'] using htr
    exact of_busCycle (step_gRdOn hr hst' h) ⟨o, b, ho, hb, by simp [htr', rdElem]⟩ hw
  case gWrOn =>
    obtain ⟨o, b, ho, hb, htr⟩ : ClosingFollows s := by simpa only [TraceFollowsFlow, hst'] using hf
    have hend : SdComplete (succeed (performWrite (.bcr 0) (zext (kept s) ||| fmcen) (replied s))) :=
      ⟨o, b, _, ho, hb, closing_gated hg s.rmw, by simp [htr, hst', wrElem, kept, zext_kept_fmcen]⟩
    exact of_busCycle (step_gWrOn hr hst' h) ((traceFollowsFlow_done rfl).2 (doneTrace_sdram rfl he hv
      (fun h0 => absurd h0 (count_ne_zero hi)) fun _ => hend)) hw
  all_goals cases hst

/-- Steps 1 and 2 of an entry (R174 to R177). -/
theorem traceFlow_step_config
    (hst : s.st = .sWrSdcr1 ∨ s.st = .sWrSdcr2 ∨ s.st = .sWrSdtr1 ∨ s.st = .sWrSdtr2) :
    TraceFollowsFlow t := by
  have hw := hf.replied
  have hsd : SdFollows s :=
    (traceFollowsFlow_sdEntry (by rcases hst with h | h | h | h <;> simp [h, inSdEntry])).1 hf
  rcases hst with hst | hst | hst | hst
  · obtain ⟨e, he, hcyc⟩ := step_sWrSdcr1 hr hst h
    refine of_busCycle hcyc ?_ hw
    cases hsl : e.slot with
    | slot1 =>
      refine hsd.write he rfl fun tr htr => ?_
      simp only [SdPartial, hst] at htr
      simp [SdPartial, htr, configFlow, hsl]
    | slot2 =>
      refine hsd.write he rfl fun tr htr => ?_
      simp only [SdPartial, hst] at htr
      simp [SdPartial, htr, configFlow, hsl]
  · obtain ⟨e, he, hcyc⟩ := step_sWrSdcr2 hr hst h
    refine of_busCycle hcyc (hsd.write he rfl fun tr htr => ?_) hw
    have hsl : e.slot = .slot2 := by simpa [he] using hs.slot2 (.inl hst)
    simp only [SdPartial, hst] at htr
    simp [SdPartial, htr, configFlow, hsl]
  · obtain ⟨e, he, hcyc⟩ := step_sWrSdtr1 hr hst h
    refine of_busCycle hcyc ?_ hw
    cases hsl : e.slot with
    | slot1 =>
      refine hsd.startCommands he fun tr htr => ?_
      simp only [SdPartial, hst] at htr
      simp [htr, configFlow, hsl]
    | slot2 =>
      refine hsd.write he rfl fun tr htr => ?_
      simp only [SdPartial, hst] at htr
      simp [SdPartial, htr, configFlow, hsl]
  · obtain ⟨e, he, hcyc⟩ := step_sWrSdtr2 hr hst h
    refine of_busCycle hcyc (hsd.startCommands he fun tr htr => ?_) hw
    have hsl : e.slot = .slot2 := by simpa [he] using hs.slot2 (.inr hst)
    simp only [SdPartial, hst] at htr
    simp [htr, configFlow, hsl]

/-- A command, its delay, its barrier and its poll, the refresh timer and S_NEXT (R178 to R184). -/
theorem traceFlow_step_command (hst : s.st = .sWrCmd ∨ s.st = .sDelay ∨ s.st = .sBarrier ∨
    s.st = .sPoll ∨ s.st = .sWrSdrtr ∨ s.st = .sNext) : TraceFollowsFlow t := by
  have hw := hf.replied
  have hsd : SdFollows s := (traceFollowsFlow_sdEntry
    (by rcases hst with h | h | h | h | h | h <;> simp [h, inSdEntry])).1 hf
  rcases hst with hst | hst | hst | hst | hst | hst
  · obtain ⟨e, he, hcyc⟩ := step_sWrCmd hr hst h
    exact of_busCycle hcyc (hsd.afterCommand hs hst he) hw
  · obtain ⟨hk, ⟨-, rfl⟩ | ⟨-, rfl⟩⟩ := step_sDelay hr hst h
    · have hd : delayUs s.k.toNat ≠ 0 := (delayUs_pos.2 hk).ne'
      refine hsd.extend rfl rfl rfl (.inl rfl) fun e tr _ htr => ?_
      simp only [SdPartial, hst] at htr
      obtain ⟨ps, hl, hok, rfl⟩ := htr
      exact ⟨ps, hl, hok, by simp [commandFlow, hd]⟩
    · exact hf
  · rw [step_sBarrier hr hst h]
    refine hsd.extend rfl rfl rfl (.inl rfl) fun e tr _ htr => ?_
    simp only [SdPartial, hst] at htr
    obtain ⟨ps, hl, hok, rfl⟩ := htr
    exact ⟨ps, [], hl, hok, rfl, fun _ => rfl, rfl⟩
  · exact of_busCycle (step_sPoll hr hst h) (hsd.afterPoll hs hst _) hw
  · obtain ⟨e, he, hcyc⟩ := step_sWrSdrtr hr hst h
    refine of_busCycle hcyc (hsd.write he rfl fun tr htr => ?_) hw
    simp only [SdPartial, hst] at htr
    obtain ⟨ps, hps, rfl⟩ := htr
    exact ⟨ps, hps, by rw [sdrtrWord_low]; rfl⟩
  · rw [step_sNext hr hst h]
    exact SdFollows.sdNext hs.tick hsd hst

end
end

/-- Settles O49, by the part of the FSM the step starts in. -/
theorem traceFlowKept : Obligations.TraceFlowKept := by
  intro s t hs hf h
  cases hr : (pins s).rst with
  | true =>
    cases (step_rst hr).symm.trans h
    rfl
  | false =>
    cases hst : s.st with
    | idle | done => exact traceFlow_step_awaiting hf hr h (by simp [hst])
    | validate => exact traceFlow_step_validate hf hr h hst
    | nRdBcr | nWrBcr | nWrBtr | nWrBwtr | nWrBcrEn | nNext =>
      exact traceFlow_step_norRun hs hf hr h (by rw [hst]; rfl)
    | gRdOff | gWrOff | gRdOn | gWrOn => exact traceFlow_step_gate hs hf hr h (by rw [hst]; rfl)
    | sWrSdcr1 | sWrSdcr2 | sWrSdtr1 | sWrSdtr2 => exact traceFlow_step_config hs hf hr h (by simp [hst])
    | sWrCmd | sDelay | sBarrier | sPoll | sWrSdrtr | sNext =>
      exact traceFlow_step_command hs hf hr h (by simp [hst])
    | fatal =>
      rw [step_fatal hr hst h]
      exact hf.tick

end Sys2Proof.Machine


namespace Sys2Proof.Machine

/-! ### `nor_invalid` and its items -/

theorem toNat_ofNat_index {n : Nat} (h : n < 4) : (BitVec.ofNat 2 n).toNat = n := by
  simp only [BitVec.toNat_ofNat]; omega

theorem norUsed_length_le (c : Cfg) :
    (norUsed c).length ≤ c.norCount.toNat ∧ (norUsed c).length ≤ 4 := by
  simp only [norUsed, List.length_take, List.length_cons, List.length_nil]; omega

/-- Every place of the used list is one of the current entries that `i` can name. -/
theorem norUsed_get {c : Cfg} {n : Nat} (h : n < (norUsed c).length) :
    ∃ j : BitVec 2, j.toNat = n ∧ j.toNat < c.norCount.toNat ∧ (norUsed c)[n] = norAt c j := by
  obtain ⟨h1, h2⟩ := norUsed_length_le c
  have hj : (BitVec.ofNat 2 n).toNat = n := toNat_ofNat_index (by omega)
  have hlt : (BitVec.ofNat 2 n).toNat < c.norCount.toNat := by omega
  refine ⟨_, hj, hlt, ?_⟩
  have hu := norAt_used hlt
  rw [hj, List.getElem?_eq_getElem h] at hu
  exact Option.some.inj hu

theorem norUsed_any (c : Cfg) (p : NorEntry → Bool) :
    (norUsed c).any p = true ↔ ∃ j : BitVec 2, j.toNat < c.norCount.toNat ∧ p (norAt c j) = true := by
  constructor
  · intro h
    obtain ⟨e, he, hp⟩ := List.any_eq_true.1 h
    obtain ⟨n, hn, rfl⟩ := List.getElem_of_mem he
    obtain ⟨j, -, hj, heq⟩ := norUsed_get hn
    exact ⟨j, hj, heq ▸ hp⟩
  · rintro ⟨j, hj, hp⟩
    exact List.any_eq_true.2 ⟨_, List.mem_of_getElem? (norAt_used hj), hp⟩

theorem allDistinct_iff_nodup {n : Nat} (l : List (BitVec n)) : allDistinct l = true ↔ l.Nodup := by
  induction l with
  | nil => simp [allDistinct]
  | cons x xs ih => simp [allDistinct, ih]

/-- The bank indices are distinct exactly when no two entries share one (R137 item 7). -/
theorem norBanks_distinct (c : Cfg) : allDistinct ((norUsed c).map (·.bankIdx)) = false ↔
    ∃ j j' : BitVec 2, j ≠ j' ∧ j.toNat < c.norCount.toNat ∧ j'.toNat < c.norCount.toNat ∧
      (norAt c j).bankIdx = (norAt c j').bankIdx := by
  rw [← Bool.not_eq_true, allDistinct_iff_nodup]
  constructor
  · intro h
    simp only [List.nodup_iff_getElem?_ne_getElem?, not_forall, not_not] at h
    obtain ⟨a, b, hab, hb, heq⟩ := h
    rw [List.length_map] at hb
    have ha : a < (norUsed c).length := hab.trans hb
    obtain ⟨j, rfl, hj, hja⟩ := norUsed_get ha
    obtain ⟨j', rfl, hj', hjb⟩ := norUsed_get hb
    refine ⟨j, j', fun hjj => hab.ne (congrArg BitVec.toNat hjj), hj, hj', ?_⟩
    simpa [norAt_used hj, norAt_used hj'] using heq
  · rintro ⟨j, j', hne, hj, hj', heq⟩ hnd
    have hlen : j.toNat < ((norUsed c).map (·.bankIdx)).length := by
      rw [List.length_map]
      exact (List.getElem?_eq_some_iff.1 (norAt_used hj)).1
    refine hne (BitVec.eq_of_toNat_eq ((List.getElem?_inj hlen hnd).1 ?_))
    simp [norAt_used hj, norAt_used hj', heq]

theorem baseValid_iff (base : Word) : baseValid base = true ↔
    base ≠ 0 ∧ base ≠ 0xFFFFFFFF ∧ base &&& 3 = 0 ∧ base.toNat ≤ 0xFFFFFEA4 := by
  simp [baseValid, and_assoc]

/-- Items 3 to 6 of R137 for one entry. -/
theorem norEntryInvalid_iff (e : NorEntry) : norEntryInvalid e = true ↔
    3 < e.bankIdx.toNat ∨ (e.ctrlPresent = false ∨ e.timingPresent = false) ∨
    (e.timing.clkDiv.toNat < 1 ∨ 16 < e.timing.clkDiv.toNat) ∨
    (e.timing.dataLatency.toNat < 2 ∨ 17 < e.timing.dataLatency.toNat) := by
  have hrange : e.timing.inRange = false ↔
      (e.timing.clkDiv.toNat < 1 ∨ 16 < e.timing.clkDiv.toNat) ∨
      (e.timing.dataLatency.toNat < 2 ∨ 17 < e.timing.dataLatency.toNat) := by
    simp only [NorTiming.inRange, Bool.and_eq_false_iff, decide_eq_false_iff_not, not_le, or_assoc]
  simp only [norEntryInvalid, Bool.or_eq_true, decide_eq_true_eq, Bool.not_eq_true', hrange, or_assoc]

/-- Settles O10: items 3 to 6 are those of some used entry, item 7 is a repeated bank index. -/
theorem norInvalidItems : Obligations.NorInvalidItems := by
  intro c
  have hbase : baseValid c.base = false ↔ ¬ (c.base ≠ 0 ∧ c.base ≠ 0xFFFFFFFF ∧ c.base &&& 3 = 0 ∧
      c.base.toNat ≤ 0xFFFFFEA4) := by rw [← baseValid_iff, Bool.not_eq_true]
  simp only [norInvalid, Bool.or_eq_true, Bool.and_eq_true, decide_eq_true_eq, Bool.not_eq_true',
    norUsed_any, norEntryInvalid_iff, norBanks_distinct, hbase, and_or_left, exists_or, or_assoc]

/-! ### The elements of a whole NOR run -/

theorem norFlow_length (c : Cfg) {es : List NorEntry} {vs : List Word} (h : vs.length = es.length) :
    (norFlow c es vs).length = 5 * es.length := by
  induction es generalizing vs with
  | nil => simp [norFlow]
  | cons e es ih =>
    obtain ⟨v, vs, rfl⟩ := List.exists_cons_of_length_eq_add_one h
    rw [norFlow_cons, List.length_append, ih (by simpa using h), List.length_cons]
    simp [norEntryFlow]
    omega

/-- The `n`-th five elements are those of the `n`-th entry (40_norsram_configurator.md R136). -/
theorem norFlow_entry (c : Cfg) {es : List NorEntry} {vs : List Word} (h : vs.length = es.length)
    {n : Nat} {e : NorEntry} (he : es[n]? = some e) :
    ∃ v, ((norFlow c es vs).drop (5 * n)).take 5 = norEntryFlow c e v := by
  induction es generalizing vs n with
  | nil => simp at he
  | cons e' es ih =>
    obtain ⟨v, vs, rfl⟩ := List.exists_cons_of_length_eq_add_one h
    rw [norFlow_cons]
    have hfive : (norEntryFlow c e' v).length = 5 := rfl
    cases n with
    | zero =>
      cases Option.some.inj he
      exact ⟨v, List.take_left' hfive⟩
    | succ n =>
      rw [Nat.mul_succ, Nat.add_comm, ← List.drop_drop, List.drop_left' hfive]
      exact ih (by simpa using h) he

/-- Settles O51: the trace of a successful NOR run is the flow of its entries. -/
theorem norRunElements : Obligations.NorRunElements := by
  intro s hs hf hok he
  obtain ⟨hst, herr⟩ : s.st = .done ∧ s.err = .ok := by simpa [success, done] using hok
  have hd : DoneTrace s := (traceFollowsFlow_done hst).1 hf
  simp only [DoneTrace, herr, he] at hd
  obtain ⟨hv, vs, hl, htr⟩ := hd
  have hlen : vs.length = (norUsed s.cfg).length := by rw [hl, norUsed_length hv]
  rw [htr]
  refine ⟨by rw [norFlow_length _ hlen, norUsed_length hv], fun j hj => ?_⟩
  exact norFlow_entry s.cfg hlen (norAt_used hj)

/-! ### The elements of a NOR run -/

theorem activity_norEntry {s : State} {f : NorEntry → BitVec 2 → Instr}
    (ha : activity s = issueNor s f) (hb : (norEntry s).bankIdx.toNat < 4) :
    activity s = .issue (f (norEntry s) (NorEntry.bank (norEntry s))) := by
  rw [ha, issueNor, if_pos hb]
  rfl

theorem activity_nWrBcr {s : State} (hst : s.st = .nWrBcr) :
    activity s = issueNor s fun e b => .norWrBcr b e.ctrl (preserved s) := by simp only [activity, hst]

theorem activity_nWrBcrEn {s : State} (hst : s.st = .nWrBcrEn) :
    activity s = issueNor s fun e b => .norWrBcrEn b e.ctrl (preserved s) := by simp only [activity, hst]

/-- Of `rmw` only the preserved bits reach the two control words (R126). -/
theorem activity_preserved {s : State} {v : Word} (hst : s.st = .nWrBcr ∨ s.st = .nWrBcrEn)
    (hv : v &&& norPreserveMask = s.rmw &&& norPreserveMask) :
    activity { s with rmw := v } = activity s := by
  have hp : preserved { s with rmw := v } = preserved s := hv
  rcases hst with hst | hst
  · rw [activity_nWrBcr hst, activity_nWrBcr (s := { s with rmw := v }) hst, hp]
    rfl
  · rw [activity_nWrBcrEn hst, activity_nWrBcrEn (s := { s with rmw := v }) hst, hp]
    rfl

/-- An acknowledged write whose rule changes `st` alone. -/
theorem write_goto_done {s : State} {r : Reg} {w a : Word} {u : Fsm} (hack : (reply s).ack = true)
    (hadr : addrOf s.cfg r = a) :
    ∃ t, busWrite r w (goto u) s = .next t ∧ WriteDone s t r a w ∧
      regsOf t = { regsOf s with st := u } := by
  have h := busWrite_ack r w (goto u) hack
  subst hadr
  refine ⟨_, h, ?_, rfl⟩
  exact (busOutcome_write (f := goto u) (fun _ => ⟨rfl, rfl, rfl, rfl, rfl⟩) h).writeDone hack

/-- A control word beside preserved bits is 0 in the bits that R131 names. -/
theorem controlWord_zeros (c : NorCtrl) (v : Word) :
    ((v &&& norPreserveMask) ||| ctrlWord c) &&& 0x00F00001 = 0 :=
  bcrWord_row (beq_iff_eq.2 (preserveMask_writableMask v)) c

theorem or_xor_self {x m : Word} (h : x &&& m = 0) : (x ||| m) ^^^ x = m := by
  apply BitVec.eq_of_getLsbD_eq
  intro n _
  have hn : (x.getLsbD n && m.getLsbD n) = false := by
    rw [← BitVec.getLsbD_and, h]
    exact BitVec.getLsbD_zero
  rw [BitVec.getLsbD_xor, BitVec.getLsbD_or]
  cases hx : x.getLsbD n <;> simp_all

/-- Settles O4, by what an acknowledged read does. -/
theorem norReadControl : Obligations.NorReadControl := by
  refine ⟨fun s hst hb => activity_norEntry (f := fun _ b => .norRdBcr b) (by simp [activity, hst]) hb,
    fun b s hack => ?_, fun s v hst hv => activity_preserved hst hv⟩
  have h := busRead_ack (.bcr b) (fun v t => goto .nWrBcr (latch v t)) hack
  exact ⟨_, h, (exec_bus (i := .norRdBcr b) rfl h).readDone hack, rfl⟩

/-- Settles O5, by what an acknowledged write does. -/
theorem norWriteControl : Obligations.NorWriteControl :=
  ⟨fun _ hst hb => activity_norEntry (activity_nWrBcr hst) hb,
    fun _ _ _ _ hack => write_goto_done hack rfl, controlWord_zeros⟩

/-- Settles O6: neither rule looks at `ext_mode`. -/
theorem norWriteTimings : Obligations.NorWriteTimings :=
  ⟨fun _ hst hb => activity_norEntry (f := fun e b => .norWrBtr b e.timing) (by simp only [activity, hst]) hb,
    fun _ _ _ hack => write_goto_done hack (BitVec.add_assoc _ _ _).symm,
    fun _ hst hb => activity_norEntry (f := fun e b => .norWrBwtr b e.timing.toWrite)
      (by simp only [activity, hst]) hb,
    fun _ _ _ hack => write_goto_done hack (BitVec.add_assoc _ _ _).symm⟩

/-- Settles O7: bit 0, which MBKEN sets, is 0 in the word of N_WR_BCR. -/
theorem norWriteEnable : Obligations.NorWriteEnable := by
  refine ⟨fun _ hst hb => activity_norEntry (activity_nWrBcrEn hst) hb,
    fun _ _ _ _ hack => write_goto_done hack rfl, fun c v => or_xor_self ?_⟩
  calc ((v &&& norPreserveMask) ||| ctrlWord c) &&& 1
      = ((v &&& norPreserveMask) ||| ctrlWord c) &&& 0x00F00001 &&& 1 := by rw [BitVec.and_assoc]; rfl
    _ = 0 := by rw [controlWord_zeros]; rfl

/-! ### The states without an element -/

theorem quietCycle_of {s t : State} (hx : request s = none) (hm : t.mem = s.mem) (he : t.era = s.era)
    (ht : t.trace = s.trace) : QuietCycle s t :=
  ⟨busPort_noRequest hx, readByte_congr hm he, ht⟩

theorem gateEn_iff (c : Cfg) : gateEn c = true ↔ c.family = 2 := beq_iff_eq

/-- Settles O8, by the things N_NEXT and S_NEXT can do. -/
theorem nextEntryStates : Obligations.NextEntryStates := by
  refine ⟨fun s hst hr => ⟨norNext (tick s), by simp [step, hr, activity, hst], ?_⟩,
    fun s hst hr => ⟨sdNext (tick s), by simp [step, hr, activity, hst], ?_⟩⟩
  · have hx : request s = none := by simp [request, activity, hst]
    rcases norNext_cases (tick s) with ⟨hlt, ht⟩ | ⟨hle, ht⟩ <;> rw [ht]
    · exact ⟨quietCycle_of hx rfl rfl rfl, fun _ => rfl, fun hle => absurd hlt hle.not_gt⟩
    · exact ⟨quietCycle_of hx rfl rfl rfl, fun hlt => absurd hlt hle.not_gt, fun _ => rfl⟩
  · have hx : request s = none := by simp [request, activity, hst]
    rcases sdNext_cases (tick s) with ⟨hlt, ht⟩ | ⟨hle, hg, ht⟩ | ⟨hle, hg, ht⟩ <;> rw [ht]
    · exact ⟨quietCycle_of hx rfl rfl rfl, fun _ => rfl, fun hle => absurd hlt hle.not_gt,
        fun hle => absurd hlt hle.not_gt⟩
    · exact ⟨quietCycle_of hx rfl rfl rfl, fun hlt => absurd hlt hle.not_gt, fun _ _ => rfl,
        fun _ hne => absurd ((gateEn_iff _).1 hg) hne⟩
    · exact ⟨quietCycle_of hx rfl rfl rfl, fun hlt => absurd hlt hle.not_gt,
        fun _ heq => absurd ((gateEn_iff _).2 heq) (Bool.eq_false_iff.1 hg), fun _ _ => rfl⟩

/-- A configuration without NOR entries is valid for a NOR run (R137, R138). -/
theorem norInvalid_of_count_zero {c : Cfg} (h : c.norCount = 0) : norInvalid c = false := by
  simp [norInvalid, norUsed, h, allDistinct]

/-- Settles O9, by the things VALIDATE can do in a NOR run. -/
theorem norValidation : Obligations.NorValidation := by
  intro s hst he hr
  have hstep : step s = .next (validate (tick s)) := by simp [step, hr, activity, hst]
  have hx : request s = none := by simp [request, activity, hst]
  refine ⟨_, hstep, ?_⟩
  rcases step_validate_nor hr hst he hstep with ⟨hv, ht⟩ | ⟨hv, hn, ht⟩ | ⟨hv, hn, ht⟩ <;> rw [ht]
  · refine ⟨quietCycle_of hx rfl rfl rfl, fun _ => rfl, fun h0 => ?_, fun hv' => ?_⟩
    · simp [norInvalid_of_count_zero h0] at hv
    · simp [hv] at hv'
  · exact ⟨quietCycle_of hx rfl rfl rfl, by simp [hv], fun _ => rfl, fun _ h0 => absurd hn h0⟩
  · exact ⟨quietCycle_of hx rfl rfl rfl, by simp [hv], fun h0 => by simp [h0] at hn, fun _ _ => rfl⟩

/-! ### The words of a NOR entry -/

/-- Settles O26: each field reads back from the word, whose other bits no field sets. -/
theorem norControlWordFields : Obligations.NorControlWordFields := by
  intro c
  have hc := ctrlOfWord_ctrlWord c
  have hz : ctrlWord c &&& 0xFFF00081 = 0 := and_eq_zero_of_masked (ctrlWord_and_self c) (by decide)
  refine ⟨bitsAt_ctrlWord_faccen c, congrArg NorCtrl.muxEn hc, congrArg NorCtrl.memType hc,
    congrArg NorCtrl.dataWidth hc, congrArg NorCtrl.burstEn hc, congrArg NorCtrl.waitPol hc,
    congrArg NorCtrl.wrapMode hc, congrArg NorCtrl.waitCfg hc, congrArg NorCtrl.writeEn hc,
    congrArg NorCtrl.waitEn hc, congrArg NorCtrl.extMode hc, congrArg NorCtrl.asyncWait hc,
    congrArg NorCtrl.pageSize hc, congrArg NorCtrl.writeBurst hc, hz⟩

/-- The read-timing word without its divisor and its latency is the write-timing word (R125). -/
theorem bwtrWord_toWrite (t : NorTiming) : bwtrWord t.toWrite = btrWord t &&& 0x300FFFFF := by
  rw [← bwtrWord_writeTimingOfWord]
  simp [writeTimingOfWord, btrWord, NorTiming.toWrite]

theorem field_and_eq_zero (v : Word) {shift width : Nat} {m : Word} (h : fieldMask shift width &&& m = 0) :
    field v shift width &&& m = 0 := by
  rw [field, BitVec.shiftLeft_and_distrib, BitVec.and_assoc]
  exact (congrArg _ h).trans BitVec.and_zero

/-- The decrements of R122 and R123, in the four bits of their fields. -/
theorem timing_decrements (x : BitVec 5) :
    (1 ≤ x.toNat → x.toNat ≤ 16 → ((x - 1).setWidth 4).toNat = x.toNat - 1) ∧
    (2 ≤ x.toNat → x.toNat ≤ 17 → ((x - 2).setWidth 4).toNat = x.toNat - 2) := by
  revert x; decide

/-- Settles O27: each field reads back from the word, divisor and latency less what R122 and R123 take
from them. -/
theorem norTimingWordFields : Obligations.NorTimingWordFields := by
  intro t
  have hdiv : bitsAt (btrWord t) 20 4 = (clkdivField t).setWidth 4 := by simp [btrWord]
  have hlat : bitsAt (btrWord t) 24 4 = (datlatField t).setWidth 4 := by simp [btrWord]
  have hzero : btrWord t &&& 0xC0000000 = 0 := by
    simp (disch := decide) [btrWord, BitVec.and_or_distrib_right, field_and_eq_zero]
  refine ⟨?_, ?_, by simp [btrWord], by simp [btrWord], by simp [btrWord], by simp [btrWord],
    by simp [btrWord], hzero, bwtrWord_toWrite t⟩
  · rw [hdiv]
    exact (timing_decrements t.clkDiv).1
  · rw [hlat]
    exact (timing_decrements t.dataLatency).2

/-- Settles O34: the words are closed, and decoding them is a computation. -/
theorem exampleWordsDecode : Obligations.ExampleWordsDecode := by
  unfold Obligations.ExampleWordsDecode
  decide

end Sys2Proof.Machine

/-! Proofs of the statements about the words of the SDRAM encoder (spec/41_sdram_encoder.md). -/

namespace Sys2Proof

/-! ### The words of an SDRAM entry -/

/-- The reduced control word is the full one without its fields from bit 9 up (R151). -/
theorem sdcrReduced_toReduced (c : SdramCtrl) : sdcrReduced c.toReduced = sdcrFull c &&& 0x000001FF := by
  rw [← sdcrReduced_sdramCtrlOfWord, sdramCtrlOfWord_sdcrFull]

/-- Bit 31 of the reload value is shifted out (R157). -/
theorem sdrtrWord_xor_bit31 (ref : Word) : sdrtrWord (ref ^^^ 0x80000000) = sdrtrWord ref := by
  rw [sdrtrWord, BitVec.shiftLeft_xor_distrib]
  exact BitVec.xor_zero

/-- Settles O28: the words decode to the records they are made of, and no field sets the other bits. -/
theorem sdramWordFields : Obligations.SdramWordFields := by
  refine ⟨fun c => ?_, fun t => ?_, fun ref => ⟨?_, ?_, sdrtrWord_xor_bit31 ref⟩⟩
  · have hc := sdramCtrlOfWord_sdcrFull c
    exact ⟨congrArg SdramCtrl.noColumns hc, congrArg SdramCtrl.noRows hc,
      congrArg SdramCtrl.memoryWidth hc, congrArg SdramCtrl.noBanks hc,
      congrArg SdramCtrl.casLatency hc, congrArg SdramCtrl.sdclk hc,
      congrArg SdramCtrl.rdBurst hc, congrArg SdramCtrl.rdPipeDelay hc,
      sdcr1Layout.and_eq_zero trivial (by decide), sdcrReduced_toReduced c⟩
  · have ht := sdramTimingOfWord_sdtrWord t
    exact ⟨congrArg SdramTiming.tmrd ht, congrArg SdramTiming.txsr ht,
      congrArg SdramTiming.tras ht, congrArg SdramTiming.trc ht, congrArg SdramTiming.twr ht,
      congrArg SdramTiming.trp ht, congrArg SdramTiming.trcd ht,
      sdtrLayout.and_eq_zero trivial (by decide)⟩
  · rw [sdrtrWord, BitVec.toNat_shiftLeft, Nat.shiftLeft_eq, Nat.pow_one, Nat.mul_comm]
  · simp [sdrtrWord]

/-! ### The words of the commands -/

/-- A command word is four fields side by side, those of R155 and R153 holding 0 in the commands that
do not have them. -/
theorem cmdWord_eq_fields (k : Nat) (slot : Slot) (cas : BitVec 2) :
    cmdWord k slot cas = field (ctb slot >>> 3) 3 2 ||| field ((modeCode k).getD 0) 0 3 |||
      field (if k = 2 then nrfsConst else 0) 5 4 |||
      field (if k = 3 then modePayload cas else 0) 9 13 := by
  have htarget : ctb slot = field (ctb slot >>> 3) 3 2 := by cases slot <;> rfl
  have hmode : (modeCode k).getD 0 = field ((modeCode k).getD 0) 0 3 := by
    unfold modeCode
    split <;> rfl
  rw [cmdWord, ← htarget, ← hmode, apply_ite (field · 5 4), apply_ite (field · 9 13)]
  rfl

/-- The payload of 13 bits is the CAS latency at bit 4 (R153). -/
theorem modePayload_setWidth (cas : BitVec 2) :
    (modePayload cas).setWidth 13 = cas.setWidth 13 <<< 4 := by
  revert cas; decide

/-- Settles O29: each field of a command word reads back, with the value that the command gives it. -/
theorem commandWordFields : Obligations.CommandWordFields := by
  intro k slot cas hk
  rw [cmdWord_eq_fields]
  have hmode : (((modeCode k).getD 0).setWidth 3).toNat =
      if k = 0 then 1 else if k = 1 then 2 else if k = 2 then 3 else if k = 3 then 4 else 0 := by
    revert k; decide
  have hnrfs : ((if k = 2 then nrfsConst else 0 : Word).setWidth 4).toNat = if k = 2 then 7 else 0 := by
    split <;> rfl
  have hmrd : (if k = 3 then modePayload cas else 0 : Word).setWidth 13 =
      if k = 3 then cas.setWidth 13 <<< 4 else 0 := by
    split
    · exact modePayload_setWidth cas
    · rfl
  refine ⟨?_, ?_, ?_, ?_, by simp⟩
  · cases slot <;> simp [ctb]
  · simpa using hmode
  · simpa using hnrfs
  · simpa using hmrd

end Sys2Proof

/-! Proofs of the statements about the SDRAM bring-up FSM (spec/42_sdram_sequencer.md). -/

namespace Sys2Proof.Machine

/-! ### `sd_invalid` and its items -/

/-- The places of the used list are the entries that `i` can name below the count (10_state.md R35). -/
theorem sdUsed_getElem? (c : Cfg) (j : BitVec 2) :
    (sdUsed c)[j.toNat]? = if j.toNat < c.sdCount.toNat then sdAt c j else none := by
  have hall : [c.sd0, c.sd1][j.toNat]? = sdAt c j := by
    rcases index_cases j with rfl | rfl | rfl | rfl <;> rfl
  rw [sdUsed, List.getElem?_take, hall]

theorem mem_sdUsed {c : Cfg} {e : SdEntry} :
    e ∈ sdUsed c ↔ ∃ j : BitVec 2, sdAt c j = some e ∧ j.toNat < c.sdCount.toNat := by
  constructor
  · intro h
    obtain ⟨n, hn, rfl⟩ := List.getElem_of_mem h
    have hlen : (sdUsed c).length ≤ 2 := by simp [sdUsed]
    have hj : (BitVec.ofNat 2 n).toNat = n := toNat_ofNat_index (by omega)
    have hget := sdUsed_getElem? c (BitVec.ofNat 2 n)
    rw [hj, List.getElem?_eq_getElem hn] at hget
    split at hget
    · exact ⟨_, hget.symm, by rwa [hj]⟩
    · cases hget
  · rintro ⟨j, he, hj⟩
    exact List.mem_of_getElem? ((sdUsed_getElem? c j).trans ((if_pos hj).trans he))

theorem baseValid_eq_false_iff (base : Word) : baseValid base = false ↔
    ¬ (base ≠ 0 ∧ base ≠ 0xFFFFFFFF ∧ base &&& 3 = 0 ∧ base.toNat ≤ 0xFFFFFEA4) := by
  rw [← baseValid_iff, Bool.not_eq_true]

/-- Item 4 of R172 for one entry. -/
theorem sdEntryInvalid_iff (e : SdEntry) : sdEntryInvalid e = true ↔
    e.ctrlPresent = false ∨ e.timingPresent = false ∨ e.refPresent = false := by
  simp [sdEntryInvalid, or_assoc]

/-- Settles O22: item 4 is that of some used entry, and the other items stand in `sdInvalid`. -/
theorem sdramInvalidItems : Obligations.SdramInvalidItems := by
  intro c
  have hentry : (sdUsed c).any sdEntryInvalid = true ↔ ∃ (j : BitVec 2) (e : SdEntry),
      sdAt c j = some e ∧ j.toNat < c.sdCount.toNat ∧
      (e.ctrlPresent = false ∨ e.timingPresent = false ∨ e.refPresent = false) := by
    simp only [List.any_eq_true, mem_sdUsed, sdEntryInvalid_iff]
    exact ⟨fun ⟨e, ⟨j, he, hj⟩, hi⟩ => ⟨j, e, he, hj, hi⟩, fun ⟨j, e, he, hj, hi⟩ => ⟨e, ⟨j, he, hj⟩, hi⟩⟩
  simp only [sdInvalid, Bool.or_eq_true, Bool.and_eq_true, decide_eq_true_eq, Bool.not_eq_true',
    beq_iff_eq, hentry, baseValid_eq_false_iff, or_assoc]

/-! ### The words, delays, barriers and polls of a whole SDRAM run -/

/-- What is read off a trace element by element and says nothing of the registers of the NOR entry, so
nothing of the gate. -/
structure SdramObservation {α : Type} (obs : List TraceElem → List α) : Prop where
  append : ∀ a b, obs (a ++ b) = obs a ++ obs b
  norReg : ∀ a, a.all onNorReg = true → obs a = []

section
variable {α : Type} {obs : List TraceElem → List α} {c : Cfg}

theorem opening_onNorReg {o : List TraceElem} (h : Opening c o) : o.all onNorReg = true := by
  unfold Opening at h
  split at h
  · obtain ⟨v, rfl⟩ := h; rfl
  · rw [h]; rfl

theorem closing_onNorReg {z : List TraceElem} (h : Closing c z) : z.all onNorReg = true := by
  unfold Closing at h
  split at h
  · obtain ⟨v, rfl⟩ := h; rfl
  · rw [h]; rfl

/-- What the steps of one entry show, where a step shows it whatever its poll reads (R171). -/
theorem SdramObservation.stepsFrom (ho : SdramObservation obs) {e : SdEntry} {g : Nat → List α}
    {ps : List Poll} (hok : ∀ p ∈ ps, p.Ok) (hg : ∀ k (p : Poll), p.Ok → obs (stepFlow c e k p) = g k)
    (k : Nat) : obs (stepsFrom c e k ps) = (List.range' k ps.length).flatMap g := by
  induction ps generalizing k with
  | nil => exact ho.norReg [] rfl
  | cons p ps ih =>
    rw [Machine.stepsFrom, ho.append, hg k p (hok p List.mem_cons_self),
      ih (fun q hq => hok q (List.mem_cons_of_mem p hq)), List.length_cons, List.range'_succ,
      List.flatMap_cons]

/-- What one entry shows: its control and timing words, its five commands, its refresh word (R171). -/
theorem SdramObservation.sdEntryFlow (ho : SdramObservation obs) {e : SdEntry} {g : Nat → List α}
    {ps : List Poll} (hps : FivePolls ps) (hg : ∀ k (p : Poll), p.Ok → obs (stepFlow c e k p) = g k) :
    obs (sdEntryFlow c e ps) = obs (configFlow c e) ++ (List.range 5).flatMap g ++
      obs [wrElem c .sdrtr (sdrtrWord e.refCount)] := by
  obtain ⟨hlen, hok⟩ := hps
  rw [Machine.sdEntryFlow, ho.append, ho.append, ho.stepsFrom hok hg, hlen, List.range_eq_range']

theorem SdramObservation.sdFlow (ho : SdramObservation obs) {g : SdEntry → List α}
    (hg : ∀ e ps, FivePolls ps → obs (Machine.sdEntryFlow c e ps) = g e) {es : List SdEntry}
    {tr : List TraceElem} (h : SdFlow c es tr) : obs tr = es.flatMap g := by
  induction h with
  | nil => exact ho.norReg [] rfl
  | snoc es tr e ps _ hps ih => rw [ho.append, ih, hg e ps hps, List.flatMap_append, List.flatMap_singleton]

/-- The trace of a successful SDRAM run is the flow of its entries between the elements of the gate. -/
theorem sdramRun_trace {s : State} (hf : TraceFollowsFlow s) (hok : success s = true)
    (he : s.ent = .sdram) : ∃ o b z, o.all onNorReg = true ∧ SdFlow s.cfg (sdUsed s.cfg) b ∧
      z.all onNorReg = true ∧ s.trace = o ++ b ++ z := by
  obtain ⟨hst, herr⟩ : s.st = .done ∧ s.err = .ok := by simpa [success, done] using hok
  have hd : DoneTrace s := (traceFollowsFlow_done hst).1 hf
  simp only [DoneTrace, herr, he] at hd
  obtain ⟨-, hzero, hsome⟩ := hd
  by_cases hn : s.cfg.sdCount = 0
  · have hnil : sdUsed s.cfg = [] := by simp [sdUsed, hn]
    exact ⟨[], [], [], rfl, by rw [hnil]; exact .nil, rfl, hzero hn⟩
  · obtain ⟨o, b, z, ho, hb, hz, htr⟩ := hsome hn
    exact ⟨o, b, z, opening_onNorReg ho, hb, closing_onNorReg hz, htr⟩

/-- What a successful SDRAM run shows is what its entries show. -/
theorem SdramObservation.run (ho : SdramObservation obs) {s : State} (hf : TraceFollowsFlow s)
    (hok : success s = true) (he : s.ent = .sdram) {g : SdEntry → List α}
    (hg : ∀ e ps, FivePolls ps → obs (Machine.sdEntryFlow s.cfg e ps) = g e) :
    obs s.trace = (sdUsed s.cfg).flatMap g := by
  obtain ⟨o, b, z, hno, hb, hnz, htr⟩ := sdramRun_trace hf hok he
  rw [htr, ho.append, ho.append, ho.norReg o hno, ho.norReg z hnz, ho.sdFlow hg hb, List.append_nil,
    List.nil_append]

end

section
variable {α : Type} (c : Cfg) (e : SdEntry) (k : Nat)

/-- The barriers of a trace. -/
def barriersOf (tr : List TraceElem) : List TraceElem := tr.filter (· == .barrier)

/-- One mark for each SDSR read with BUSY = 0, whatever its other bits are. -/
def readyMarks (tr : List TraceElem) : List Unit :=
  ((answersFrom .sdsr tr).filter (!busyBit ·)).map fun _ => ()

theorem observation_filterMap {f : TraceElem → Option α} (hf : ∀ x, onNorReg x = true → f x = none) :
    SdramObservation (List.filterMap f) where
  append _ _ := List.filterMap_append
  norReg _ ha := List.filterMap_eq_nil_iff.2 fun x hx => hf x (List.all_eq_true.1 ha x hx)

theorem observation_wordsTo {r : Reg} (hr : regOfNor r = false) : SdramObservation (wordsTo r) :=
  observation_filterMap fun x hx => by
    cases x with
    | wr r' _ _ =>
      have hne : r' ≠ r := by rintro rfl; exact absurd hx (Bool.eq_false_iff.1 hr)
      exact if_neg hne
    | _ => rfl

theorem observation_answersFrom {r : Reg} (hr : regOfNor r = false) : SdramObservation (answersFrom r) :=
  observation_filterMap fun x hx => by
    cases x with
    | rd r' _ _ =>
      have hne : r' ≠ r := by rintro rfl; exact absurd hx (Bool.eq_false_iff.1 hr)
      exact if_neg hne
    | _ => rfl

theorem observation_delaysOf : SdramObservation delaysOf :=
  observation_filterMap fun x hx => by
    cases x with
    | delay => cases hx
    | _ => rfl

theorem observation_readyMarks : SdramObservation readyMarks where
  append a b := by simp [readyMarks, answersFrom_append]
  norReg a ha := by simp [readyMarks, (observation_answersFrom (r := .sdsr) rfl).norReg a ha]

theorem observation_barriersOf : SdramObservation barriersOf where
  append _ _ := List.filter_append ..
  norReg a ha := List.filter_eq_nil_iff.2 fun x hx h => by
    have hnor := List.all_eq_true.1 ha x hx
    rw [beq_iff_eq.1 h] at hnor
    cases hnor

theorem wordsTo_wr_cons (r r' : Reg) (a w : Word) (tr : List TraceElem) :
    wordsTo r (.wr r' a w :: tr) = if r' = r then w :: wordsTo r tr else wordsTo r tr := by
  by_cases h : r' = r <;> simp [wordsTo, h]

/-- A command is one write to SDCMR, and its delay, barrier and poll write nothing (R178 to R181). -/
theorem wordsTo_stepFlow (r : Reg) (p : Poll) : wordsTo r (stepFlow c e k p) =
    if r = .sdcmr then [cmdWord k e.slot e.ctrl.casLatency] else [] := by
  have hpoll : wordsTo r (pollReads c (p.busyAnswers ++ [p.last])) = [] := by
    simp [wordsTo, pollReads, rdElem, List.filterMap_map]
  have hcmd : wordsTo r (commandFlow c e k) =
      if r = .sdcmr then [cmdWord k e.slot e.ctrl.casLatency] else [] := by
    have hrest : wordsTo r (if delayUs k = 0 then [] else [.delay (delayUs k)]) = [] := by
      split <;> rfl
    rw [commandFlow, wrElem, wordsTo_wr_cons, hrest]
    simp only [eq_comm]
  rw [stepFlow, wordsTo_append, hcmd]
  exact (congrArg _ hpoll).trans (List.append_nil _)

theorem delaysOf_stepFlow (p : Poll) : delaysOf (stepFlow c e k p) =
    if delayUs k = 0 then [] else [delayUs k] := by
  have hpoll : delaysOf (pollReads c (p.busyAnswers ++ [p.last])) = [] := by
    simp [delaysOf, pollReads, rdElem, List.filterMap_map]
  have hcmd : delaysOf (commandFlow c e k) = if delayUs k = 0 then [] else [delayUs k] := by
    by_cases hd : delayUs k = 0 <;> simp [delaysOf, commandFlow, wrElem, hd]
  rw [stepFlow, delaysOf_append, hcmd]
  exact (congrArg _ hpoll).trans (List.append_nil _)

theorem barriersOf_stepFlow (p : Poll) : barriersOf (stepFlow c e k p) = [.barrier] := by
  by_cases hd : delayUs k = 0 <;> simp [barriersOf, stepFlow, commandFlow, pollReads, wrElem, rdElem, hd]

/-- A poll reads BUSY = 0 once, at its end (R181). -/
theorem readyMarks_stepFlow {p : Poll} (hp : p.Ok) : readyMarks (stepFlow c e k p) = [()] := by
  obtain ⟨hbusy, hlast⟩ := hp
  have hreads : answersFrom .sdsr (stepFlow c e k p) = p.busyAnswers ++ [p.last] := by
    by_cases hd : delayUs k = 0 <;>
      simp [answersFrom, stepFlow, commandFlow, pollReads, wrElem, rdElem, List.filterMap_map, hd]
  have hnone : p.busyAnswers.filter (!busyBit ·) = [] :=
    List.filter_eq_nil_iff.2 fun v hv => by simp [List.all_eq_true.1 hbusy v hv]
  simp [readyMarks, hreads, hnone, hlast]

/-- Every configuration write goes to SDCR or SDTR; the secondary ones are those of slot 2 (R174 to
R177). -/
theorem wordsTo_configFlow (r : Reg) : wordsTo r (configFlow c e) =
    (if r = .sdcr1 then [sdcrFull e.ctrl] else []) ++
    (if r = .sdcr2 ∧ e.slot = .slot2 then [sdcrReduced e.ctrl.toReduced] else []) ++
    (if r = .sdtr1 then [sdtrWord e.timing] else []) ++
    (if r = .sdtr2 ∧ e.slot = .slot2 then [sdtrWord e.timing] else []) := by
  cases r <;> cases hs : e.slot <;> simp [configFlow, wordsTo, wrElem, hs]

/-- All the words of one entry to one register (R187). -/
theorem wordsTo_sdEntryFlow {r : Reg} (hr : regOfNor r = false) {ps : List Poll} (hps : FivePolls ps) :
    wordsTo r (sdEntryFlow c e ps) = wordsTo r (configFlow c e) ++
      (if r = .sdcmr then (List.range 5).map (cmdWord · e.slot e.ctrl.casLatency) else []) ++
      (if r = .sdrtr then [sdrtrWord e.refCount] else []) := by
  rw [(observation_wordsTo hr).sdEntryFlow hps fun k p _ => wordsTo_stepFlow c e k r p]
  cases r <;> simp [wordsTo, wrElem, List.map_eq_flatMap]

end

/-- Choosing and mapping, entry by entry. -/
theorem flatMap_ite_singleton {α β : Type} (p : α → Bool) (f : α → β) (l : List α) :
    l.flatMap (fun x => if p x then [f x] else []) = (l.filter p).map f := by
  induction l with
  | nil => rfl
  | cons x l ih => cases h : p x <;> simp [h, ih]

/-- Settles O52: what each entry shows of its flow, added up over the entries. -/
theorem sdramRunWrites : Obligations.SdramRunWrites := by
  intro s _ hf hok he
  have words {r : Reg} (hr : regOfNor r = false) {g : SdEntry → List Word}
      (hg : ∀ e, wordsTo r (configFlow s.cfg e) ++
        (if r = .sdcmr then (List.range 5).map (cmdWord · e.slot e.ctrl.casLatency) else []) ++
        (if r = .sdrtr then [sdrtrWord e.refCount] else []) = g e) :
      wordsTo r s.trace = (sdUsed s.cfg).flatMap g :=
    (observation_wordsTo hr).run hf hok he fun e ps hps => (wordsTo_sdEntryFlow s.cfg e hr hps).trans (hg e)
  have hdelays : delaysOf s.trace = (sdUsed s.cfg).flatMap fun _ => [200, 100, 100, 100] :=
    observation_delaysOf.run hf hok he fun e ps hps => by
      rw [observation_delaysOf.sdEntryFlow hps fun k p _ => delaysOf_stepFlow s.cfg e k p]
      cases hs : e.slot <;> simp [configFlow, delaysOf, wrElem, hs, delayUs, List.range_succ]
  have hbarriers : barriersOf s.trace = (sdUsed s.cfg).flatMap fun _ => List.replicate 5 .barrier :=
    observation_barriersOf.run hf hok he fun e ps hps => by
      rw [observation_barriersOf.sdEntryFlow hps fun k p _ => barriersOf_stepFlow s.cfg e k p]
      cases hs : e.slot <;> simp [configFlow, barriersOf, wrElem, hs, List.range_succ]
  have hready : readyMarks s.trace = (sdUsed s.cfg).flatMap fun _ => List.replicate 5 () :=
    observation_readyMarks.run hf hok he fun e ps hps => by
      rw [observation_readyMarks.sdEntryFlow hps fun k p hp => readyMarks_stepFlow s.cfg e k hp]
      cases hs : e.slot <;> simp [configFlow, readyMarks, answersFrom, wrElem, hs, List.range_succ]
  refine ⟨?sdcr1, ?sdcr2, ?sdtr1, ?sdtr2, words rfl fun e => ?sdcmr, ?sdrtr, hdelays, ?barriers, ?reads⟩
  case sdcr1 =>
    exact (words rfl fun e => by simp [wordsTo_configFlow]).trans List.map_eq_flatMap.symm
  case sdcr2 =>
    exact (words rfl fun e => by simp [wordsTo_configFlow]).trans (flatMap_ite_singleton _ _ _)
  case sdtr1 =>
    exact (words rfl fun e => by simp [wordsTo_configFlow]).trans List.map_eq_flatMap.symm
  case sdtr2 =>
    exact (words rfl fun e => by simp [wordsTo_configFlow]).trans (flatMap_ite_singleton _ _ _)
  case sdcmr => simp [wordsTo_configFlow]
  case sdrtr =>
    exact (words rfl fun e => by simp [wordsTo_configFlow]).trans List.map_eq_flatMap.symm
  case barriers =>
    simpa [barriersOf, List.count_eq_length_filter, Nat.mul_comm] using congrArg List.length hbarriers
  case reads =>
    have hlen : ((answersFrom .sdsr s.trace).filter (!busyBit ·)).length = 5 * (sdUsed s.cfg).length := by
      simpa [readyMarks, Nat.mul_comm] using congrArg List.length hready
    exact hlen.ge.trans (List.length_filter_le ..)

/-! ### The delay counter -/

/-- One cycle of S_DELAY inside the counter's range (R179; 60_exceptions.md R236: it does not wrap). -/
theorem execDelay_eq {s : State} (us : Nat) (h0 : 0 < s.dcnt) (h1 : s.dcnt ≤ 200 * s.par.cyclesPerUs) :
    execDelay us s = .next (if s.dcnt = 1
      then emit (.delay us) (goto .sBarrier { s with dcnt := 0 }) else { s with dcnt := s.dcnt - 1 }) := by
  have hone : s.dcnt - 1 = 0 ↔ s.dcnt = 1 := by omega
  simp only [execDelay, dcntLess_eq h0 h1, hone]

theorem activity_sDelay {s : State} (hst : s.st = .sDelay) (hk : s.k.toNat < 4) :
    activity s = .issue (.delay (delayUs s.k.toNat)) := by
  have hne : delayUs s.k.toNat ≠ 0 := (delayUs_pos.2 hk).ne'
  simp only [activity, hst, delayAt, if_neg hne]

/-- S_DELAY requests no transaction, whatever `k` is. -/
theorem request_sDelay {s : State} (hst : s.st = .sDelay) : request s = none := by
  refine Option.eq_none_iff_forall_ne_some.2 fun x hx => ?_
  obtain ⟨i, ha, hi⟩ := request_issue hx
  simp only [activity, hst] at ha
  rw [delayAt_issue ha] at hi
  cases hi

/-- One step in S_DELAY under the invariant. -/
theorem step_sDelay_eq {s : State} (hs : SeqInv s) (hr : (pins s).rst = false) (hst : s.st = .sDelay) :
    step s = .next (if s.dcnt = 1
      then emit (.delay (delayUs s.k.toNat)) (goto .sBarrier { tick s with dcnt := 0 })
      else { tick s with dcnt := s.dcnt - 1 }) := by
  obtain ⟨hpos, hle⟩ := hs.delay hst
  have hk : s.k.toNat < 4 :=
    delayUs_pos.1 (Nat.pos_of_mul_pos_right (hpos.trans_le hle))
  rw [step_of_issue hr (activity_sDelay hst hk)]
  exact execDelay_eq (s := tick s) _ hpos hs.dcntFits

/-- While the counter lasts, the FSM stays in S_DELAY and only counts. -/
theorem steps_sDelay {s : State} (hs : SeqInv s) (hn : NoReset s) (hst : s.st = .sDelay) {n : Nat}
    (h : n < s.dcnt) : ∃ t, steps n s = .next t ∧ SeqInv t ∧ NoReset t ∧ t.st = .sDelay ∧
      t.k = s.k ∧ t.dcnt = s.dcnt - n ∧ t.trace = s.trace := by
  induction n with
  | zero => exact ⟨s, rfl, hs, hn, hst, rfl, rfl, rfl⟩
  | succ n ih =>
    obtain ⟨t, ht, hts, htn, htst, htk, htd, httr⟩ := ih (Nat.lt_of_succ_lt h)
    obtain ⟨hr, hnext⟩ := htn.tail
    have hstep : step t = .next { tick t with dcnt := t.dcnt - 1 } := by
      rw [step_sDelay_eq hts hr htst, if_neg (by omega)]
    exact ⟨_, (steps_succ n ht).trans hstep, registerInvariantKept _ _ hts hstep, hnext _ rfl, htst, htk,
      by simp only [htd, Nat.sub_sub], httr⟩

/-- Settles O55: the counter falls by one a cycle, and the cycle that finds it at 1 ends the delay. -/
theorem delayLastsExactly : Obligations.DelayLastsExactly := by
  intro s hs hn hst
  refine ⟨fun n h => ?_, ?_⟩
  · obtain ⟨t, ht, -, -, htst, -, htd, httr⟩ := steps_sDelay hs hn hst h
    exact ⟨t, ht, htst, htd, busPort_noRequest (request_sDelay htst), httr⟩
  · obtain ⟨hpos, -⟩ := hs.delay hst
    obtain ⟨m, hm⟩ := Nat.exists_eq_succ_of_ne_zero hpos.ne'
    obtain ⟨t, ht, hts, htn, htst, htk, htd, httr⟩ := steps_sDelay hs hn hst (n := m) (by omega)
    have hlast : step t =
        .next (emit (.delay (delayUs s.k.toNat)) (goto .sBarrier { tick t with dcnt := 0 })) := by
      rw [step_sDelay_eq hts htn.tail.1 htst, if_pos (by omega), htk]
    rw [hm]
    exact ⟨_, (steps_succ m ht).trans hlast, rfl, rfl, by simp [httr]⟩

/-- The delays of the four commands that have one (30_encoding.md R97). -/
theorem delayUs_toNat {k : BitVec 3} (hk : k.toNat < 4) :
    delayUs k.toNat = if k = 0 then 200 else 100 := by
  revert k; decide

/-- Settles O17, by the one cycle of S_DELAY in range. -/
theorem delayCounts : Obligations.DelayCounts := by
  refine ⟨fun s hst hk => by rw [activity_sDelay hst hk, delayUs_toNat hk], fun us s h0 h1 => ?_⟩
  have hexec : exec (.delay us) s = _ := execDelay_eq us h0 h1
  by_cases hd : s.dcnt = 1
  · rw [if_pos hd] at hexec
    exact ⟨_, hexec, readByte_congr rfl rfl, rfl, fun hlt => absurd hd hlt.ne', fun _ => ⟨rfl, rfl⟩⟩
  · rw [if_neg hd] at hexec
    exact ⟨_, hexec, readByte_congr rfl rfl, rfl, fun _ => ⟨rfl, rfl⟩, fun h => absurd h hd⟩

/-! ### The states that follow a state -/

/-- Where one cycle without reset can lead from a state, besides staying there (10_state.md R21). -/
def successors : Fsm → List Fsm
  | .idle => [.validate]
  | .validate => [.done, .nRdBcr, .gRdOff, .sWrSdcr1]
  | .nRdBcr => [.nWrBcr]
  | .nWrBcr => [.nWrBtr]
  | .nWrBtr => [.nWrBwtr]
  | .nWrBwtr => [.nWrBcrEn]
  | .nWrBcrEn => [.nNext]
  | .nNext => [.nRdBcr, .done]
  | .gRdOff => [.gWrOff]
  | .gWrOff => [.sWrSdcr1]
  | .sWrSdcr1 => [.sWrSdcr2, .sWrSdtr1]
  | .sWrSdcr2 => [.sWrSdtr1]
  | .sWrSdtr1 => [.sWrSdtr2, .sWrCmd]
  | .sWrSdtr2 => [.sWrCmd]
  | .sWrCmd => [.sDelay, .sBarrier]
  | .sDelay => [.sBarrier]
  | .sBarrier => [.sPoll]
  | .sPoll => [.sWrCmd, .sWrSdrtr, .fatal]
  | .sWrSdrtr => [.sNext]
  | .sNext => [.sWrSdcr1, .gRdOn, .done]
  | .gRdOn => [.gWrOn]
  | .gWrOn => [.done]
  | .done => [.validate]
  | .fatal => []

theorem step_successors {s t : State} (hr : (pins s).rst = false) (h : step s = .next t) :
    t.st = s.st ∨ t.st ∈ successors s.st := by
  have bus {b : Bool} {u : State} (hcyc : (b = true ∧ t = u) ∨ (b = false ∧ t = replied s))
      (hu : u.st = s.st ∨ u.st ∈ successors s.st) : t.st = s.st ∨ t.st ∈ successors s.st :=
    of_busCycle (P := fun x => x.st = s.st ∨ x.st ∈ successors s.st) hcyc hu (.inl rfl)
  cases hst : s.st <;> simp only [hst] at bus
  case idle | done =>
    cases (step_awaiting hr (by simp [hst])).symm.trans h
    rcases hostStart_cases (pins s) (tick s) with ⟨-, ht⟩ | ⟨-, -, ht⟩ | ⟨-, -, ht⟩ <;>
      simp [ht, successors, hst]
  case validate =>
    cases he : s.ent with
    | nor =>
      rcases step_validate_nor hr hst he h with ⟨-, rfl⟩ | ⟨-, -, rfl⟩ | ⟨-, -, rfl⟩ <;> simp [successors]
    | sdram =>
      rcases step_validate_sdram hr hst he h with ⟨-, rfl⟩ | ⟨-, -, rfl⟩ | ⟨-, -, rfl⟩
      · simp [successors]
      · simp [successors]
      · cases gateEn s.cfg <;> simp [successors]
  case fatal => exact .inl ((congrArg State.st (step_fatal hr hst h)).trans hst)
  case nRdBcr => exact bus (step_nRdBcr hr hst h) (by simp [successors])
  case nWrBcr => exact bus (step_nWrBcr hr hst h) (by simp [successors])
  case nWrBtr => exact bus (step_nWrBtr hr hst h) (by simp [successors])
  case nWrBwtr => exact bus (step_nWrBwtr hr hst h) (by simp [successors])
  case nWrBcrEn => exact bus (step_nWrBcrEn hr hst h) (by simp [successors])
  case nNext =>
    rw [step_nNext hr hst h]
    rcases norNext_cases (tick s) with ⟨-, ht⟩ | ⟨-, ht⟩ <;> simp [ht, successors]
  case gRdOff => exact bus (step_gRdOff hr hst h) (by simp [successors])
  case gWrOff => exact bus (step_gWrOff hr hst h) (by simp [successors])
  case gRdOn => exact bus (step_gRdOn hr hst h) (by simp [successors])
  case gWrOn => exact bus (step_gWrOn hr hst h) (by simp [successors])
  case sWrSdcr1 =>
    obtain ⟨e, -, hcyc⟩ := step_sWrSdcr1 hr hst h
    exact bus hcyc (by cases e.slot <;> simp [successors])
  case sWrSdcr2 =>
    obtain ⟨e, -, hcyc⟩ := step_sWrSdcr2 hr hst h
    exact bus hcyc (by simp [successors])
  case sWrSdtr1 =>
    obtain ⟨e, -, hcyc⟩ := step_sWrSdtr1 hr hst h
    exact bus hcyc (by cases e.slot <;> simp [successors])
  case sWrSdtr2 =>
    obtain ⟨e, -, hcyc⟩ := step_sWrSdtr2 hr hst h
    exact bus hcyc (by simp [successors])
  case sWrCmd =>
    obtain ⟨e, -, hcyc⟩ := step_sWrCmd hr hst h
    refine bus hcyc (.inr ?_)
    rw [afterCommand_st]
    split <;> simp [successors]
  case sDelay =>
    obtain ⟨-, ⟨-, rfl⟩ | ⟨-, rfl⟩⟩ := step_sDelay hr hst h
    · simp [successors]
    · exact .inl hst
  case sBarrier => simp [step_sBarrier hr hst h, successors]
  case sPoll =>
    refine bus (step_sPoll hr hst h) ?_
    rcases afterPoll_cases (stepReply s).rdata
      (emit (.rd .sdsr (addrOf s.cfg .sdsr) (stepReply s).rdata) (replied s)) with
      ⟨-, -, ht⟩ | ⟨-, -, ht⟩ | ⟨-, -, ht⟩ | ⟨-, -, -, ht⟩ | ⟨-, -, -, ht⟩ <;> simp [ht, successors]
  case sWrSdrtr =>
    obtain ⟨e, -, hcyc⟩ := step_sWrSdrtr hr hst h
    exact bus hcyc (by simp [successors])
  case sNext =>
    rw [step_sNext hr hst h]
    rcases sdNext_cases (tick s) with ⟨-, ht⟩ | ⟨-, -, ht⟩ | ⟨-, -, ht⟩ <;> simp [ht, successors]

/-- A state other than IDLE is entered from one that it follows (a reset leads to IDLE). -/
theorem entered_from {s t : State} {u : Fsm} (h : step s = .next t) (ht : t.st = u) (hs : s.st ≠ u)
    (hu : u ≠ .idle) : (pins s).rst = false ∧ u ∈ successors s.st := by
  subst ht
  cases hr : (pins s).rst with
  | true =>
    cases (step_rst hr).symm.trans h
    exact absurd rfl hu
  | false => exact ⟨rfl, (step_successors hr h).resolve_left (Ne.symm hs)⟩

/-! ### The elements of an SDRAM run -/

section
variable {s : State} {e : SdEntry}

theorem activity_sdEntry {f : SdEntry → Activity} (ha : activity s = issueSd s f)
    (he : sdEntry s = some e) : activity s = f e := by
  rw [ha, issueSd, he]

/-- With a current entry `bySlot` is a choice by its slot. -/
theorem bySlot_entry (he : sdEntry s = some e) (f g : State → Result) :
    bySlot s f g = if e.slot = .slot2 then g s else f s := by
  simp only [bySlot, he]
  cases e.slot <;> rfl

/-- An acknowledged write, and what its rule then does to the registers. -/
theorem write_done {r : Reg} {w a : Word} {f : State → State} {regs : SeqRegs}
    (hack : (reply s).ack = true) (hadr : addrOf s.cfg r = a) (hf : ∀ u, KeepsBlock u (f u))
    (hregs : regsOf (f (performWrite r w (takeReply s))) = regs) :
    ∃ t, busWrite r w f s = .next t ∧ WriteDone s t r a w ∧ regsOf t = regs := by
  have h := busWrite_ack r w f hack
  subst hadr
  exact ⟨_, h, (busOutcome_write hf h).writeDone hack, hregs⟩

/-- The last configuration write of an entry starts its commands (R176, R177). -/
theorem write_startCommands_done {r : Reg} {w a : Word} (hack : (reply s).ack = true)
    (hadr : addrOf s.cfg r = a) : ∃ t, busWrite r w startCommands s = .next t ∧ WriteDone s t r a w ∧
      regsOf t = { regsOf s with k := 0, st := .sWrCmd } :=
  write_done hack hadr (fun _ => ⟨rfl, rfl, rfl, rfl, rfl⟩) rfl

/-- Command `k`: its delay is loaded, and it goes to S_DELAY where there is one to count (R178). -/
theorem issueCommand_done {k : Nat} {slot : Slot} {cas : BitVec 2} {w : Word} {d : Nat} {u : Fsm}
    (hack : (reply s).ack = true) (hw : cmdWord k slot cas = w) (hd : delayUs k * s.par.cyclesPerUs = d)
    (hu : (if d > 0 then Fsm.sDelay else .sBarrier) = u) :
    ∃ t, issueCommand k slot cas s = .next t ∧ WriteDone s t .sdcmr (s.cfg.base + 0x150) w ∧
      regsOf t = { regsOf s with dcnt := d, st := u } := by
  subst hw hd hu
  exact write_done hack rfl (fun _ => ⟨rfl, rfl, rfl, rfl, rfl⟩) rfl

end

/-- Settles O14: S_WR_SDCR2 follows S_WR_SDCR1 alone, whose write goes there for a slot-2 entry. -/
theorem sdramWriteControl : Obligations.SdramWriteControl := by
  refine ⟨fun s e hst he => activity_sdEntry (f := fun e => .issue (.sdWrSdcr1 e.ctrl))
      (by simp only [activity, hst]) he,
    fun c s e he hack => ?_,
    fun s e hst he => activity_sdEntry (f := fun e => .issue (.sdWrSdcr2 e.ctrl.toReduced))
      (by simp only [activity, hst]) he,
    fun c s hack => write_goto_done hack rfl, fun s t h ht hs => ?_⟩
  · rw [exec, execSdWrSdcr1, bySlot_entry he]
    split
    · exact write_goto_done hack rfl
    · exact write_goto_done hack rfl
  · obtain ⟨hr, hfrom⟩ := entered_from h ht hs nofun
    have hst : s.st = .sWrSdcr1 := by
      revert hfrom; cases s.st <;> simp [successors]
    obtain ⟨e, he, ⟨-, rfl⟩ | ⟨-, rfl⟩⟩ := step_sWrSdcr1 hr hst h
    · refine ⟨e, he, ?_⟩
      cases hsl : e.slot with
      | slot1 => simp [hsl] at ht
      | slot2 => rfl
    · exact absurd ht hs

/-- Settles O15, by the two slots of S_WR_SDTR1. -/
theorem sdramWriteTiming : Obligations.SdramWriteTiming := by
  refine ⟨fun s e hst he => activity_sdEntry (f := fun e => .issue (.sdWrSdtr1 e.timing))
      (by simp only [activity, hst]) he,
    fun m s e he hack => ?_,
    fun s e hst he => activity_sdEntry (f := fun e => .issue (.sdWrSdtr2 e.timing))
      (by simp only [activity, hst]) he,
    fun m s hack => write_startCommands_done hack rfl⟩
  rw [exec, execSdWrSdtr1, bySlot_entry he]
  cases e.slot with
  | slot1 =>
    obtain ⟨t, ht, hw, hregs⟩ :=
      write_startCommands_done (r := .sdtr1) (w := sdtrWord m) (a := s.cfg.base + 0x148) hack rfl
    exact ⟨t, ht, hw, nofun, fun _ => hregs⟩
  | slot2 =>
    obtain ⟨t, ht, hw, hregs⟩ :=
      write_goto_done (r := .sdtr1) (w := sdtrWord m) (a := s.cfg.base + 0x148) (u := .sWrSdtr2) hack rfl
    exact ⟨t, ht, hw, fun _ => hregs, nofun⟩

/-- The five words of 41_sdram_encoder.md R154. -/
theorem cmdWord_values (slot : Slot) (cas : BitVec 2) :
    cmdWord 0 slot 0 = ctb slot ||| 0x00000001 ∧ cmdWord 1 slot 0 = ctb slot ||| 0x00000002 ∧
    cmdWord 2 slot 0 = ctb slot ||| 0x000000E3 ∧
    cmdWord 3 slot cas = ctb slot ||| 0x00000004 ||| zext cas <<< 13 ∧ cmdWord 4 slot 0 = ctb slot := by
  revert cas
  cases slot <;> decide

/-- Settles O16: each command is `issueCommand` with its word and its delay. -/
theorem sdramCommands : Obligations.SdramCommands := by
  refine ⟨fun s e hst he => ?_, fun s slot cas hack hcyc => ?_⟩
  · have ha : activity s = commandAt s.k.toNat e :=
      activity_sdEntry (f := commandAt s.k.toNat) (by simp only [activity, hst]) he
    rw [ha]
    refine ⟨?_, ?_, ?_, ?_, ?_⟩ <;> intro hk <;> rw [hk] <;> rfl
  · obtain ⟨h0, h1, h2, h3, h4⟩ := cmdWord_values slot cas
    have hdelay {us : Nat} (hus : 0 < us) :
        (if us * s.par.cyclesPerUs > 0 then Fsm.sDelay else .sBarrier) = .sDelay :=
      if_pos (Nat.mul_pos hus hcyc)
    exact ⟨issueCommand_done hack h0 rfl (hdelay (by decide)),
      issueCommand_done hack h1 rfl (hdelay (by decide)), issueCommand_done hack h2 rfl (hdelay (by decide)),
      issueCommand_done hack h3 rfl (hdelay (by decide)),
      issueCommand_done hack h4 (Nat.zero_mul _) rfl⟩

/-- S_WR_CMD goes on with one of the five commands (10_state.md R23). -/
theorem step_sWrCmd_le {s t : State} (hr : (pins s).rst = false) (hst : s.st = .sWrCmd)
    (h : step s = .next t) : s.k.toNat ≤ 4 := by
  obtain ⟨e, -, ha⟩ := activity_sd hr (f := commandAt s.k.toNat) (by simp only [activity, hst]) h
  by_contra hk
  obtain ⟨n, hn⟩ : ∃ n, s.k.toNat = n + 5 := ⟨s.k.toNat - 5, by omega⟩
  rw [hn] at ha
  simp [step, hr, ha, commandAt] at h

/-- An acknowledged command goes to S_DELAY, and only NORMAL to S_BARRIER (R178). -/
theorem step_sWrCmd_ack {s t : State} (hr : (pins s).rst = false) (hcyc : 0 < s.par.cyclesPerUs)
    (hst : s.st = .sWrCmd) (hack : (stepReply s).ack = true) (h : step s = .next t) :
    t.st = if s.k = 4 then .sBarrier else .sDelay := by
  have hk := step_sWrCmd_le hr hst h
  obtain ⟨e, -, ⟨-, rfl⟩ | ⟨hwait, -⟩⟩ := step_sWrCmd hr hst h
  · by_cases h4 : s.k = 4
    · simp [h4, delayUs]
    · have hlt : s.k.toNat < 4 := lt_of_le_of_ne hk fun h => h4 (BitVec.eq_of_toNat_eq h)
      rw [if_neg h4]
      exact if_pos (Nat.mul_pos (delayUs_pos.2 hlt) hcyc)
  · rw [hack] at hwait
    cases hwait

/-- Settles O18: S_BARRIER follows S_WR_CMD and S_DELAY alone. -/
theorem barrierCycle : Obligations.BarrierCycle := by
  refine ⟨fun s hst => ?_, fun s => ⟨_, rfl, readByte_congr rfl rfl, rfl, rfl, rfl⟩, fun s t h ht hs => ?_,
    fun s t hr hcyc h => ⟨fun hst hack => step_sWrCmd_ack hr hcyc hst hack h, fun hst => ?_⟩⟩
  · have ha : activity s = .issue .barrier := by simp only [activity, hst]
    exact ⟨ha, busPort_noRequest (by simp only [request, ha, Instr.action])⟩
  · obtain ⟨-, hfrom⟩ := entered_from h ht hs nofun
    revert hfrom
    cases s.st <;> simp [successors]
  · simpa [hst, successors] using step_successors hr h

/-! ### What an answer of SDSR does, case by case -/

section
variable {s : State} {v : Word}

theorem afterPoll_ready (hv : busyBit v = false) : afterPoll v s = advance s := by simp [afterPoll, hv]

theorem advance_command (hk : s.k.toNat < 4) : advance s = goto .sWrCmd { s with k := s.k + 1 } := if_pos hk

theorem advance_refresh (hk : 4 ≤ s.k.toNat) : advance s = goto .sWrSdrtr s := if_neg hk.not_gt

theorem afterPoll_unbounded (hv : busyBit v = true) (hp : s.par.pollTimeout = 0) :
    afterPoll v s = goto .sPoll s := by simp [afterPoll, hv, hp]

theorem afterPoll_timeout (hv : busyBit v = true) (hp : 0 < s.par.pollTimeout)
    (hc : s.pcnt + 1 = s.par.pollTimeout) : afterPoll v s = raiseEtimeout s := by
  simp [afterPoll, hv, hp, hc]

theorem afterPoll_counts (hv : busyBit v = true) (hp : 0 < s.par.pollTimeout)
    (hc : s.pcnt + 1 ≠ s.par.pollTimeout) : afterPoll v s = goto .sPoll { s with pcnt := s.pcnt + 1 } := by
  simp [afterPoll, hv, hp, hc]

end

/-- The state in S_POLL's cycle with the answer in the trace, before its rule. -/
def polled (s : State) : State := emit (.rd .sdsr (addrOf s.cfg .sdsr) (reply s).rdata) (takeReply s)

/-- Settles O19, by the case of each answer. -/
theorem pollAnswer : Obligations.PollAnswer := by
  refine ⟨fun s hst => by simp only [activity, hst], fun s hack => ?_⟩
  have h : exec .sdRdSdsr s = .next (afterPoll (reply s).rdata (polled s)) :=
    busRead_ack .sdsr afterPoll hack
  refine ⟨_, h, (exec_bus rfl h).readDone hack, fun hb hk => ?_, fun hb hk => ?_, fun hb hp => ?_,
    fun hb hp hc => ?_, fun hb hp hc => ?_⟩
  · rw [afterPoll_ready hb, advance_command (s := polled s) hk]; rfl
  · rw [afterPoll_ready hb, advance_refresh (s := polled s) hk]; rfl
  · rw [afterPoll_unbounded (s := polled s) hb hp]; rfl
  · rw [afterPoll_timeout (s := polled s) hb hp hc]; rfl
  · rw [afterPoll_counts (s := polled s) hb hp hc]; rfl

/-- Settles O20: the element carries `ref_count[30:0]`, all that the doubled word holds of it. -/
theorem refreshTimer : Obligations.RefreshTimer :=
  ⟨fun _ e hst he => ⟨e.refCount.setWidth 31,
      activity_sdEntry (f := fun e => .issue (.sdWrSdrtr (e.refCount.setWidth 31)))
        (by simp only [activity, hst]) he,
      sdrtrWord_low e.refCount⟩,
    fun _ _ hack => write_goto_done hack rfl⟩

/-- A configuration without SDRAM entries is valid for an SDRAM run (R172, R173). -/
theorem sdInvalid_of_count_zero {c : Cfg} (h : c.sdCount = 0) : sdInvalid c = false := by
  simp [sdInvalid, sdUsed, h]

/-- Settles O21, by the things VALIDATE can do in an SDRAM run. -/
theorem sdramValidation : Obligations.SdramValidation := by
  intro s hst he hr
  have hstep : step s = .next (validate (tick s)) := by simp [step, hr, activity, hst]
  have hx : request s = none := by simp [request, activity, hst]
  refine ⟨_, hstep, ?_⟩
  rcases step_validate_sdram hr hst he hstep with ⟨hv, ht⟩ | ⟨hv, hn, ht⟩ | ⟨hv, hn, ht⟩ <;> rw [ht]
  · refine ⟨quietCycle_of hx rfl rfl rfl, fun _ => rfl, fun h0 => ?_, by simp [hv], by simp [hv]⟩
    simp [sdInvalid_of_count_zero h0] at hv
  · exact ⟨quietCycle_of hx rfl rfl rfl, by simp [hv], fun _ => rfl, fun _ h0 => absurd hn h0,
      fun _ h0 => absurd hn h0⟩
  · refine ⟨quietCycle_of hx rfl rfl rfl, by simp [hv], fun h0 => by simp [h0] at hn,
      fun _ _ hfam => ?_, fun _ _ hfam => ?_⟩
    · rw [if_pos ((gateEn_iff s.cfg).2 hfam)]; rfl
    · rw [if_neg (mt (gateEn_iff s.cfg).1 hfam)]; rfl

end Sys2Proof.Machine

/-! Proofs of the statements about the controller enable gate (spec/43_enable_gate.md). -/

namespace Sys2Proof.Machine

/-! ### The elements of the gate -/

/-- BCR1 stands at the base (20_memory.md R80). -/
theorem addrOf_bcr1 (c : Cfg) : addrOf c (.bcr 0) = c.base := by simp [addrOf, Reg.offset]

/-- An acknowledged read whose rule latches the answer and moves on. -/
theorem read_latch_done {s : State} {r : Reg} {a : Word} {u : Fsm} (hack : (reply s).ack = true)
    (hadr : addrOf s.cfg r = a) :
    ∃ t, busRead r (fun v x => goto u (latch v x)) s = .next t ∧ ReadDone s t r a ∧
      regsOf t = { regsOf s with st := u, rmw := (reply s).rdata } := by
  have h := busRead_ack r (fun v x => goto u (latch v x)) hack
  subst hadr
  refine ⟨_, h, ?_, rfl⟩
  exact (busOutcome_read (f := fun v x => goto u (latch v x))
    (fun _ _ => ⟨rfl, rfl, rfl, rfl, rfl⟩) h).readDone hack

/-- G_RD_OFF follows VALIDATE alone, in a valid SDRAM run with entries on FAM_GATED (R210). -/
theorem gRdOff_entered {s t : State} (h : step s = .next t) (ht : t.st = .gRdOff)
    (hs : s.st ≠ .gRdOff) : s.st = .validate ∧ s.ent = .sdram ∧ sdInvalid s.cfg = false ∧
      1 ≤ s.cfg.sdCount.toNat ∧ s.cfg.family = 2 := by
  obtain ⟨hr, hfrom⟩ := entered_from h ht hs nofun
  have hst : s.st = .validate := by
    revert hfrom; cases s.st <;> simp [successors]
  refine ⟨hst, ?_⟩
  cases he : s.ent with
  | nor =>
    rcases step_validate_nor hr hst he h with ⟨-, rfl⟩ | ⟨-, -, rfl⟩ | ⟨-, -, rfl⟩ <;> cases ht
  | sdram =>
    rcases step_validate_sdram hr hst he h with ⟨-, rfl⟩ | ⟨-, -, rfl⟩ | ⟨hv, hn, rfl⟩
    · cases ht
    · cases ht
    · refine ⟨rfl, hv, hn, (gateEn_iff _).1 ?_⟩
      by_contra hg
      simp [hg] at ht

/-- G_RD_ON follows S_NEXT alone, after the last entry on FAM_GATED (42_sdram_sequencer.md R184). -/
theorem gRdOn_entered {s t : State} (h : step s = .next t) (ht : t.st = .gRdOn)
    (hs : s.st ≠ .gRdOn) : s.st = .sNext ∧ s.cfg.sdCount.toNat ≤ s.i.toNat + 1 ∧
      s.cfg.family = 2 := by
  obtain ⟨hr, hfrom⟩ := entered_from h ht hs nofun
  have hst : s.st = .sNext := by
    revert hfrom; cases s.st <;> simp [successors]
  rw [step_sNext hr hst h] at ht
  rcases sdNext_cases (tick s) with ⟨-, hn⟩ | ⟨hle, hg, -⟩ | ⟨-, -, hn⟩
  · rw [hn] at ht; cases ht
  · exact ⟨hst, hle, (gateEn_iff _).1 hg⟩
  · rw [hn] at ht; cases ht

/-- Settles O11: the element keeps bits 30:0 of `rmw`, which clears bit 31. -/
theorem gateOff : Obligations.GateOff :=
  ⟨fun _ hst => by simp only [activity, hst], fun s hack => read_latch_done hack (addrOf_bcr1 s.cfg),
    fun _ _ => gRdOff_entered,
    fun s hst => ⟨kept s, by simp only [activity, hst], zext_kept s.rmw⟩,
    fun _ s hack => write_done (f := fun u => goto .sWrSdcr1 (firstEntry u)) hack (addrOf_bcr1 s.cfg)
      (fun _ => ⟨rfl, rfl, rfl, rfl, rfl⟩) rfl⟩

/-- Settles O12: the element keeps bits 30:0 of `rmw`, and its write sets bit 31. -/
theorem gateOn : Obligations.GateOn :=
  ⟨fun _ hst => by simp only [activity, hst], fun s hack => read_latch_done hack (addrOf_bcr1 s.cfg),
    fun _ _ => gRdOn_entered,
    fun s hst => ⟨kept s, by simp only [activity, hst], zext_kept_fmcen s.rmw⟩,
    fun _ s hack => write_done hack (addrOf_bcr1 s.cfg) (fun _ => ⟨rfl, rfl, rfl, rfl, rfl⟩) rfl⟩

/-- G_RD_ON requests the read of BCR1 (R213). -/
theorem request_gRdOn {s : State} (hst : s.st = .gRdOn) :
    request s = some { we := false, reg := .bcr 0, data := 0 } := by
  have ha : activity s = .issue .gateRdOn := by simp only [activity, hst]
  simp only [request, ha, Instr.action, Action.read]

/-- Settles O13: the latch takes the word of the block, and the write that follows puts it back with
bit 31 set. -/
theorem gateOnPlainRegister : Obligations.GateOnPlainRegister := by
  intro s u t hst hr hr' hplain hack h hack' h'
  have hread : (stepReply s).rdata = readWord s (addrOf s.cfg (.bcr 0)) :=
    hplain 0 (request_gRdOn (s := tick s) hst)
  obtain ⟨-, hu⟩ | ⟨hwait, -⟩ := step_gRdOn hr hst h
  · have hust : u.st = .gWrOn := by rw [hu]; rfl
    have hcfg : u.cfg = s.cfg := by rw [hu]; rfl
    have hrmw : u.rmw = (stepReply s).rdata := by rw [hu]; rfl
    obtain ⟨-, rfl⟩ | ⟨hwait, -⟩ := step_gWrOn hr' hust h'
    · refine ⟨rfl, rfl, ?_⟩
      calc readWord _ _ = zext (kept u) ||| fmcen := readWord_writeWord (s := replied u) _ _ rfl
        _ = u.rmw ||| 0x80000000 := zext_kept_fmcen u.rmw
        _ = _ := by rw [hrmw, hread]
    · simp [hack'] at hwait
  · simp [hack] at hwait

/-! ### The plain families -/

/-- The state with another controller family in its configuration. -/
def withFamily (v : BitVec 2) (s : State) : State := { s with cfg := { s.cfg with family := v } }

section
variable {v : BitVec 2} {s t : State}

theorem busWrite_withFamily {r : Reg} {w : Word} {f : State → State}
    (ht : busWrite r w f s = .next t) (hf : ∀ u, f (withFamily v u) = withFamily v (f u)) :
    busWrite r w f (withFamily v s) = .next (withFamily v t) := by
  rcases busWrite_cases ht with ⟨ha, rfl⟩ | ⟨ha, rfl⟩
  · rw [← hf]; exact busWrite_ack (s := withFamily v s) r w f ha
  · exact busWrite_wait (s := withFamily v s) r w f ha

theorem busRead_withFamily {r : Reg} {f : Word → State → State}
    (ht : busRead r f s = .next t) (hf : ∀ a u, f a (withFamily v u) = withFamily v (f a u)) :
    busRead r f (withFamily v s) = .next (withFamily v t) := by
  rcases busRead_cases ht with ⟨ha, rfl⟩ | ⟨ha, rfl⟩
  · rw [← hf]; exact busRead_ack (s := withFamily v s) r f ha
  · exact busRead_wait (s := withFamily v s) r f ha

theorem bySlot_withFamily {f g : State → Result} (ht : bySlot s f g = .next t)
    (hf : f s = .next t → f (withFamily v s) = .next (withFamily v t))
    (hg : g s = .next t → g (withFamily v s) = .next (withFamily v t)) :
    bySlot (withFamily v s) f g = .next (withFamily v t) := by
  obtain ⟨e, he, hx⟩ := bySlot_cases ht
  rw [bySlot_entry (s := withFamily v s) he]
  rcases hx with ⟨hs, ht⟩ | ⟨hs, ht⟩
  · simpa [hs] using hf ht
  · simpa [hs] using hg ht

theorem afterPoll_withFamily (a : Word) (u : State) :
    afterPoll a (withFamily v u) = withFamily v (afterPoll a u) := by
  have hadv : advance (withFamily v u) = withFamily v (advance u) := by
    rw [advance, advance, apply_ite (withFamily v)]; rfl
  rw [afterPoll, afterPoll, hadv]
  split
  · rw [apply_ite (withFamily v), apply_ite (withFamily v)]; rfl
  · rfl

/-- No element looks at the family: the gate is chosen in VALIDATE and S_NEXT (R210). -/
theorem exec_withFamily {i : Instr} (ht : exec i s = .next t) :
    exec i (withFamily v s) = .next (withFamily v t) := by
  cases i with
  | norRdBcr | gateRdOff | gateRdOn =>
    exact busRead_withFamily (f := fun a u => goto _ (latch a u)) ht fun _ _ => rfl
  | sdRdSdsr => exact busRead_withFamily ht afterPoll_withFamily
  | gateWrOff =>
    exact busWrite_withFamily (f := fun u => goto .sWrSdcr1 (firstEntry u)) ht fun _ => rfl
  | sdWrSdcr1 | sdWrSdtr1 =>
    exact bySlot_withFamily ht (busWrite_withFamily · fun _ => rfl) (busWrite_withFamily · fun _ => rfl)
  | norWrBcr | norWrBtr | norWrBwtr | norWrBcrEn | sdWrSdcr2 | sdWrSdtr2 | cmdStartClock
  | cmdPrecharge | cmdAutoRefresh | cmdWriteMode | cmdNormal | sdWrSdrtr | gateWrOn =>
    exact busWrite_withFamily ht fun _ => rfl
  | delay us =>
    simp only [exec, execDelay] at ht ⊢
    injection ht with ht
    rw [← ht, apply_ite (withFamily v)]
    rfl
  | barrier => cases ht; rfl

/-- A plain family: neither the gated one nor the reserved code (10_state.md R31). -/
def PlainFamily (v : BitVec 2) : Prop := v ≠ 2 ∧ v ≠ 3

theorem gateEn_plain (h : PlainFamily s.cfg.family) : gateEn s.cfg = false := by
  simpa using mt (gateEn_iff s.cfg).1 h.1

theorem sdInvalid_withFamily (hv : PlainFamily v) (hs : PlainFamily s.cfg.family) :
    sdInvalid (withFamily v s).cfg = sdInvalid s.cfg := by
  have h3 : (s.cfg.family == 3) = (v == 3) := by rw [beq_false_of_ne hv.2, beq_false_of_ne hs.2]
  simp only [sdInvalid, h3]
  rfl

theorem validate_withFamily (hv : PlainFamily v) (hs : PlainFamily s.cfg.family) :
    validate (withFamily v s) = withFamily v (validate s) := by
  have hn : validateNor (withFamily v s) = withFamily v (validateNor s) := by
    rw [validateNor, validateNor, apply_ite (withFamily v), apply_ite (withFamily v)]; rfl
  have hd : validateSdram (withFamily v s) = withFamily v (validateSdram s) := by
    rw [validateSdram, validateSdram, sdInvalid_withFamily hv hs, gateEn_plain hs,
      gateEn_plain (s := withFamily v s) hv, apply_ite (withFamily v), apply_ite (withFamily v)]
    rfl
  have he : (withFamily v s).ent = s.ent := rfl
  rw [validate, validate, hn, hd, he]
  cases s.ent <;> rfl

theorem sdNext_withFamily (hv : PlainFamily v) (hs : PlainFamily s.cfg.family) :
    sdNext (withFamily v s) = withFamily v (sdNext s) := by
  rw [sdNext, sdNext, gateEn_plain hs, gateEn_plain (s := withFamily v s) hv, apply_ite (withFamily v)]
  rfl

theorem norNext_withFamily (s : State) : norNext (withFamily v s) = withFamily v (norNext s) := by
  rw [norNext, norNext, apply_ite (withFamily v)]; rfl

/-- In a run a step commutes with a change from one plain family to another (R215). -/
theorem step_withFamily (hv : PlainFamily v) (hs : PlainFamily s.cfg.family)
    (hr : (pins s).rst = false) (hi : s.st ≠ .idle) (hd : s.st ≠ .done) (h : step s = .next t) :
    step (withFamily v s) = .next (withFamily v t) := by
  have hr' : (pins (withFamily v s)).rst = false := hr
  have hact : activity (withFamily v s) = activity s := rfl
  have htick : tick (withFamily v s) = withFamily v (tick s) := rfl
  rcases step_cases h with
    ⟨hr₁, -⟩ | ⟨-, ⟨i, ha, hx⟩ | ⟨ha, -⟩ | ⟨ha, rfl⟩ | ⟨ha, rfl⟩ | ⟨ha, rfl⟩ | ⟨ha, rfl⟩⟩
  · simp [hr] at hr₁
  · rw [step_of_issue hr' (hact.trans ha)]; exact exec_withFamily hx
  · rcases activity_awaitStart ha with h | h <;> contradiction
  · simp [step, hr', hact, ha, htick, validate_withFamily (s := tick s) hv hs]
  · simp [step, hr', hact, ha, htick, norNext_withFamily]
  · simp [step, hr', hact, ha, htick, sdNext_withFamily (s := tick s) hv hs]
  · simp [step, hr', hact, ha, htick]

end

/-- Settles O45: the gate's states are those of FAM_GATED, the other SDRAM states reach SDRAM registers
alone (O41), and nothing else tells the families apart. -/
theorem plainFamiliesAlike : Obligations.PlainFamiliesAlike := by
  have hgate (s : State) (hs : SeqInv s) (hf : s.cfg.family ≠ 2) : inGate s.st = false := by
    by_contra hg
    exact hf ((gateEn_iff _).1 (hs.gate (by simpa using hg)))
  refine ⟨hgate, fun s x hs he hf _ hx => ?_, fun s t hf hr hi hd h => ?_⟩
  · obtain ⟨-, -, hsd, hnor | hg | hst⟩ := registersPerEntry s x hx
    · obtain ⟨hn, -⟩ := hs.nor hnor
      cases he.symm.trans hn
    · simp [hgate s hs hf] at hg
    · exact (hsd hst).1
  · exact step_withFamily (v := 1) (by simp [PlainFamily]) (by simp [PlainFamily, hf]) hr hi hd h

/-! ### The gate around a whole SDRAM run -/

section
variable (c : Cfg) (e : SdEntry) (k : Nat)

theorem configFlow_offNor : (configFlow c e).any onNorReg = false := by
  unfold configFlow; cases e.slot <;> rfl

theorem commandFlow_offNor : (commandFlow c e k).any onNorReg = false := by
  unfold commandFlow; split <;> rfl

theorem pollReads_offNor (vs : List Word) : (pollReads c vs).any onNorReg = false := by
  simp [pollReads, rdElem, onNorReg, regOfNor]

theorem stepsFrom_offNor (ps : List Poll) : (stepsFrom c e k ps).any onNorReg = false := by
  induction ps generalizing k with
  | nil => rfl
  | cons p ps ih => simp [stepsFrom, stepFlow, commandFlow_offNor, pollReads_offNor, ih, onNorReg]

theorem sdEntryFlow_offNor (ps : List Poll) : (sdEntryFlow c e ps).any onNorReg = false := by
  simp [sdEntryFlow, configFlow_offNor, stepsFrom_offNor, wrElem, onNorReg, regOfNor]

end

/-- The entries of an SDRAM run touch no register of the NOR entry (R171). -/
theorem SdFlow.offNor {c : Cfg} {es : List SdEntry} {tr : List TraceElem} (h : SdFlow c es tr) :
    tr.any onNorReg = false := by
  induction h with
  | nil => rfl
  | snoc es tr e ps _ _ ih => rw [List.any_append, ih, sdEntryFlow_offNor, Bool.or_false]

/-- Nor does the part of an entry before a time-out (60_exceptions.md R224). -/
theorem SdPartial.offNor_of_fatal {s : State} {e : SdEntry} {tr : List TraceElem}
    (hst : s.st = .fatal) (h : SdPartial s e tr) : tr.any onNorReg = false := by
  simp only [SdPartial, hst] at h
  obtain ⟨ps, vs, -, -, -, -, rfl⟩ := h
  simp [configFlow_offNor, stepsFrom_offNor, commandFlow_offNor, pollReads_offNor, onNorReg]

theorem opening_of_gated {c : Cfg} {o : List TraceElem} (hf : c.family = 2) (h : Opening c o) :
    ∃ v, o = [.rd (.bcr 0) c.base v, .wr (.bcr 0) c.base (v &&& 0x7FFFFFFF)] := by
  rw [Opening, if_pos ((gateEn_iff c).2 hf)] at h
  simpa only [rdElem, wrElem, addrOf_bcr1] using h

theorem closing_of_gated {c : Cfg} {z : List TraceElem} (hf : c.family = 2) (h : Closing c z) :
    ∃ w, z = [.rd (.bcr 0) c.base w, .wr (.bcr 0) c.base (w ||| 0x80000000)] := by
  rw [Closing, if_pos ((gateEn_iff c).2 hf)] at h
  simpa only [rdElem, wrElem, addrOf_bcr1] using h

theorem sdComplete_of_success {s : State} (hf : TraceFollowsFlow s) (hok : success s = true)
    (he : s.ent = .sdram) (hn : s.cfg.sdCount ≠ 0) : SdComplete s := by
  obtain ⟨hst, herr⟩ : s.st = .done ∧ s.err = .ok := by simpa [success, done] using hok
  have hd : DoneTrace s := (traceFollowsFlow_done hst).1 hf
  simp only [DoneTrace, herr, he] at hd
  obtain ⟨-, -, hsome⟩ := hd
  exact hsome hn

/-- Settles O53: the gate's elements stand around the flow of the entries, which is off the NOR
registers; FATAL lies inside an entry, before the gate's closing. -/
theorem gateWrapsRun : Obligations.GateWrapsRun := by
  intro s _ hf he hfam
  refine ⟨fun hok hn => ?_, fun hfatal => ?_⟩
  · obtain ⟨o, b, z, ho, hb, hz, htr⟩ := sdComplete_of_success hf hok he hn
    obtain ⟨v, rfl⟩ := opening_of_gated hfam ho
    obtain ⟨w, rfl⟩ := closing_of_gated hfam hz
    exact ⟨v, w, b, htr, hb.offNor⟩
  · have hst : s.st = .fatal := by simpa [fatal] using hfatal
    obtain ⟨o, b, tr, e, ho, hb, -, hp, htr⟩ := (traceFollowsFlow_sdEntry (.inr hst)).1 hf
    obtain ⟨v, rfl⟩ := opening_of_gated hfam ho
    refine ⟨v, b ++ tr, by rw [htr, List.append_assoc], ?_⟩
    rw [List.any_append, hb.offNor, hp.offNor_of_fatal hst, Bool.or_false]

end Sys2Proof.Machine

/-! Proofs of the statements about outcomes and exceptions (spec/60_exceptions.md). -/

namespace Sys2Proof.Machine

/-! ### FATAL -/

theorem request_fatal {s : State} (hst : s.st = .fatal) : request s = none := by
  simp [request, activity, hst]

/-- Settles O44: a cycle in FATAL without reset only passes. -/
theorem fatalSticky : Obligations.FatalSticky := by
  intro s hst
  refine ⟨busPort_noRequest (request_fatal hst), by simp [fatal, hst], by simp [done, hst],
    by simp [busy, hst], fun hs => hs.timeout.2 hst,
    fun hr => ⟨tick s, by simp [step, hr, activity, hst], rfl, readByte_congr rfl rfl, rfl⟩,
    fun t h ht => ?_⟩
  cases hr : (pins s).rst with
  | true =>
    cases (step_rst hr).symm.trans h
    exact ⟨rfl, rfl⟩
  | false =>
    rw [step_fatal hr hst h] at ht
    exact absurd hst ht

/-! ### Entering an outcome -/

section
variable {s t : State}

/-- DONE follows VALIDATE, N_NEXT, S_NEXT and G_WR_ON alone (R220). -/
theorem done_entered (h : step s = .next t) (ht : t.st = .done) (hs : s.st ≠ .done) :
    s.st = .validate ∨ s.st = .nNext ∨ s.st = .sNext ∨ (s.st = .gWrOn ∧ (stepReply s).ack = true) := by
  obtain ⟨hr, hfrom⟩ := entered_from h ht hs nofun
  cases hst : s.st <;> simp [hst, successors] at hfrom ⊢
  rcases step_gWrOn hr hst h with ⟨ha, -⟩ | ⟨-, rfl⟩
  · exact ha
  · exact absurd ht hs

/-- FATAL follows S_POLL alone, by the last busy answer that a bounded poll allows (R224). -/
theorem fatal_entered (h : step s = .next t) (ht : t.st = .fatal) (hs : s.st ≠ .fatal) :
    s.st = .sPoll ∧ (stepReply s).ack = true ∧ busyBit (stepReply s).rdata = true ∧
      0 < s.par.pollTimeout ∧ s.pcnt + 1 = s.par.pollTimeout := by
  obtain ⟨hr, hfrom⟩ := entered_from h ht hs nofun
  have hst : s.st = .sPoll := by
    revert hfrom; cases s.st <;> simp [successors]
  rcases step_sPoll hr hst h with ⟨ha, rfl⟩ | ⟨-, rfl⟩
  · rcases afterPoll_cases (stepReply s).rdata
      (emit (.rd .sdsr (addrOf s.cfg .sdsr) (stepReply s).rdata) (replied s)) with
      ⟨-, -, hu⟩ | ⟨-, -, hu⟩ | ⟨-, -, hu⟩ | ⟨hb, hp, hc, -⟩ | ⟨-, -, -, hu⟩
    · rw [hu] at ht; cases ht
    · rw [hu] at ht; cases ht
    · rw [hu] at ht; cases ht
    · exact ⟨hst, ha, hb, hp, hc⟩
    · rw [hu] at ht; cases ht
  · exact absurd ht hs

/-- The configuration is invalid for the entry of the run (R221). -/
def InvalidForEntry (s : State) : Prop :=
  (s.ent = .nor ∧ norInvalid s.cfg = true) ∨ (s.ent = .sdram ∧ sdInvalid s.cfg = true)

/-- Everything a cycle without reset can do to `err` (10_state.md R28). -/
theorem step_err_cases (hr : (pins s).rst = false) (h : step s = .next t) :
    t.err = s.err ∨ t.err = .ok ∨
    (t.err = .einval ∧ s.st = .validate ∧ t.st = .done ∧ InvalidForEntry s) ∨
    (t.err = .etimeout ∧ t.st = .fatal) := by
  obtain ⟨-, -, -, -, -, -, -, hwriter⟩ := registerWriters s t hr h
  have hsucc := step_successors hr h
  cases hst : s.st
  case idle | done =>
    cases (step_awaiting hr (by simp [hst])).symm.trans h
    rcases hostStart_cases (pins s) (tick s) with ⟨-, ht⟩ | ⟨-, -, ht⟩ | ⟨-, -, ht⟩ <;> simp [ht]
  case validate =>
    cases he : s.ent with
    | nor =>
      rcases step_validate_nor hr hst he h with ⟨hv, rfl⟩ | ⟨-, -, rfl⟩ | ⟨-, -, rfl⟩
      · simp [InvalidForEntry, he, hv]
      · simp
      · simp
    | sdram =>
      rcases step_validate_sdram hr hst he h with ⟨hv, rfl⟩ | ⟨-, -, rfl⟩ | ⟨-, -, rfl⟩
      · simp [InvalidForEntry, he, hv]
      · simp
      · simp
  case nNext =>
    rw [step_nNext hr hst h]
    rcases norNext_cases (tick s) with ⟨-, ht⟩ | ⟨-, ht⟩ <;> simp [ht]
  case sNext =>
    rw [step_sNext hr hst h]
    rcases sdNext_cases (tick s) with ⟨-, ht⟩ | ⟨-, -, ht⟩ | ⟨-, -, ht⟩ <;> simp [ht]
  case gWrOn => rcases step_gWrOn hr hst h with ⟨-, rfl⟩ | ⟨-, rfl⟩ <;> simp
  case fatal => simp [step_fatal hr hst h]
  case sPoll =>
    rcases step_sPoll hr hst h with ⟨-, rfl⟩ | ⟨-, rfl⟩
    · rcases afterPoll_cases (stepReply s).rdata
        (emit (.rd .sdsr (addrOf s.cfg .sdsr) (stepReply s).rdata) (replied s)) with
        ⟨-, -, hu⟩ | ⟨-, -, hu⟩ | ⟨-, -, hu⟩ | ⟨-, -, -, hu⟩ | ⟨-, -, -, hu⟩ <;> simp [hu]
    · simp
  -- No state that writes `err` follows one of the others.
  all_goals
    refine .inl (by_contra fun hne => ?_)
    rcases hwriter hne with ht | ht | ht <;> simp [ht, hst, successors] at hsucc

end

/-- Settles O42, by the ways into DONE and FATAL and by what a cycle can do to `err`. -/
theorem outcomesEntered : Obligations.OutcomesEntered := by
  intro s t h
  refine ⟨fun ht => or_iff_not_imp_left.2 (done_entered h ht),
    fun ht => or_iff_not_imp_left.2 (fatal_entered h ht), ?_⟩
  cases hr : (pins s).rst with
  | true =>
    cases (step_rst hr).symm.trans h
    exact ⟨nofun, nofun⟩
  | false =>
    rcases step_err_cases hr h with he | he | ⟨he, hst, ht, hinv⟩ | ⟨he, ht⟩
    · exact ⟨fun hv => .inl (he.symm.trans hv), fun hv => .inl (he.symm.trans hv)⟩
    · simp [he]
    · exact ⟨fun _ => .inr ⟨hst, ht, hinv⟩, by simp [he]⟩
    · exact ⟨by simp [he], fun _ => .inr ht⟩

/-! ### A next state always exists -/

section
variable {s : State}

/-- Under the invariant an SDRAM run has a current entry (R171). -/
theorem SeqInv.sdEntry_some (hs : SeqInv s) (hst : inSdEntry s.st = true ∨ inGate s.st = true) :
    ∃ e, sdEntry s = some e := by
  obtain ⟨-, hv, hi⟩ := hs.sdram hst
  obtain ⟨e, he, -⟩ := sdAt_used hv hi
  exact ⟨e, he⟩

theorem issueNor_ne_undefined {fn : NorEntry → BitVec 2 → Instr} (hs : SeqInv s)
    (hst : inNorRun s.st = true) (f : Fault) : issueNor s fn ≠ .undefined f := by
  obtain ⟨-, hv, hi⟩ := hs.nor hst
  have hb : (norEntry s).bankIdx.toNat < 4 := bankIdx_lt hv hi
  simp [issueNor, hb]

theorem issueSd_ne_undefined {fe : SdEntry → Activity} (hs : SeqInv s) (hst : inSdEntry s.st = true)
    (f : Fault) (hf : ∀ e, fe e ≠ .undefined f) : issueSd s fe ≠ .undefined f := by
  obtain ⟨e, he⟩ := hs.sdEntry_some (.inl hst)
  rw [issueSd, he]
  exact hf e

theorem commandAt_ne_undefined {k : Nat} (hk : k ≤ 4) (e : SdEntry) (f : Fault) :
    commandAt k e ≠ .undefined f := by
  interval_cases k <;> nofun

/-- The states whose operands the spec does not define are none that a run reaches (log 13). -/
theorem activity_ne_undefined (hs : SeqInv s) (f : Fault) : activity s ≠ .undefined f := by
  cases hst : s.st <;> simp only [activity, hst, ne_eq, reduceCtorEq, not_false_eq_true]
  case nRdBcr | nWrBcr | nWrBtr | nWrBwtr | nWrBcrEn =>
    exact issueNor_ne_undefined hs (by rw [hst]; rfl) f
  case sWrSdcr1 | sWrSdcr2 | sWrSdtr1 | sWrSdtr2 | sWrSdrtr =>
    exact issueSd_ne_undefined hs (by rw [hst]; rfl) f nofun
  case sWrCmd =>
    exact issueSd_ne_undefined hs (by rw [hst]; rfl) f fun e => commandAt_ne_undefined hs.kBound e f
  case sDelay =>
    obtain ⟨hpos, hle⟩ := hs.delay hst
    have hne : delayUs s.k.toNat ≠ 0 := (Nat.pos_of_mul_pos_right (hpos.trans_le hle)).ne'
    simp [delayAt, hne]

/-- An element answers a next state, given the entry that SDCR1 and SDTR1 choose their successor by. -/
theorem exec_next {i : Instr}
    (he : (∃ c, i = .sdWrSdcr1 c) ∨ (∃ m, i = .sdWrSdtr1 m) → sdEntry s ≠ none) :
    ∃ t, exec i s = .next t := by
  cases i with
  | sdWrSdcr1 c =>
    obtain ⟨e, hse⟩ := Option.ne_none_iff_exists'.1 (he (.inl ⟨c, rfl⟩))
    rw [exec, execSdWrSdcr1, bySlot_entry hse]
    split <;> exact ⟨_, rfl⟩
  | sdWrSdtr1 m =>
    obtain ⟨e, hse⟩ := Option.ne_none_iff_exists'.1 (he (.inr ⟨m, rfl⟩))
    rw [exec, execSdWrSdtr1, bySlot_entry hse]
    split <;> exact ⟨_, rfl⟩
  | norRdBcr | norWrBcr | norWrBtr | norWrBwtr | norWrBcrEn | gateRdOff | gateWrOff | gateRdOn | gateWrOn
  | sdWrSdcr2 | sdWrSdtr2 | cmdStartClock | cmdPrecharge | cmdAutoRefresh | cmdWriteMode | cmdNormal | delay
  | barrier | sdRdSdsr | sdWrSdrtr => exact ⟨_, rfl⟩

/-- An element on an SDRAM register is issued in an SDRAM run, which has a current entry. -/
theorem SeqInv.sdEntry_of_issue {i : Instr} {x : Txn} (hs : SeqInv s) (ha : activity s = .issue i)
    (hx : i.action = .bus x) (hreg : regOfNor x.reg = false) : sdEntry s ≠ none := by
  obtain ⟨hnor, -, -, hst⟩ := registersPerEntry s x (by simp only [request, ha, hx])
  have hsd : inSdEntry s.st = true ∨ inGate s.st = true := by
    rcases hst with hst | hst | hst
    · rcases hnor hst with ⟨b, hb⟩ | ⟨-, b, hb | hb⟩ <;> rw [hb] at hreg <;> cases hreg
    · exact .inr hst
    · exact .inl hst
  obtain ⟨e, he⟩ := hs.sdEntry_some hsd
  simp [he]

end

/-- Settles O48: the FSM's activity is defined, and each activity answers a next state. -/
theorem nothingStops : Obligations.NothingStops := by
  intro s hs
  cases hr : (pins s).rst with
  | true => exact ⟨_, step_rst hr⟩
  | false =>
    cases ha : activity s with
    | issue i =>
      rw [step_of_issue hr ha]
      refine exec_next fun hi => ?_
      rcases hi with ⟨c, rfl⟩ | ⟨m, rfl⟩
      · exact hs.sdEntry_of_issue ha rfl rfl
      · exact hs.sdEntry_of_issue ha rfl rfl
    | undefined f => exact absurd ha (activity_ne_undefined hs f)
    | awaitStart | validate | norNext | sdNext | halted => exact ⟨_, by simp [step, hr, ha]; rfl⟩

/-! ### A poll that stays busy -/

section
variable {s t u : State} {vs ws : List Word}

/-- Everything an S_POLL cycle without reset does: the answer of an acknowledged read, or a wait (R181). -/
theorem step_sPoll_eq (hr : (pins s).rst = false) (hst : s.st = .sPoll) :
    step s = .next (if (stepReply s).ack
      then afterPoll (stepReply s).rdata (polled (tick s)) else replied s) := by
  have ha : activity s = .issue .sdRdSdsr := by simp only [activity, hst]
  rw [step_of_issue hr ha]
  rfl

/-- From `s` to `t` a poll has gone on, and has read the answers `vs`, all with BUSY = 1. -/
structure PollGoesOn (s t : State) (vs : List Word) : Prop where
  st    : t.st = .sPoll
  i     : t.i = s.i
  k     : t.k = s.k
  err   : t.err = s.err
  cfg   : t.cfg = s.cfg
  par   : t.par = s.par
  mem   : t.mem = s.mem
  era   : t.era = s.era
  trace : t.trace = s.trace ++ pollReads s.cfg vs
  busy  : vs.all busyBit = true
  count : 0 < s.par.pollTimeout → t.pcnt = s.pcnt + vs.length

theorem PollGoesOn.refl (hst : s.st = .sPoll) : PollGoesOn s s [] :=
  ⟨hst, rfl, rfl, rfl, rfl, rfl, rfl, rfl, (List.append_nil _).symm, rfl, fun _ => rfl⟩

theorem PollGoesOn.trans (h : PollGoesOn s t vs) (h' : PollGoesOn t u ws) :
    PollGoesOn s u (vs ++ ws) where
  st := h'.st
  i := h'.i.trans h.i
  k := h'.k.trans h.k
  err := h'.err.trans h.err
  cfg := h'.cfg.trans h.cfg
  par := h'.par.trans h.par
  mem := h'.mem.trans h.mem
  era := h'.era.trans h.era
  trace := by rw [h'.trace, h.trace, h.cfg, List.append_assoc, pollReads, pollReads, pollReads, List.map_append]
  busy := by rw [List.all_append, h.busy, h'.busy]; rfl
  count hp := by rw [h'.count (by rwa [h.par]), h.count hp, List.length_append, Nat.add_assoc]

/-- A waiting cycle leaves the poll as it is. -/
theorem pollGoesOn_replied (hst : s.st = .sPoll) : PollGoesOn s (replied s) [] :=
  ⟨hst, rfl, rfl, rfl, rfl, rfl, rfl, rfl, (List.append_nil _).symm, rfl, fun _ => rfl⟩

/-- A busy answer that is not the last one allowed leaves the poll going (R181). -/
theorem pollGoesOn_afterPoll (hb : busyBit (stepReply s).rdata = true)
    (hc : s.par.pollTimeout = 0 ∨ s.pcnt + 1 ≠ s.par.pollTimeout) :
    PollGoesOn s (afterPoll (stepReply s).rdata (polled (tick s))) [(stepReply s).rdata] := by
  have hall : [(stepReply s).rdata].all busyBit = true := by simp [hb]
  rcases Nat.eq_zero_or_pos s.par.pollTimeout with hp | hp
  · rw [afterPoll_unbounded (s := polled (tick s)) hb hp]
    exact ⟨rfl, rfl, rfl, rfl, rfl, rfl, rfl, rfl, rfl, hall, fun hpos => absurd hp hpos.ne'⟩
  · rw [afterPoll_counts (s := polled (tick s)) hb hp (hc.resolve_left hp.ne')]
    exact ⟨rfl, rfl, rfl, rfl, rfl, rfl, rfl, rfl, rfl, hall, fun _ => rfl⟩

/-- In S_POLL every cycle without reset requests the SDSR read (R181). -/
theorem busPort_sPoll (hr : (pins s).rst = false) (hst : s.st = .sPoll) :
    busPort s = some { we := false, addr := s.cfg.base + 0x158, wdata := 0 } := by
  have ha : activity s = .issue .sdRdSdsr := by simp only [activity, hst]
  refine busPort_eq_some.2 ⟨hr, { we := false, reg := .sdsr, data := 0 }, ?_, rfl⟩
  simp only [request, ha, Instr.action, Action.read]

/-- One cycle of S_POLL in which CTRL waits, or answers BUSY = 1 before the last time allowed. -/
theorem step_pollGoesOn (hr : (pins s).rst = false) (hst : s.st = .sPoll)
    (hb : (stepReply s).ack = true → busyBit (stepReply s).rdata = true)
    (hc : s.par.pollTimeout = 0 ∨ s.pcnt + 1 ≠ s.par.pollTimeout) :
    ∃ t ws, step s = .next t ∧ PollGoesOn s t ws ∧ ws.length ≤ 1 ∧
      ((stepReply s).ack = true → ws.length = 1) := by
  rw [step_sPoll_eq hr hst]
  cases hack : (stepReply s).ack with
  | false => exact ⟨_, [], rfl, pollGoesOn_replied hst, Nat.zero_le _, nofun⟩
  | true => exact ⟨_, _, rfl, pollGoesOn_afterPoll (hb hack) hc, le_rfl, fun _ => rfl⟩

end

/-! ### The outer agents over one step -/

section
variable {s t : State}

theorem PromptWith.answersWith {P : Word → Prop} (h : PromptWith P s) : AnswersWith P s := by
  obtain ⟨hitems, r, hrest, -, hr⟩ := h
  exact ⟨fun q hq _ => (hitems q hq).2, r, hrest, fun _ => hr⟩

/-- The passing of a cycle leaves CTRL's replies. -/
theorem AnswersWith.tick {P : Word → Prop} (h : AnswersWith P s) : AnswersWith P (tick s) := h

theorem PromptWith.tick {P : Word → Prop} (h : PromptWith P s) : PromptWith P (tick s) := h

/-- A cycle of a run uses up HOST's inputs of the cycle, and they are all it does with them (O3). -/
theorem step_hostIn (hr : (pins s).rst = false) (hb : busy s = true) (h : step s = .next t) :
    t.hostIn = s.hostIn.tail := by
  have hi : s.st ≠ .idle := fun hst => by simp [busy, hst] at hb
  have hd : s.st ≠ .done := fun hst => by simp [busy, hst] at hb
  have hsame := hostInputsIgnoredInRun s t s.hostIn hi hd hr hr h
  injection h.symm.trans hsame with ht
  exact congrArg State.hostIn ht

theorem NoReset.step (hn : NoReset s) (hb : busy s = true) (h : step s = .next t) : NoReset t := by
  obtain ⟨hr, hnext⟩ := hn.tail
  exact hnext t (step_hostIn hr hb h)

/-- A cycle with a transaction uses up one reply of CTRL. -/
theorem step_busIn {x : Txn} (hr : (pins s).rst = false) (hx : request s = some x)
    (h : step s = .next t) : t.busIn = s.busIn.tail := by
  obtain ⟨-, -, -, -, -, hb⟩ | ⟨-, rfl⟩ := step_request hr hx h
  · exact hb
  · rfl

end

/-- A poll whose answers are all busy goes on for as long as its bound, if it has one, allows. -/
theorem steps_pollGoesOn {s : State} (hn : NoReset s) (ha : AnswersWith (fun v => busyBit v = true) s)
    (hst : s.st = .sPoll) {n : Nat} (hc : s.par.pollTimeout = 0 ∨ s.pcnt + n < s.par.pollTimeout) :
    ∃ t vs, steps n s = .next t ∧ PollGoesOn s t vs ∧ NoReset t ∧
      AnswersWith (fun v => busyBit v = true) t ∧ vs.length ≤ n ∧
      ∀ P, PromptWith P s → PromptWith P t ∧ vs.length = n := by
  induction n with
  | zero => exact ⟨s, [], rfl, .refl hst, hn, ha, le_rfl, fun P hP => ⟨hP, rfl⟩⟩
  | succ n ih =>
    obtain ⟨t, vs, ht, hgo, htn, hta, hle, hprompt⟩ := ih (by omega)
    obtain ⟨hr, -⟩ := htn.tail
    obtain ⟨hb, hanext⟩ := hta.tick.tail
    have hct : t.par.pollTimeout = 0 ∨ t.pcnt + 1 ≠ t.par.pollTimeout := by
      rw [hgo.par]
      rcases Nat.eq_zero_or_pos s.par.pollTimeout with hp | hp
      · exact .inl hp
      · have hcount := hgo.count hp
        omega
    obtain ⟨u, ws, hu, hgo', hle', hack⟩ := step_pollGoesOn hr hgo.st hb hct
    have hbusy : busy t = true := by simp [busy, hgo.st]
    obtain ⟨-, x, hx, -⟩ := busPort_eq_some.1 (busPort_sPoll hr hgo.st)
    have hbus : u.busIn = t.busIn.tail := step_busIn hr hx hu
    refine ⟨u, vs ++ ws, (steps_succ n ht).trans hu, hgo.trans hgo', htn.step hbusy hu,
      hanext u hbus, ?_, fun P hP => ?_⟩
    · rw [List.length_append]
      exact Nat.add_le_add hle hle'
    · obtain ⟨hPt, hlen⟩ := hprompt P hP
      obtain ⟨⟨hacked, -⟩, hnext⟩ := hPt.tick.tail
      exact ⟨hnext u hbus, by rw [List.length_append, hlen, hack hacked]⟩

/-- Settles O56: without a bound a busy poll goes on for any number of cycles. -/
theorem pollHangs : Obligations.PollHangs := by
  intro s n hn ha hst hp
  obtain ⟨t, vs, ht, hgo, htn, -, hle, hprompt⟩ := steps_pollGoesOn hn ha hst (n := n) (.inl hp)
  obtain ⟨hr, -⟩ := htn.tail
  refine ⟨t, vs, ht, hgo.st, by simp [busy, hgo.st], by simp [done, hgo.st], by simp [fatal, hgo.st],
    hgo.err, hgo.trace, hgo.busy, hle, fun hP => (hprompt _ hP).2, ?_⟩
  exact ⟨_, busPort_sPoll hr hgo.st, rfl, by rw [hgo.cfg]⟩

theorem answersFrom_pollReads (c : Cfg) (vs : List Word) : answersFrom .sdsr (pollReads c vs) = vs := by
  simp [answersFrom, pollReads, rdElem, List.filterMap_map]

/-- Settles O57: `pcnt` counts the busy answers before the last one allowed, which raises ETIMEOUT. -/
theorem pollTimesOut : Obligations.PollTimesOut := by
  intro s hn hP hst h0 hp
  have hpoll {n : Nat} (h : n < s.par.pollTimeout) : ∃ t vs, steps n s = .next t ∧ PollGoesOn s t vs ∧
      NoReset t ∧ PromptWith (fun v => busyBit v = true) t ∧ vs.length = n ∧ t.pcnt = n := by
    obtain ⟨t, vs, ht, hgo, htn, -, -, hprompt⟩ :=
      steps_pollGoesOn hn hP.answersWith hst (n := n) (.inr (by omega))
    obtain ⟨htP, hlen⟩ := hprompt _ hP
    exact ⟨t, vs, ht, hgo, htn, htP, hlen, by rw [hgo.count hp, h0, hlen, Nat.zero_add]⟩
  refine ⟨fun n h => ?_, ?_⟩
  · obtain ⟨t, vs, ht, hgo, -, -, -, hcnt⟩ := hpoll h
    exact ⟨t, ht, hgo.st, hcnt⟩
  · obtain ⟨m, hm⟩ := Nat.exists_eq_succ_of_ne_zero hp.ne'
    obtain ⟨t, vs, ht, hgo, htn, htP, hlen, hcnt⟩ := hpoll (n := m) (by omega)
    obtain ⟨⟨hack, hb⟩, -⟩ := htP.tick.tail
    have hstep : step t = .next (raiseEtimeout (polled (tick t))) := by
      rw [step_sPoll_eq htn.tail.1 hgo.st, if_pos hack,
        afterPoll_timeout (s := polled (tick t)) hb (by simpa [polled, hgo.par] using hp)
          (by simp [polled, hgo.par, hcnt, hm])]
    rw [hm]
    refine ⟨_, (steps_succ m ht).trans hstep, rfl, rfl, hgo.i, hgo.k, readByte_congr hgo.mem hgo.era, ?_⟩
    have hread : (polled (tick t)).trace =
        s.trace ++ pollReads s.cfg vs ++ pollReads t.cfg [(stepReply t).rdata] := by
      rw [← hgo.trace]; rfl
    rw [raiseEtimeout_trace, hread]
    simp [answersFrom_append, answersFrom_pollReads, hlen]

/-! ### With a bounded poll every run terminates -/

section
variable {s t : State}

/-- What a run has before it, counted in entries: the entries from the current one on, above them the
gate's opening and VALIDATE, below them the gate's closing. -/
def entriesLeft (s : State) : Nat :=
  match s.st with
  | .validate => 6
  | .gRdOff | .gWrOff => 5
  | .gRdOn | .gWrOn | .idle | .done | .fatal => 0
  | _ => 4 - s.i.toNat

/-- What is left of an entry, or of the gate's pair, counted in FSM states: four for each command from
the current one on (R178 to R182), below them S_WR_SDRTR and S_NEXT, above them steps 1 and 2. -/
def statesLeft (s : State) : Nat :=
  match s.st with
  | .nRdBcr => 5
  | .nWrBcr => 4
  | .nWrBtr => 3
  | .nWrBwtr => 2
  | .nWrBcrEn => 1
  | .gRdOff | .gRdOn => 1
  | .sWrSdcr1 => 25
  | .sWrSdcr2 => 24
  | .sWrSdtr1 => 23
  | .sWrSdtr2 => 22
  | .sWrCmd => 4 * (4 - s.k.toNat) + 5
  | .sDelay => 4 * (4 - s.k.toNat) + 4
  | .sBarrier => 4 * (4 - s.k.toNat) + 3
  | .sPoll => 4 * (4 - s.k.toNat) + 2
  | .sWrSdrtr => 1
  | _ => 0

/-- The cycles a counter still allows its state: S_DELAY's `dcnt`, and S_POLL's busy answers. -/
def countLeft (s : State) : Nat :=
  match s.st with
  | .sDelay => s.dcnt
  | .sPoll => s.par.pollTimeout - s.pcnt
  | _ => 0

/-- How far a run is from its end: entries, then FSM states, then cycles of one state. A cycle that waits
for an acknowledge uses up one of CTRL's listed replies, after which every reply acknowledges. -/
def runLeft (s : State) : ℕ ×ₗ ℕ ×ₗ ℕ :=
  toLex (entriesLeft s, toLex (statesLeft s, countLeft s + s.busIn.items.length))

theorem runLeft_lt_of_entries (h : entriesLeft t < entriesLeft s) : runLeft t < runLeft s :=
  Prod.Lex.toLex_lt_toLex.2 (.inl h)

theorem runLeft_lt_of_states (he : entriesLeft t = entriesLeft s) (h : statesLeft t < statesLeft s) :
    runLeft t < runLeft s :=
  Prod.Lex.toLex_lt_toLex.2 (.inr ⟨he, Prod.Lex.toLex_lt_toLex.2 (.inl h)⟩)

theorem runLeft_lt_of_cycles (he : entriesLeft t = entriesLeft s) (hw : statesLeft t = statesLeft s)
    (h : countLeft t + t.busIn.items.length < countLeft s + s.busIn.items.length) :
    runLeft t < runLeft s :=
  Prod.Lex.toLex_lt_toLex.2 (.inr ⟨he, Prod.Lex.toLex_lt_toLex.2 (.inr ⟨hw, h⟩)⟩)

/-- A reply that does not acknowledge is a listed one. -/
theorem items_ne_nil_of_wait (ha : AcksInTheEnd s) (hw : (stepReply s).ack = false) :
    s.busIn.items ≠ [] := by
  obtain ⟨r, hrest, hr⟩ := ha
  intro hnil
  simp [reply, Script.head, hnil, hrest, hr] at hw

theorem runLeft_replied (ha : AcksInTheEnd s) (hw : (stepReply s).ack = false) :
    runLeft (replied s) < runLeft s := by
  have hpos := List.length_pos_iff.2 (items_ne_nil_of_wait ha hw)
  have hlen : (replied s).busIn.items.length = s.busIn.items.length - 1 := List.length_tail
  exact runLeft_lt_of_cycles rfl rfl (Nat.add_lt_add_left (by omega) _)

/-- A reply used up leads no further from the end. -/
theorem runLeft_replied_le (s : State) : runLeft (replied s) ≤ runLeft s := by
  have hlen : (replied s).busIn.items.length = s.busIn.items.length - 1 := List.length_tail
  exact Prod.Lex.toLex_le_toLex.2 (.inr ⟨rfl, Prod.Lex.toLex_le_toLex.2
    (.inr ⟨rfl, Nat.add_le_add_left (by omega) _⟩)⟩)

/-- A cycle with a transaction comes nearer to the end, if its acknowledge does. -/
theorem nearer_of_busCycle {u : State} (ha : AcksInTheEnd s)
    (hcyc : ((stepReply s).ack = true ∧ t = u) ∨ ((stepReply s).ack = false ∧ t = replied s))
    (hu : busy u = false ∨ runLeft u < runLeft s) : busy t = false ∨ runLeft t < runLeft s := by
  rcases hcyc with ⟨-, rfl⟩ | ⟨hw, rfl⟩
  · exact hu
  · exact .inr (runLeft_replied ha hw)

/-- An answer of a bounded poll ends the poll, ends the run, or uses up one of the answers allowed. -/
theorem nearer_afterPoll (hs : SeqInv s) (hp : 0 < s.par.pollTimeout) (hst : s.st = .sPoll) (v : Word) :
    busy (afterPoll v s) = false ∨ runLeft (afterPoll v s) < runLeft s := by
  rcases afterPoll_cases v s with
    ⟨-, hk, hu⟩ | ⟨-, -, hu⟩ | ⟨-, h0, -⟩ | ⟨-, -, -, hu⟩ | ⟨-, -, hne, hu⟩
  · refine .inr (runLeft_lt_of_states (by simp [hu, entriesLeft, hst]) ?_)
    have hk' := k_succ hk
    simp only [hu, statesLeft, hst, goto_st, goto_k]
    omega
  · exact .inr (runLeft_lt_of_states (by simp [hu, entriesLeft, hst]) (by simp [hu, statesLeft, hst]))
  · exact absurd h0 hp.ne'
  · exact .inl (by rw [hu]; rfl)
  · refine .inr (runLeft_lt_of_cycles (by simp [hu, entriesLeft, hst]) (by simp [hu, statesLeft, hst]) ?_)
    have hfit := hs.pcntFits
    simp only [hu, countLeft, hst, goto_st, goto_par, goto_pcnt, goto_busIn]
    omega

/-- A cycle with a transaction whose acknowledge moves on inside the entry. -/
theorem nearer_of_busMove {u : State} (ha : AcksInTheEnd s)
    (hcyc : ((stepReply s).ack = true ∧ t = u) ∨ ((stepReply s).ack = false ∧ t = replied s))
    (hu : entriesLeft u = entriesLeft s ∧ statesLeft u < statesLeft s) :
    busy t = false ∨ runLeft t < runLeft s :=
  nearer_of_busCycle ha hcyc (.inr (runLeft_lt_of_states hu.1 hu.2))

/-- N_NEXT takes the next entry or ends the run (R135). -/
theorem nearer_norNext (hs : SeqInv s) (hst : s.st = .nNext) :
    busy (norNext s) = false ∨ runLeft (norNext s) < runLeft s := by
  obtain ⟨-, hv, -⟩ := hs.nor (by rw [hst]; rfl)
  rcases norNext_cases s with ⟨hlt, ht⟩ | ⟨-, ht⟩ <;> rw [ht]
  · have hi := i_succ (Nat.lt_of_succ_lt_succ (hlt.trans_le (norCount_le hv)))
    refine .inr (runLeft_lt_of_entries ?_)
    simp only [entriesLeft, hst, goto_st, goto_i]
    omega
  · exact .inl rfl

/-- S_NEXT takes the next entry, starts the gate's closing, or ends the run (R184). -/
theorem nearer_sdNext (hs : SeqInv s) (hst : s.st = .sNext) :
    busy (sdNext s) = false ∨ runLeft (sdNext s) < runLeft s := by
  obtain ⟨-, hv, -⟩ := hs.sdram (.inl (by rw [hst]; rfl))
  rcases sdNext_cases s with ⟨hlt, ht⟩ | ⟨-, -, ht⟩ | ⟨-, -, ht⟩ <;> rw [ht]
  · have hle : s.cfg.sdCount.toNat ≤ 4 := (sdCount_le hv).trans (by decide)
    have hi := i_succ (Nat.lt_of_succ_lt_succ (hlt.trans_le hle))
    refine .inr (runLeft_lt_of_entries ?_)
    simp only [entriesLeft, hst, goto_st, goto_i]
    omega
  · refine .inr (runLeft_lt_of_entries ?_)
    simp only [entriesLeft, hst, goto_st]
    omega
  · exact .inl rfl

section
variable (hr : (pins s).rst = false) (h : step s = .next t)
include hr h

theorem nearer_step_validate (hst : s.st = .validate) : busy t = false ∨ runLeft t < runLeft s := by
  cases he : s.ent with
  | nor =>
    rcases step_validate_nor hr hst he h with ⟨-, rfl⟩ | ⟨-, -, rfl⟩ | ⟨-, -, rfl⟩
    · exact .inl rfl
    · exact .inl rfl
    · exact .inr (runLeft_lt_of_entries (by simp [entriesLeft, hst]))
  | sdram =>
    rcases step_validate_sdram hr hst he h with ⟨-, rfl⟩ | ⟨-, -, rfl⟩ | ⟨-, -, rfl⟩
    · exact .inl rfl
    · exact .inl rfl
    · refine .inr (runLeft_lt_of_entries ?_)
      cases gateEn s.cfg <;> simp [entriesLeft, hst]

/-- S_DELAY counts one cycle, or ends (R179). -/
theorem nearer_step_sDelay (hs : SeqInv s) (hst : s.st = .sDelay) : runLeft t < runLeft s := by
  obtain ⟨hpos, -⟩ := hs.delay hst
  injection (step_sDelay_eq hs hr hst).symm.trans h with ht
  subst ht
  split
  · exact runLeft_lt_of_states (by simp [entriesLeft, hst]) (by simp [statesLeft, hst])
  · exact runLeft_lt_of_cycles rfl rfl (by simp [countLeft, hst, hpos])

theorem nearer_step_norRun (hs : SeqInv s) (ha : AcksInTheEnd s) (hst : inNorRun s.st = true) :
    busy t = false ∨ runLeft t < runLeft s := by
  cases hst' : s.st <;> simp only [hst'] at hst
  case nRdBcr =>
    exact nearer_of_busMove ha (step_nRdBcr hr hst' h) (by simp [entriesLeft, statesLeft, hst'])
  case nWrBcr =>
    exact nearer_of_busMove ha (step_nWrBcr hr hst' h) (by simp [entriesLeft, statesLeft, hst'])
  case nWrBtr =>
    exact nearer_of_busMove ha (step_nWrBtr hr hst' h) (by simp [entriesLeft, statesLeft, hst'])
  case nWrBwtr =>
    exact nearer_of_busMove ha (step_nWrBwtr hr hst' h) (by simp [entriesLeft, statesLeft, hst'])
  case nWrBcrEn =>
    exact nearer_of_busMove ha (step_nWrBcrEn hr hst' h) (by simp [entriesLeft, statesLeft, hst'])
  case nNext =>
    rw [step_nNext hr hst' h]
    exact nearer_norNext hs.tick hst'
  all_goals cases hst

theorem nearer_step_gate (ha : AcksInTheEnd s) (hst : inGate s.st = true) :
    busy t = false ∨ runLeft t < runLeft s := by
  cases hst' : s.st <;> simp only [hst'] at hst
  case gRdOff =>
    exact nearer_of_busMove ha (step_gRdOff hr hst' h) (by simp [entriesLeft, statesLeft, hst'])
  case gWrOff =>
    exact nearer_of_busCycle ha (step_gWrOff hr hst' h)
      (.inr (runLeft_lt_of_entries (by simp [entriesLeft, hst'])))
  case gRdOn =>
    exact nearer_of_busMove ha (step_gRdOn hr hst' h) (by simp [entriesLeft, statesLeft, hst'])
  case gWrOn => exact nearer_of_busCycle ha (step_gWrOn hr hst' h) (.inl rfl)
  all_goals cases hst

theorem nearer_step_sdEntry (hs : SeqInv s) (ha : AcksInTheEnd s) (hp : 0 < s.par.pollTimeout)
    (hst : inSdEntry s.st = true) : busy t = false ∨ runLeft t < runLeft s := by
  cases hst' : s.st <;> simp only [hst'] at hst
  case sWrSdcr1 =>
    obtain ⟨e, -, hcyc⟩ := step_sWrSdcr1 hr hst' h
    exact nearer_of_busMove ha hcyc (by cases e.slot <;> simp [entriesLeft, statesLeft, hst'])
  case sWrSdcr2 =>
    obtain ⟨e, -, hcyc⟩ := step_sWrSdcr2 hr hst' h
    exact nearer_of_busMove ha hcyc (by simp [entriesLeft, statesLeft, hst'])
  case sWrSdtr1 =>
    obtain ⟨e, -, hcyc⟩ := step_sWrSdtr1 hr hst' h
    exact nearer_of_busMove ha hcyc (by cases e.slot <;> simp [entriesLeft, statesLeft, hst'])
  case sWrSdtr2 =>
    obtain ⟨e, -, hcyc⟩ := step_sWrSdtr2 hr hst' h
    exact nearer_of_busMove ha hcyc (by simp [entriesLeft, statesLeft, hst'])
  case sWrCmd =>
    obtain ⟨e, -, hcyc⟩ := step_sWrCmd hr hst' h
    refine nearer_of_busCycle ha hcyc (.inr ?_)
    rcases afterCommand_cases s.k.toNat
      (performWrite .sdcmr (cmdWord s.k.toNat e.slot e.ctrl.casLatency) (replied s)) with
      ⟨-, hu⟩ | ⟨-, hu⟩ <;> rw [hu]
    · exact runLeft_lt_of_states (by simp [entriesLeft, hst']) (by simp [statesLeft, hst'])
    · exact runLeft_lt_of_states (by simp [entriesLeft, hst']) (by simp [statesLeft, hst'])
  case sDelay => exact .inr (nearer_step_sDelay hr h hs hst')
  case sBarrier =>
    rw [step_sBarrier hr hst' h]
    exact .inr (runLeft_lt_of_states (by simp [entriesLeft, hst']) (by simp [statesLeft, hst']))
  case sPoll =>
    refine nearer_of_busCycle ha (step_sPoll hr hst' h)
      ((nearer_afterPoll (hs.replied.emit _) hp hst' _).imp_right fun hlt => ?_)
    exact hlt.trans_le (runLeft_replied_le s)
  case sWrSdrtr =>
    obtain ⟨e, -, hcyc⟩ := step_sWrSdrtr hr hst' h
    exact nearer_of_busMove ha hcyc (by simp [entriesLeft, statesLeft, hst'])
  case sNext =>
    rw [step_sNext hr hst' h]
    exact nearer_sdNext hs.tick hst'
  all_goals cases hst

/-- Every cycle of a run with a bounded poll ends the run or brings it nearer to its end. -/
theorem step_nearer (hs : SeqInv s) (ha : AcksInTheEnd s) (hp : 0 < s.par.pollTimeout)
    (hb : busy s = true) : busy t = false ∨ runLeft t < runLeft s := by
  cases hst : s.st with
  | idle | done | fatal => simp [busy, hst] at hb
  | validate => exact nearer_step_validate hr h hst
  | nRdBcr | nWrBcr | nWrBtr | nWrBwtr | nWrBcrEn | nNext =>
    exact nearer_step_norRun hr h hs ha (by rw [hst]; rfl)
  | gRdOff | gWrOff | gRdOn | gWrOn => exact nearer_step_gate hr h ha (by rw [hst]; rfl)
  | sWrSdcr1 | sWrSdcr2 | sWrSdtr1 | sWrSdtr2 | sWrCmd | sDelay | sBarrier | sPoll | sWrSdrtr | sNext =>
    exact nearer_step_sdEntry hr h hs ha hp (by rw [hst]; rfl)

end

/-- CTRL keeps acknowledging in the end, whatever a cycle does. -/
theorem AcksInTheEnd.step (ha : AcksInTheEnd s) (hr : (pins s).rst = false) (h : step s = .next t) :
    AcksInTheEnd t := by
  cases hx : request s with
  | none =>
    obtain ⟨-, -, hb, -⟩ := step_noRequest hr hx h
    obtain ⟨r, hrest, hack⟩ := ha
    exact ⟨r, by rw [hb]; exact hrest, hack⟩
  | some x => exact ha.tail (step_busIn hr hx h)

theorem steps_of_step (h : step s = .next t) (n : Nat) : steps (n + 1) s = steps n t := by
  rw [steps, h]

end

/-- Settles O60, by induction on how far the run is from its end. -/
theorem boundedPollTerminates : Obligations.BoundedPollTerminates := by
  intro s hs hp hn ha
  induction hm : runLeft s using WellFoundedLT.induction generalizing s with
  | ind m ih =>
    cases hb : busy s with
    | false => exact ⟨0, s, rfl, hb⟩
    | true =>
      obtain ⟨hr, -⟩ := hn.tail
      obtain ⟨t, h⟩ := nothingStops s hs
      rcases step_nearer hr h hs ha hp hb with hend | hlt
      · exact ⟨1, t, steps_of_step h 0, hend⟩
      · obtain ⟨hpar, -⟩ := registerWriters s t hr h
        obtain ⟨n, u, hu, hend⟩ := ih (runLeft t) (hm ▸ hlt) t (registerInvariantKept s t hs h)
          (by rwa [hpar]) (hn.step hb h) (ha.step hr h) rfl
        exact ⟨n + 1, u, (steps_of_step h n).trans hu, hend⟩

end Sys2Proof.Machine

/-! Proofs of the statements about reset, hazards and the length of a run
(spec/70_reset_and_hazards.md). -/

namespace Sys2Proof.Machine

/-! ### The last element before a command -/

/-- Polled commands end with the SDSR read of BUSY = 0 that ends the last poll (42_sdram_sequencer.md
R181). -/
theorem stepsFrom_getLast? (c : Cfg) (e : SdEntry) (k : Nat) {ps : List Poll} (hne : ps ≠ [])
    (hok : ∀ p ∈ ps, p.Ok) : ∃ v, (stepsFrom c e k ps).getLast? = some (rdElem c .sdsr v) ∧
      busyBit v = false := by
  obtain ⟨qs, p, rfl⟩ := (List.eq_nil_or_concat' ps).resolve_left hne
  obtain ⟨-, hlast⟩ := hok p (by simp)
  refine ⟨p.last, ?_, hlast⟩
  rw [stepsFrom_snoc, stepFlow, pollReads_snoc, ← List.cons_append, ← List.append_assoc,
    ← List.append_assoc, List.getLast?_concat]

/-- Settles O54: the polls of the commands before end the trace. -/
theorem noCommandWhileBusy : Obligations.NoCommandWhileBusy := by
  intro s _ hf hst
  have hrun : inSdEntry s.st = true := by
    rcases hst with ⟨hst, -⟩ | hst <;> rw [hst] <;> rfl
  obtain ⟨o, b, tr, e, -, -, -, hp, htr⟩ := (traceFollowsFlow_sdEntry (.inl hrun)).1 hf
  obtain ⟨ps, hne, hok, rfl⟩ : ∃ ps : List Poll, ps ≠ [] ∧ (∀ p ∈ ps, p.Ok) ∧
      tr = configFlow s.cfg e ++ stepsFrom s.cfg e 0 ps := by
    rcases hst with ⟨hst, hk⟩ | hst <;> simp only [SdPartial, hst] at hp
    · obtain ⟨ps, hl, hok, hps⟩ := hp
      exact ⟨ps, List.length_pos_iff.1 (hl ▸ hk), hok, hps⟩
    · obtain ⟨ps, ⟨hl, hok⟩, hps⟩ := hp
      exact ⟨ps, List.length_pos_iff.1 (hl ▸ Nat.succ_pos 4), hok, hps⟩
  obtain ⟨v, hlast, hv⟩ := stepsFrom_getLast? s.cfg e 0 hne hok
  refine ⟨v, ?_, hv⟩
  rw [htr, ← List.append_assoc, List.getLast?_append, hlast]
  rfl

/-! ### Runs that succeed -/

/-- From `s` the machine is busy for `n` cycles and then, in `t`, in DONE with success. -/
structure SucceedsIn (n : Nat) (s t : State) : Prop where
  reaches  : steps n s = .next t
  succeeds : success t = true
  stays    : ∀ m < n, ∃ u, steps m s = .next u ∧ busy u = true

section
variable {n : Nat} {s t u : State}

theorem success_iff : success t = true ↔ t.st = .done ∧ t.err = .ok := by simp [success, done]

theorem SucceedsIn.zero (h : success s = true) : SucceedsIn 0 s s := ⟨rfl, h, nofun⟩

theorem SucceedsIn.eq_of_zero (h : SucceedsIn 0 s t) : t = s := by
  injection h.reaches with h
  exact h.symm

/-- A run of `n + 1` cycles is its first cycle and then a run of `n`. -/
theorem succeedsIn_succ : SucceedsIn (n + 1) s u ↔
    busy s = true ∧ ∃ t, step s = .next t ∧ SucceedsIn n t u := by
  constructor
  · rintro ⟨hu, hok, hb⟩
    obtain ⟨_, hs, hbusy⟩ := hb 0 n.succ_pos
    injection hs with hs
    subst hs
    cases h : step s with
    | next t =>
      rw [steps_of_step h] at hu
      refine ⟨hbusy, t, rfl, hu, hok, fun m hm => ?_⟩
      have hbm := hb (m + 1) (Nat.succ_lt_succ hm)
      rwa [steps_of_step h] at hbm
    | fault f => simp [steps, h] at hu
    | refused r => simp [steps, h] at hu
  · rintro ⟨hbusy, t, h, hu, hok, hb⟩
    refine ⟨(steps_of_step h n).trans hu, hok, fun m hm => ?_⟩
    cases m with
    | zero => exact ⟨s, rfl, hbusy⟩
    | succ m =>
      rw [steps_of_step h]
      exact hb m (Nat.lt_of_succ_lt_succ hm)

/-- FATAL is no place on the way to success. -/
theorem SucceedsIn.not_fatal (h : SucceedsIn n s t) : s.st ≠ .fatal := by
  intro hst
  cases n with
  | zero =>
    obtain ⟨hd, -⟩ := success_iff.1 (h.eq_of_zero ▸ h.succeeds)
    cases hst.symm.trans hd
  | succ n =>
    obtain ⟨hb, -⟩ := succeedsIn_succ.1 h
    simp [busy, hst] at hb

/-- A run whose every cycle takes one from `left` succeeds in `left` cycles. -/
theorem succeedsIn_of_countdown {I : State → Prop} {left : State → Nat}
    (hI : ∀ s, I s → busy s = true ∧
      ∃ t, step s = .next t ∧ left t + 1 = left s ∧ (I t ∨ success t = true))
    (hdone : ∀ s, success s = true → left s = 0) (h : I s ∨ success s = true) :
    ∃ t, SucceedsIn (left s) s t := by
  induction hn : left s generalizing s with
  | zero =>
    rcases h with h | h
    · obtain ⟨-, t, -, hleft, -⟩ := hI s h
      omega
    · exact ⟨s, .zero h⟩
  | succ n ih =>
    rcases h with h | h
    · obtain ⟨hb, t, hstep, hleft, ht⟩ := hI s h
      obtain ⟨u, hu⟩ := ih ht (by omega)
      exact ⟨u, succeedsIn_succ.2 ⟨hb, t, hstep, hu⟩⟩
    · rw [hdone s h] at hn
      cases hn

end

/-! ### Cycles in which CTRL acknowledges at once -/

section
variable {s t u : State}

theorem eq_of_acked {b : Bool} (hb : b = true)
    (h : (b = true ∧ t = u) ∨ (b = false ∧ t = replied s)) : t = u := by
  rcases h with ⟨-, ht⟩ | ⟨hb', -⟩
  · exact ht
  · cases hb.symm.trans hb'

theorem PromptWith.acked {P : Word → Prop} (h : PromptWith P s) : (stepReply s).ack = true :=
  h.tick.tail.1.1

/-- A cycle uses up one reply of CTRL, or none. -/
theorem step_busIn_cases (hr : (pins s).rst = false) (h : step s = .next t) :
    t.busIn = s.busIn ∨ t.busIn = s.busIn.tail := by
  cases hx : request s with
  | none =>
    obtain ⟨-, -, hb, -⟩ := step_noRequest hr hx h
    exact .inl hb
  | some x => exact .inr (step_busIn hr hx h)

theorem PromptWith.step {P : Word → Prop} (hp : PromptWith P s) (hr : (pins s).rst = false)
    (h : step s = .next t) : PromptWith P t := by
  rcases step_busIn_cases hr h with hb | hb
  · rwa [PromptWith, hb]
  · exact hp.tail.2 t hb

end

/-! ### The length of a NOR run -/

/-- The cycles before DONE of a NOR run with prompt acknowledges: six an entry, of which `norProgress`
have passed in the current one (70_reset_and_hazards.md R276). -/
def norCyclesLeft (s : State) : Nat :=
  match s.st with
  | .validate => 1 + 6 * s.cfg.norCount.toNat
  | .done => 0
  | _ => 6 * (s.cfg.norCount.toNat - s.i.toNat) - norProgress s.st

/-- A valid NOR run with entries, on its way, with prompt acknowledges and no reset. -/
structure NorRun (s : State) : Prop where
  noReset : NoReset s
  prompt  : PromptWith (fun _ => True) s
  valid   : norInvalid s.cfg = false
  stage   : (s.st = .validate ∧ s.ent = .nor ∧ 0 < s.cfg.norCount.toNat) ∨
    (inNorRun s.st = true ∧ s.i.toNat < s.cfg.norCount.toNat)

section
variable {s t : State}

theorem norCyclesLeft_norRun (hst : inNorRun s.st = true) :
    norCyclesLeft s = 6 * (s.cfg.norCount.toNat - s.i.toNat) - norProgress s.st := by
  unfold norCyclesLeft
  cases hu : s.st
  case validate | done => rw [hu] at hst; cases hst
  all_goals rfl

theorem NorRun.busy (h : NorRun s) : busy s = true := by
  rcases h.stage with ⟨hst, -⟩ | ⟨hst, -⟩
  · simp [Machine.busy, hst]
  · revert hst
    unfold Machine.busy
    cases s.st <;> decide

/-- A state of a NOR run has a next state when the current entry's bank is one of the four. -/
theorem step_norRun_next (hr : (pins s).rst = false) (hb : (norEntry s).bankIdx.toNat < 4)
    (hst : inNorRun s.st = true) : ∃ t, step s = .next t := by
  have issue {f : NorEntry → BitVec 2 → Instr} (ha : activity s = issueNor s f)
      (hx : ∀ e b, ∃ t, exec (f e b) (tick s) = .next t) : ∃ t, step s = .next t := by
    rw [step_of_issue hr (activity_norEntry ha hb)]
    exact hx _ _
  cases hst' : s.st <;> simp only [hst'] at hst
  case nRdBcr =>
    exact issue (f := fun _ b => .norRdBcr b) (by simp only [activity, hst']) fun _ _ => ⟨_, rfl⟩
  case nWrBcr => exact issue (activity_nWrBcr hst') fun _ _ => ⟨_, rfl⟩
  case nWrBtr =>
    exact issue (f := fun e b => .norWrBtr b e.timing) (by simp only [activity, hst']) fun _ _ => ⟨_, rfl⟩
  case nWrBwtr =>
    exact issue (f := fun e b => .norWrBwtr b e.timing.toWrite) (by simp only [activity, hst'])
      fun _ _ => ⟨_, rfl⟩
  case nWrBcrEn => exact issue (activity_nWrBcrEn hst') fun _ _ => ⟨_, rfl⟩
  case nNext => exact ⟨norNext (tick s), by simp [step, hr, activity, hst']⟩
  all_goals cases hst

/-- An acknowledged element of a NOR entry is one more of its five (R127). -/
theorem step_norElement (hr : (pins s).rst = false) (hack : (stepReply s).ack = true)
    (hst : inNorRun s.st = true) (hne : s.st ≠ .nNext) (h : step s = .next t) :
    inNorRun t.st = true ∧ t.cfg = s.cfg ∧ t.i = s.i ∧ norProgress t.st = norProgress s.st + 1 := by
  cases hst' : s.st <;> simp only [hst'] at hst
  case nRdBcr => cases eq_of_acked hack (step_nRdBcr hr hst' h); exact ⟨rfl, rfl, rfl, rfl⟩
  case nWrBcr => cases eq_of_acked hack (step_nWrBcr hr hst' h); exact ⟨rfl, rfl, rfl, rfl⟩
  case nWrBtr => cases eq_of_acked hack (step_nWrBtr hr hst' h); exact ⟨rfl, rfl, rfl, rfl⟩
  case nWrBwtr => cases eq_of_acked hack (step_nWrBwtr hr hst' h); exact ⟨rfl, rfl, rfl, rfl⟩
  case nWrBcrEn => cases eq_of_acked hack (step_nWrBcrEn hr hst' h); exact ⟨rfl, rfl, rfl, rfl⟩
  case nNext => exact absurd hst' hne
  all_goals cases hst

theorem norProgress_le (u : Fsm) : norProgress u ≤ 5 := by cases u <;> decide

/-- N_NEXT's cycle, the sixth of an entry, leads to the next entry or to success (R135). -/
theorem norCyclesLeft_norNext (hv : norInvalid s.cfg = false) (hst : s.st = .nNext)
    (hi : s.i.toNat < s.cfg.norCount.toNat) : norCyclesLeft (norNext s) + 1 = norCyclesLeft s ∧
      ((inNorRun (norNext s).st = true ∧ (norNext s).cfg = s.cfg ∧
        (norNext s).i.toNat < s.cfg.norCount.toNat) ∨ success (norNext s) = true) := by
  rw [norCyclesLeft_norRun (s := s) (by rw [hst]; rfl), hst]
  rcases norNext_cases s with ⟨hlt, ht⟩ | ⟨hle, ht⟩ <;> rw [ht]
  · have hsucc : (s.i + 1).toNat = s.i.toNat + 1 :=
      i_succ (Nat.lt_of_succ_lt_succ (hlt.trans_le (norCount_le hv)))
    refine ⟨?_, .inl ⟨rfl, rfl, hsucc.trans_lt hlt⟩⟩
    rw [norCyclesLeft_norRun rfl]
    simp only [goto_st, goto_i, goto_cfg, hsucc, norProgress]
    omega
  · refine ⟨?_, .inr rfl⟩
    simp only [norCyclesLeft, succeed_st, norProgress]
    omega

/-- Every cycle of a NOR run takes one from the cycles it has left. -/
theorem norRun_step (h : NorRun s) : ∃ t, step s = .next t ∧ norCyclesLeft t + 1 = norCyclesLeft s ∧
    (NorRun t ∨ success t = true) := by
  obtain ⟨hr, -⟩ := h.noReset.tail
  have run {t : State} (ht : step s = .next t) (hst : inNorRun t.st = true) (hcfg : t.cfg = s.cfg)
      (hi : t.i.toNat < s.cfg.norCount.toNat) : NorRun t :=
    ⟨h.noReset.step h.busy ht, h.prompt.step hr ht, hcfg ▸ h.valid, .inr ⟨hst, hcfg ▸ hi⟩⟩
  rcases h.stage with ⟨hst, he, hn⟩ | ⟨hst, hi⟩
  · have hstep : step s = .next (validate (tick s)) := by simp [step, hr, activity, hst]
    rcases step_validate_nor hr hst he hstep with ⟨hv, -⟩ | ⟨-, h0, -⟩ | ⟨-, -, ht⟩
    · cases h.valid.symm.trans hv
    · simp [h0] at hn
    · rw [ht] at hstep
      refine ⟨_, hstep, ?_, .inl (run hstep rfl rfl hn)⟩
      simp [norCyclesLeft, hst, norProgress, Nat.add_comm]
  · obtain ⟨t, ht⟩ := step_norRun_next hr (bankIdx_lt h.valid hi) hst
    refine ⟨t, ht, ?_⟩
    by_cases hnext : s.st = .nNext
    · obtain rfl := step_nNext hr hnext ht
      obtain ⟨hleft, hgo⟩ := norCyclesLeft_norNext (s := tick s) h.valid hnext hi
      exact ⟨hleft, hgo.imp_left fun ⟨htst, hcfg, hti⟩ => run ht htst hcfg hti⟩
    · obtain ⟨htst, hcfg, hti, hone⟩ := step_norElement hr h.prompt.acked hst hnext ht
      refine ⟨?_, .inl (run ht htst hcfg (hti ▸ hi))⟩
      have hprog := norProgress_le t.st
      rw [norCyclesLeft_norRun hst, norCyclesLeft_norRun htst, hcfg, hti]
      omega

end

/-- Settles O58: each cycle takes one from the cycles left, and VALIDATE has 1 + 6n. -/
theorem norRunLength : Obligations.NorRunLength := by
  intro s hst he hv hn hr hp
  have hrun : NorRun s := ⟨hr, hp, hv, .inl ⟨hst, he, hn⟩⟩
  have hdone : ∀ u, success u = true → norCyclesLeft u = 0 := fun u hu => by
    simp [norCyclesLeft, (success_iff.1 hu).1]
  have hleft : norCyclesLeft s = 1 + 6 * s.cfg.norCount.toNat := by simp [norCyclesLeft, hst]
  obtain ⟨t, ht⟩ := succeedsIn_of_countdown (fun u hu => ⟨NorRun.busy hu, norRun_step hu⟩) hdone (.inl hrun)
  rw [hleft] at ht
  exact ⟨ht.stays, t, ht.reaches, ht.succeeds⟩

/-! ### The cycles of an SDRAM entry -/

section
variable (cyc : Nat)

/-- The cycles of command `k` with one SDSR read: its write, its delay, its barrier, the read. -/
def commandCycles (k : Nat) : Nat := 3 + delayUs k * cyc

/-- The cycles of the commands from `k` on. -/
def commandsFrom (k : Nat) : Nat := (((List.range 5).drop k).map (commandCycles cyc)).sum

/-- The cycles of an SDRAM entry with one SDSR read a command: steps 1 and 2, the commands, S_WR_SDRTR
and S_NEXT. -/
def entryCycles (e : SdEntry) : Nat := 2 + (if e.slot = .slot2 then 2 else 0) + commandsFrom cyc 0 + 2

/-- The cycles of the used entries from place `n` on. -/
def entriesFrom (c : Cfg) (n : Nat) : Nat := (((sdUsed c).drop n).map (entryCycles cyc)).sum

theorem commandsFrom_eq {k : Nat} (hk : k ≤ 4) :
    commandsFrom cyc k = commandCycles cyc k + commandsFrom cyc (k + 1) := by
  have hlen : k < (List.range 5).length := by rw [List.length_range]; omega
  rw [commandsFrom, List.drop_eq_getElem_cons hlen, List.getElem_range, List.map_cons, List.sum_cons]
  rfl

theorem commandsFrom_five : commandsFrom cyc 5 = 0 := rfl

theorem commandsFrom_zero : commandsFrom cyc 0 = 15 + 500 * cyc := by
  simp [commandsFrom, List.range_succ, commandCycles, delayUs]
  omega

theorem entriesFrom_eq {c : Cfg} {j : BitVec 2} {e : SdEntry} (hv : sdInvalid c = false)
    (hj : j.toNat < c.sdCount.toNat) (he : sdAt c j = some e) :
    entriesFrom cyc c j.toNat = entryCycles cyc e + entriesFrom cyc c (j.toNat + 1) := by
  obtain ⟨e', he', hu⟩ := sdAt_used hv hj
  cases he.symm.trans he'
  obtain ⟨hlt, hget⟩ := List.getElem?_eq_some_iff.1 hu
  rw [entriesFrom, List.drop_eq_getElem_cons hlt, hget, List.map_cons, List.sum_cons]
  rfl

theorem entriesFrom_end {c : Cfg} {n : Nat} (hv : sdInvalid c = false) (hn : c.sdCount.toNat ≤ n) :
    entriesFrom cyc c n = 0 := by
  rw [entriesFrom, List.drop_of_length_le (by rwa [sdUsed_length hv])]
  rfl

end

/-! ### The cycles that an SDRAM run has left -/

/-- The cycles of the gate's last two elements, and of its first two (43_enable_gate.md R210). -/
def gateCycles (c : Cfg) : Nat := if gateEn c then 2 else 0

/-- The cycle of S_WR_SDTR2, where entry `e` has one (42_sdram_sequencer.md R176). -/
def sdtr2Cycles (e : Option SdEntry) : Nat := if e.map (·.slot) = some .slot2 then 1 else 0

/-- The cycles that come after the current entry: the other entries and the gate's closing. -/
def afterEntry (s : State) : Nat :=
  entriesFrom s.par.cyclesPerUs s.cfg (s.i.toNat + 1) + gateCycles s.cfg

/-- The cycles before DONE of an SDRAM run with prompt acknowledges in which every poll to come reads
BUSY = 0 at once (70_reset_and_hazards.md R276). -/
def sdCyclesLeft (s : State) : Nat :=
  match s.st with
  | .validate => 1 + 2 * gateCycles s.cfg + entriesFrom s.par.cyclesPerUs s.cfg 0
  | .gRdOff => 4 + entriesFrom s.par.cyclesPerUs s.cfg 0
  | .gWrOff => 3 + entriesFrom s.par.cyclesPerUs s.cfg 0
  | .sWrSdcr1 => entriesFrom s.par.cyclesPerUs s.cfg s.i.toNat + gateCycles s.cfg
  | .sWrSdcr2 => 3 + commandsFrom s.par.cyclesPerUs 0 + 2 + afterEntry s
  | .sWrSdtr1 => 1 + sdtr2Cycles (sdAt s.cfg s.i) + commandsFrom s.par.cyclesPerUs 0 + 2 + afterEntry s
  | .sWrSdtr2 => 1 + commandsFrom s.par.cyclesPerUs 0 + 2 + afterEntry s
  | .sWrCmd => commandsFrom s.par.cyclesPerUs s.k.toNat + 2 + afterEntry s
  | .sDelay => s.dcnt + 2 + commandsFrom s.par.cyclesPerUs (s.k.toNat + 1) + 2 + afterEntry s
  | .sBarrier => 2 + commandsFrom s.par.cyclesPerUs (s.k.toNat + 1) + 2 + afterEntry s
  | .sPoll => 1 + commandsFrom s.par.cyclesPerUs (s.k.toNat + 1) + 2 + afterEntry s
  | .sWrSdrtr => 2 + afterEntry s
  | .sNext => 1 + afterEntry s
  | .gRdOn => 2
  | .gWrOn => 1
  | _ => 0

/-- The answers with BUSY = 1 to the SDSR reads of the trace. -/
def busyReads (s : State) : List Word := (answersFrom .sdsr s.trace).filter busyBit

/-- A cycle that the run had counted among those it has left. -/
structure CountedCycle (s t : State) : Prop where
  left  : sdCyclesLeft t + 1 = sdCyclesLeft s
  reads : busyReads t = busyReads s

/-- A cycle of S_POLL that it had not: an SDSR read with BUSY = 1. -/
structure BusyCycle (s t : State) : Prop where
  poll  : s.st = .sPoll
  busy  : busyBit (stepReply s).rdata = true
  left  : t.st ≠ .fatal → sdCyclesLeft t = sdCyclesLeft s
  reads : (busyReads t).length = (busyReads s).length + 1

section
variable {s t : State}

/-- R276 counts one read a command beside its sum. -/
theorem sdCyclesLeft_validate (hst : s.st = .validate) :
    sdCyclesLeft s = sdramCycles s (5 * (sdUsed s.cfg).length) := by
  have hentry : entryCycles s.par.cyclesPerUs = fun e =>
      14 + (if e.slot = .slot2 then 2 else 0) + 500 * s.par.cyclesPerUs + 5 := by
    funext e
    rw [entryCycles, commandsFrom_zero]
    omega
  have hgate : 2 * gateCycles s.cfg = if s.cfg.family = 2 then 4 else 0 := by
    simp only [gateCycles, gateEn_iff]
    split <;> rfl
  simp only [sdCyclesLeft, hst]
  rw [entriesFrom, List.drop_zero, hentry, List.sum_map_add, List.map_const', List.sum_replicate, hgate,
    sdramCycles, smul_eq_mul, Nat.mul_comm 5]
  omega

/-- The registers that the count looks at. -/
theorem sdCyclesLeft_congr (hst : t.st = s.st) (hcfg : t.cfg = s.cfg) (hpar : t.par = s.par)
    (hi : t.i = s.i) (hk : t.k = s.k) (hd : t.dcnt = s.dcnt) : sdCyclesLeft t = sdCyclesLeft s := by
  simp only [sdCyclesLeft, afterEntry, hst, hcfg, hpar, hi, hk, hd]

@[simp] theorem sdCyclesLeft_tick (s : State) : sdCyclesLeft (tick s) = sdCyclesLeft s :=
  sdCyclesLeft_congr rfl rfl rfl rfl rfl rfl

@[simp] theorem sdCyclesLeft_takeReply (s : State) : sdCyclesLeft (takeReply s) = sdCyclesLeft s :=
  sdCyclesLeft_congr rfl rfl rfl rfl rfl rfl

@[simp] theorem sdCyclesLeft_emit (x : TraceElem) (s : State) :
    sdCyclesLeft (emit x s) = sdCyclesLeft s :=
  sdCyclesLeft_congr rfl rfl rfl rfl rfl rfl

@[simp] theorem sdCyclesLeft_performWrite (r : Reg) (w : Word) (s : State) :
    sdCyclesLeft (performWrite r w s) = sdCyclesLeft s :=
  sdCyclesLeft_congr rfl rfl rfl rfl rfl rfl

/-- A command's delay, where it has one, is what S_DELAY has to count (42_sdram_sequencer.md R178). -/
theorem sdCyclesLeft_afterCommand (hs : SeqInv s) (hst : s.st = .sWrCmd) :
    sdCyclesLeft (afterCommand s.k.toNat s) + 1 = sdCyclesLeft s := by
  have hcmd := commandsFrom_eq s.par.cyclesPerUs hs.kBound
  rw [commandCycles] at hcmd
  rcases afterCommand_cases s.k.toNat s with ⟨-, ht⟩ | ⟨h0, ht⟩ <;> rw [ht]
  · simp only [sdCyclesLeft, hst, hcmd, afterEntry, goto_st, goto_dcnt, goto_k, goto_i, goto_cfg, goto_par]
    omega
  · simp only [sdCyclesLeft, hst, hcmd, h0, afterEntry, goto_st, goto_k, goto_i, goto_cfg, goto_par]
    omega

/-- A poll's last answer is the read that its command counted; a busy one is none that it did (R181). -/
theorem sdCyclesLeft_afterPoll (hs : SeqInv s) (hst : s.st = .sPoll) (v : Word) :
    (busyBit v = false → sdCyclesLeft (afterPoll v s) + 1 = sdCyclesLeft s) ∧
    (busyBit v = true → (afterPoll v s).st ≠ .fatal → sdCyclesLeft (afterPoll v s) = sdCyclesLeft s) := by
  rcases afterPoll_cases v s with
    ⟨hb, hk, ht⟩ | ⟨hb, hk, ht⟩ | ⟨hb, -, ht⟩ | ⟨hb, -, -, ht⟩ | ⟨hb, -, -, ht⟩ <;> rw [ht, hb]
  · refine ⟨fun _ => ?_, nofun⟩
    simp only [sdCyclesLeft, hst, afterEntry, goto_st, goto_k, goto_i, goto_cfg, goto_par, k_succ hk]
    omega
  · have hfour : s.k.toNat = 4 := Nat.le_antisymm hs.kBound hk
    refine ⟨fun _ => ?_, nofun⟩
    simp only [sdCyclesLeft, hst, afterEntry, goto_st, goto_i, goto_cfg, goto_par, hfour, Nat.reduceAdd,
      commandsFrom_five]
    omega
  · exact ⟨nofun, fun _ _ => by simp only [sdCyclesLeft, hst, goto_st]; rfl⟩
  · exact ⟨nofun, fun _ hne => absurd rfl hne⟩
  · exact ⟨nofun, fun _ _ => by simp only [sdCyclesLeft, hst, goto_st]; rfl⟩

/-- S_NEXT leads to the next entry, to the gate's closing, or to the end (R184). -/
theorem sdCyclesLeft_sdNext (hv : sdInvalid s.cfg = false) (hst : s.st = .sNext) :
    sdCyclesLeft (sdNext s) + 1 = sdCyclesLeft s := by
  rcases sdNext_cases s with ⟨hlt, ht⟩ | ⟨hle, hg, ht⟩ | ⟨hle, hg, ht⟩ <;> rw [ht]
  · have hsucc : (s.i + 1).toNat = s.i.toNat + 1 := i_succ (by have := sdCount_le hv; omega)
    simp only [sdCyclesLeft, hst, afterEntry, goto_st, goto_i, goto_cfg, goto_par, hsucc]
    omega
  · simp [sdCyclesLeft, hst, afterEntry, entriesFrom_end _ hv hle, gateCycles, hg]
  · simp [sdCyclesLeft, hst, afterEntry, entriesFrom_end _ hv hle, gateCycles, hg]

/-- An element other than an SDSR read, in a counted cycle. -/
theorem countedCycle_element {x : TraceElem} (ht : t.trace = s.trace ++ [x])
    (hx : answersFrom .sdsr [x] = []) (hl : sdCyclesLeft t + 1 = sdCyclesLeft s) : CountedCycle s t :=
  ⟨hl, by rw [busyReads, ht, answersFrom_append, hx, List.append_nil, busyReads]⟩

/-- No element, in a counted cycle. -/
theorem countedCycle_quiet (ht : t.trace = s.trace) (hl : sdCyclesLeft t + 1 = sdCyclesLeft s) :
    CountedCycle s t :=
  ⟨hl, by rw [busyReads, ht, busyReads]⟩

theorem busyReads_read {a v : Word} (ht : t.trace = s.trace ++ [.rd .sdsr a v]) :
    busyReads t = busyReads s ++ if busyBit v then [v] else [] := by
  rw [busyReads, ht, answersFrom_append, List.filter_append]
  cases hv : busyBit v <;> simp [busyReads, answersFrom, hv]

section
variable (hr : (pins s).rst = false) (h : step s = .next t)
include hr h

theorem countedCycle_validate (hst : s.st = .validate) (he : s.ent = .sdram)
    (hv : sdInvalid s.cfg = false) (hn : 0 < s.cfg.sdCount.toNat) : CountedCycle s t := by
  rcases step_validate_sdram hr hst he h with ⟨hv', -⟩ | ⟨-, h0, -⟩ | ⟨-, -, rfl⟩
  · cases hv.symm.trans hv'
  · simp [h0] at hn
  · refine countedCycle_quiet rfl ?_
    cases hg : gateEn s.cfg <;> simp [sdCyclesLeft, hst, gateCycles, hg] <;> omega

variable (hs : SeqInv s) (hack : (stepReply s).ack = true)
include hs hack

theorem countedCycle_gate (hst : inGate s.st = true) : CountedCycle s t := by
  have hg : gateCycles s.cfg = 2 := if_pos (hs.gate hst)
  cases hst' : s.st <;> simp only [hst'] at hst
  case gRdOff =>
    cases eq_of_acked hack (step_gRdOff hr hst' h)
    exact countedCycle_element rfl rfl (by simp [sdCyclesLeft, hst']; omega)
  case gWrOff =>
    cases eq_of_acked hack (step_gWrOff hr hst' h)
    exact countedCycle_element rfl rfl (by simp [sdCyclesLeft, hst', hg]; omega)
  case gRdOn =>
    cases eq_of_acked hack (step_gRdOn hr hst' h)
    exact countedCycle_element rfl rfl (by simp [sdCyclesLeft, hst'])
  case gWrOn =>
    cases eq_of_acked hack (step_gWrOn hr hst' h)
    exact countedCycle_element rfl rfl (by simp [sdCyclesLeft, hst'])
  all_goals cases hst

/-- Steps 1 and 2 of an entry (42_sdram_sequencer.md R174 to R177). -/
theorem countedCycle_config
    (hst : s.st = .sWrSdcr1 ∨ s.st = .sWrSdcr2 ∨ s.st = .sWrSdtr1 ∨ s.st = .sWrSdtr2) :
    CountedCycle s t := by
  obtain ⟨-, hv, hi⟩ := hs.sdram (by rcases hst with h | h | h | h <;> simp [h, inSdEntry])
  rcases hst with hst | hst | hst | hst
  · obtain ⟨e, he, hcyc⟩ := step_sWrSdcr1 hr hst h
    have he' : sdAt s.cfg s.i = some e := he
    cases eq_of_acked hack hcyc
    refine countedCycle_element rfl rfl ?_
    simp only [sdCyclesLeft, hst, entriesFrom_eq _ hv hi he, entryCycles, goto_st]
    cases hsl : e.slot with
    | slot1 =>
      simp [afterEntry, sdtr2Cycles, he', hsl]
      omega
    | slot2 =>
      simp [afterEntry]
      omega
  · obtain ⟨e, he, hcyc⟩ := step_sWrSdcr2 hr hst h
    have hsl : e.slot = .slot2 := by simpa [he] using hs.slot2 (.inl hst)
    cases eq_of_acked hack hcyc
    refine countedCycle_element rfl rfl ?_
    have he' : sdAt s.cfg s.i = some e := he
    simp [sdCyclesLeft, hst, afterEntry, sdtr2Cycles, he', hsl]
    omega
  · obtain ⟨e, he, hcyc⟩ := step_sWrSdtr1 hr hst h
    have he' : sdAt s.cfg s.i = some e := he
    cases eq_of_acked hack hcyc
    cases hsl : e.slot with
    | slot1 | slot2 =>
      refine countedCycle_element rfl rfl ?_
      simp [sdCyclesLeft, hst, afterEntry, sdtr2Cycles, he', hsl]
      omega
  · obtain ⟨e, -, hcyc⟩ := step_sWrSdtr2 hr hst h
    cases eq_of_acked hack hcyc
    refine countedCycle_element rfl rfl ?_
    simp [sdCyclesLeft, hst, afterEntry]
    omega

/-- A command, its delay and its barrier, the refresh timer and S_NEXT (R178 to R180, R183, R184). -/
theorem countedCycle_command (hst : s.st = .sWrCmd ∨ s.st = .sDelay ∨ s.st = .sBarrier ∨
    s.st = .sWrSdrtr ∨ s.st = .sNext) : CountedCycle s t := by
  rcases hst with hst | hst | hst | hst | hst
  · obtain ⟨e, -, hcyc⟩ := step_sWrCmd hr hst h
    have hleft := sdCyclesLeft_afterCommand (hs.replied.performWrite .sdcmr
      (cmdWord s.k.toNat e.slot e.ctrl.casLatency)) hst
    simp only [performWrite_k, takeReply_k, tick_k, sdCyclesLeft_performWrite, sdCyclesLeft_takeReply,
      sdCyclesLeft_tick] at hleft
    rw [eq_of_acked hack hcyc]
    exact countedCycle_element ((afterCommand_trace _ _).trans (performWrite_trace ..)) rfl hleft
  · obtain ⟨hpos, -⟩ := hs.delay hst
    injection (step_sDelay_eq hs hr hst).symm.trans h with ht
    subst ht
    split
    case isTrue hone =>
      exact countedCycle_element rfl rfl (by simp [sdCyclesLeft, hst, afterEntry, hone]; omega)
    case isFalse => exact countedCycle_quiet rfl (by simp [sdCyclesLeft, hst, afterEntry]; omega)
  · rw [step_sBarrier hr hst h]
    exact countedCycle_element rfl rfl (by simp [sdCyclesLeft, hst, afterEntry]; omega)
  · obtain ⟨e, -, hcyc⟩ := step_sWrSdrtr hr hst h
    cases eq_of_acked hack hcyc
    exact countedCycle_element rfl rfl (by simp [sdCyclesLeft, hst, afterEntry]; omega)
  · obtain ⟨-, hv, -⟩ := hs.sdram (by simp [hst, inSdEntry])
    have hleft := sdCyclesLeft_sdNext (s := tick s) hv hst
    have htr : (sdNext (tick s)).trace = s.trace := by
      rcases sdNext_cases (tick s) with ⟨-, ht⟩ | ⟨-, -, ht⟩ | ⟨-, -, ht⟩ <;> rw [ht] <;> rfl
    rw [step_sNext hr hst h]
    exact countedCycle_quiet htr (hleft.trans (sdCyclesLeft_tick s))

/-- An SDSR read, with BUSY = 0 or with BUSY = 1 (R181). -/
theorem pollCycle (hst : s.st = .sPoll) : CountedCycle s t ∨ BusyCycle s t := by
  have ht := eq_of_acked hack (step_sPoll hr hst h)
  obtain ⟨hready, hbusy⟩ := sdCyclesLeft_afterPoll
    (hs.replied.emit (.rd .sdsr (addrOf s.cfg .sdsr) (stepReply s).rdata)) hst (stepReply s).rdata
  have hreads : busyReads t = busyReads s ++ if busyBit (stepReply s).rdata then [(stepReply s).rdata]
      else [] := busyReads_read (a := addrOf s.cfg .sdsr) (by rw [ht, (keepsBlock_afterPoll _ _).trace]; rfl)
  rw [← ht, sdCyclesLeft_emit, sdCyclesLeft_takeReply, sdCyclesLeft_tick] at hready hbusy
  cases hb : busyBit (stepReply s).rdata with
  | false => exact .inl ⟨hready hb, by simpa [hb] using hreads⟩
  | true => exact .inr ⟨hst, hb, hbusy hb, by simp [hreads, hb]⟩

end
end

/-! ### A whole SDRAM run -/

/-- A valid SDRAM run with entries, on its way, with no reset and with prompt acknowledges whose answers
satisfy `P`. -/
structure SdRun (P : Word → Prop) (s : State) : Prop where
  inv     : SeqInv s
  noReset : NoReset s
  prompt  : PromptWith P s
  stage   : (s.st = .validate ∧ s.ent = .sdram ∧ sdInvalid s.cfg = false ∧ 0 < s.cfg.sdCount.toNat) ∨
    inSdEntry s.st = true ∨ inGate s.st = true

theorem sdRun_ne_outcome {u : Fsm} (h : inSdEntry u = true ∨ inGate u = true) :
    u ≠ .idle ∧ u ≠ .done ∧ u ≠ .fatal := by
  revert h; cases u <;> decide

/-- What follows a state of an SDRAM run is one of its states, or an outcome. -/
theorem successors_sdRun {u v : Fsm} (h : inSdEntry u = true ∨ inGate u = true)
    (hv : v = u ∨ v ∈ successors u) :
    (inSdEntry v = true ∨ inGate v = true) ∨ v = .done ∨ v = .fatal := by
  rcases hv with rfl | hv
  · exact .inl h
  · revert hv h; cases u <;> simp [successors, inSdEntry, inGate] <;> rintro (rfl | rfl | rfl) <;> simp

section
variable {s t : State} {P : Word → Prop} {n : Nat}

theorem SdRun.busy (h : SdRun P s) : busy s = true := by
  rcases h.stage with ⟨hst, -⟩ | hst
  · simp [Machine.busy, hst]
  · obtain ⟨hi, hd, hf⟩ := sdRun_ne_outcome hst
    simp [Machine.busy, hi, hd, hf]

/-- Every cycle of the run is counted, or a busy read. -/
theorem SdRun.cycle (h : SdRun P s) (ht : step s = .next t) : CountedCycle s t ∨ BusyCycle s t := by
  obtain ⟨hr, -⟩ := h.noReset.tail
  have hack := h.prompt.acked
  rcases h.stage with ⟨hst, he, hv, hn⟩ | hst
  · exact .inl (countedCycle_validate hr ht hst he hv hn)
  · cases hu : s.st
    case gRdOff | gWrOff | gRdOn | gWrOn =>
      exact .inl (countedCycle_gate hr ht h.inv hack (by rw [hu]; rfl))
    case sWrSdcr1 | sWrSdcr2 | sWrSdtr1 | sWrSdtr2 =>
      exact .inl (countedCycle_config hr ht h.inv hack (by simp [hu]))
    case sWrCmd | sDelay | sBarrier | sWrSdrtr | sNext =>
      exact .inl (countedCycle_command hr ht h.inv hack (by simp [hu]))
    case sPoll => exact pollCycle hr ht h.inv hack hu
    all_goals simp [hu, inSdEntry, inGate] at hst

/-- The run goes on, or ends in success, unless a poll times out. -/
theorem SdRun.next (h : SdRun P s) (ht : step s = .next t) (hf : t.st ≠ .fatal) :
    SdRun P t ∨ success t = true := by
  obtain ⟨hr, -⟩ := h.noReset.tail
  have run (hst : inSdEntry t.st = true ∨ inGate t.st = true) : SdRun P t :=
    ⟨registerInvariantKept s t h.inv ht, h.noReset.step h.busy ht, h.prompt.step hr ht, .inr hst⟩
  rcases h.stage with ⟨hst, he, hv, hn⟩ | hst
  · rcases step_validate_sdram hr hst he ht with ⟨hv', -⟩ | ⟨-, h0, -⟩ | ⟨-, -, rfl⟩
    · cases hv.symm.trans hv'
    · simp [h0] at hn
    · refine .inl (run ?_)
      cases gateEn s.cfg
      · exact .inl rfl
      · exact .inr rfl
  · rcases successors_sdRun hst (step_successors hr ht) with htst | hd | hft
    · exact .inl (run htst)
    · refine .inr (success_iff.2 ⟨hd, ?_⟩)
      rcases step_err_cases hr ht with he | he | ⟨-, hval, -⟩ | ⟨-, hft⟩
      · exact he.trans (h.inv.sdRun_err hst)
      · exact he
      · simp [hval, inSdEntry, inGate] at hst
      · exact absurd hft hf
    · exact absurd hft hf

/-- A run takes the cycles it had left and one for each of its busy reads. -/
theorem cycles_of_success (h : SdRun P s ∨ success s = true) (hu : SucceedsIn n s t) :
    n + (busyReads s).length = sdCyclesLeft s + (busyReads t).length := by
  induction n generalizing s with
  | zero =>
    cases hu.eq_of_zero
    simp [sdCyclesLeft, (success_iff.1 hu.succeeds).1]
  | succ n ih =>
    obtain ⟨hb, v, hv, hu⟩ := succeedsIn_succ.1 hu
    have hrun : SdRun P s := h.resolve_right fun hok => by simp [busy, (success_iff.1 hok).1] at hb
    have hnext := ih (hrun.next hv hu.not_fatal) hu
    rcases hrun.cycle hv with ⟨hleft, hreads⟩ | ⟨-, -, hleft, hreads⟩
    · rw [hreads] at hnext
      omega
    · have hleft := hleft hu.not_fatal
      omega

/-- The answers with BUSY = 0 of a successful run: one a command (42_sdram_sequencer.md R181). -/
theorem readyReads_of_success (hf : TraceFollowsFlow s) (hok : success s = true) (he : s.ent = .sdram) :
    ((answersFrom .sdsr s.trace).filter (!busyBit ·)).length = 5 * (sdUsed s.cfg).length := by
  have hmarks : readyMarks s.trace = (sdUsed s.cfg).flatMap fun _ => List.replicate 5 () :=
    observation_readyMarks.run hf hok he fun e ps hps => by
      rw [observation_readyMarks.sdEntryFlow hps fun k p hp => readyMarks_stepFlow s.cfg e k hp]
      cases hs : e.slot <;> simp [configFlow, readyMarks, answersFrom, wrElem, hs, List.range_succ]
  simpa [readyMarks, Nat.mul_comm] using congrArg List.length hmarks

/-- A whole run keeps its trace on the flow, its entry and its configuration. -/
theorem SucceedsIn.keeps (h : SucceedsIn n s t) (hs : SeqInv s) (hf : TraceFollowsFlow s)
    (hn : NoReset s) : TraceFollowsFlow t ∧ t.ent = s.ent ∧ t.cfg = s.cfg := by
  induction n generalizing s with
  | zero =>
    cases h.eq_of_zero
    exact ⟨hf, rfl, rfl⟩
  | succ n ih =>
    obtain ⟨hb, u, hu, hrest⟩ := succeedsIn_succ.1 h
    obtain ⟨-, hcfg, -⟩ := registerWriters s u hn.tail.1 hu
    have hsame : u.ent = s.ent ∧ u.cfg = s.cfg := by
      by_contra hne
      obtain ⟨hst | hst, -⟩ := hcfg (by tauto) <;> simp [busy, hst] at hb
    obtain ⟨hft, he, hc⟩ := ih hrest (registerInvariantKept s u hs hu) (traceFlowKept s u hs hf hu)
      (hn.step hb hu)
    exact ⟨hft, he.trans hsame.1, hc.trans hsame.2⟩

/-- A busy answer is a listed one, when the replies come to answer BUSY = 0. -/
theorem items_ne_nil_of_busy (hr : ReadyInTheEnd s) (hb : busyBit (stepReply s).rdata = true) :
    s.busIn.items ≠ [] := by
  obtain ⟨r, hrest, hready⟩ := hr
  intro hnil
  simp [reply, Script.head, hnil, hrest, hready] at hb

theorem ReadyInTheEnd.step (h : ReadyInTheEnd s) (hr : (pins s).rst = false) (ht : step s = .next t) :
    ReadyInTheEnd t := by
  obtain ⟨r, hrest, hready⟩ := h
  rcases step_busIn_cases hr ht with hb | hb <;> exact ⟨r, by rw [hb]; exact hrest, hready⟩

/-- With unbounded polls a run succeeds: each cycle takes one from the cycles left or reads one of the
listed busy answers (60_exceptions.md R230). -/
theorem succeeds_of_ready (h : SdRun P s ∨ success s = true) (hp : s.par.pollTimeout = 0)
    (hready : ReadyInTheEnd s) : ∃ n t, SucceedsIn n s t := by
  induction hm : sdCyclesLeft s + s.busIn.items.length using Nat.strong_induction_on generalizing s with
  | h m ih =>
    rcases h with h | hok
    · obtain ⟨hr, -⟩ := h.noReset.tail
      obtain ⟨t, ht⟩ := nothingStops s h.inv
      obtain ⟨hpar, -⟩ := registerWriters s t hr ht
      have hf : t.st ≠ .fatal := fun hft => by
        obtain ⟨-, -, -, hpos, -⟩ := fatal_entered ht hft fun hst => by simpa [busy, hst] using h.busy
        omega
      have hless : sdCyclesLeft t + t.busIn.items.length < m := by
        rcases h.cycle ht with ⟨hleft, -⟩ | ⟨hst, hb, hleft, -⟩
        · have hle : t.busIn.items.length ≤ s.busIn.items.length := by
            rcases step_busIn_cases hr ht with hbus | hbus <;> rw [hbus]
            simp [Script.tail]
          omega
        · obtain ⟨-, x, hx, -⟩ := busPort_eq_some.1 (busPort_sPoll hr hst)
          have hpos := List.length_pos_iff.2 (items_ne_nil_of_busy hready hb)
          have hlen : t.busIn.items.length = s.busIn.items.length - 1 := by
            rw [step_busIn hr hx ht]
            exact List.length_tail
          have hleft := hleft hf
          omega
      obtain ⟨n, u, hu⟩ := ih _ hless (h.next ht hf) (hpar ▸ hp) (hready.step hr ht) rfl
      exact ⟨n + 1, u, succeedsIn_succ.2 ⟨h.busy, t, ht, hu⟩⟩
    · exact ⟨0, s, .zero hok⟩

/-- Where every poll reads BUSY = 0 at once, each cycle takes one from the cycles left. -/
theorem SdRun.countdown (h : SdRun (fun v => busyBit v = false) s) : ∃ t, step s = .next t ∧
    sdCyclesLeft t + 1 = sdCyclesLeft s ∧ (SdRun (fun v => busyBit v = false) t ∨ success t = true) := by
  obtain ⟨t, ht⟩ := nothingStops s h.inv
  obtain ⟨⟨-, hready⟩, -⟩ := h.prompt.tick.tail
  have hf : t.st ≠ .fatal := fun hft => by
    obtain ⟨-, -, hb, -⟩ := fatal_entered ht hft fun hst => by simpa [Machine.busy, hst] using h.busy
    cases hb.symm.trans hready
  rcases h.cycle ht with hcount | hbusy
  · exact ⟨t, ht, hcount.left, h.next ht hf⟩
  · cases hbusy.busy.symm.trans hready

end

theorem sdramCycles_add (s : State) (p q : Nat) : sdramCycles s (p + q) = sdramCycles s p + q :=
  (Nat.add_assoc _ _ _).symm

/-- Settles O59: VALIDATE has the cycles of R276 left for one read a command, and every other SDSR read
of the trace is a busy one. -/
theorem sdramRunLength : Obligations.SdramRunLength := by
  intro s hs hf hst he hv hn hr hp
  have hleft := sdCyclesLeft_validate hst
  have hrun {P : Word → Prop} (hp : PromptWith P s) : SdRun P s := ⟨hs, hr, hp, .inl ⟨hst, he, hv, hn⟩⟩
  refine ⟨fun n t ht hok hb => ?_, fun h0 hready => ?_, fun hready => ?_⟩
  · have hu : SucceedsIn n s t := ⟨ht, hok, hb⟩
    have hcycles := cycles_of_success (.inl (hrun hp)) hu
    obtain ⟨hft, het, hct⟩ := hu.keeps hs hf hr
    have hcount := readyReads_of_success hft hok (het.trans he)
    have h0 : busyReads s = [] := by
      have htr : s.trace = [] := by simpa only [TraceFollowsFlow, hst] using hf
      rw [busyReads, htr]
      rfl
    have hreads : (answersFrom .sdsr t.trace).length =
        5 * (sdUsed s.cfg).length + (busyReads t).length := by
      rw [List.length_eq_length_filter_add busyBit, hcount, hct, Nat.add_comm, busyReads]
    calc n = sdramCycles s (5 * (sdUsed s.cfg).length) + (busyReads t).length := by
          rw [← hleft, ← hcycles, h0]; rfl
      _ = sdramCycles s (answersFrom .sdsr t.trace).length := by rw [hreads, sdramCycles_add]
  · obtain ⟨n, t, ht⟩ := succeeds_of_ready (.inl (hrun hp)) h0 hready
    exact ⟨n, t, ht.reaches, ht.succeeds, ht.stays⟩
  · have hdone : ∀ u, success u = true → sdCyclesLeft u = 0 := fun u hu => by
      simp [sdCyclesLeft, (success_iff.1 hu).1]
    obtain ⟨t, ht⟩ := succeedsIn_of_countdown (fun u hu => ⟨SdRun.busy hu, SdRun.countdown hu⟩) hdone
      (.inl (hrun hready))
    rw [hleft] at ht
    exact ⟨ht.stays, t, ht.reaches, ht.succeeds⟩

end Sys2Proof.Machine
